-- ==== Sys2Proof/Word.lean ====
section
/-! DEFINITION. The byte, the 16-bit register, and the fixed-size byte arrays of the core (00_scope.md, section 4 and R5). -/

namespace Sys2Proof

/-- 00_scope.md section 4, "Byte": bits numbered 7 down to 0. -/
abbrev Byte := BitVec 8

/-- A 16-bit register or bus address (MSGLEN, BLK: 10_state.md R15, R24; `addr[15:0]`: 20_memory.md R40). -/
abbrev Half := BitVec 16

/-- A block of 16 bytes in address order; byte `4c + r` is column `c`, row `r` (00_scope.md R5, 43_blockview.md R111). -/
abbrev Block := Vector Byte 16

/-- A word of the key schedule, `[b0, b1, b2, b3]`, most significant byte first (42_key_schedule.md R104). -/
abbrev KeyWord := Vector Byte 4

/-- The round-key table RK: 11 round keys of 16 bytes, flat (10_state.md R17). -/
abbrev RoundKeys := Vector Byte 176

/-- Sixteen bytes 0x00. -/
def Block.zero : Block := Vector.replicate 16 0

/-- 176 bytes 0x00, the reset content of RK (10_state.md R17). -/
def RoundKeys.zero : RoundKeys := Vector.replicate 176 0

end Sys2Proof
end

