-- ==== Sys2Proof/Config.lean ====
section
/-! DEFINITION. What one build of the core fixes: the parameter MB_BYTES (00_scope.md R6), and the sizes of R5. -/

namespace Sys2Proof.Config

/-- The open parameters of the hardware that stay fixed for one machine (00_scope.md R6).
State carries them, so that a statement about every state is about every machine.
DESIGN CHOICE (log entry 1). -/
structure Params where
  /-- `MB_BYTES`: capacity of the message buffer in bytes. -/
  mbBytes : Nat
deriving DecidableEq, Repr

/-- The suggested default of 00_scope.md R6: `MB_BYTES = 4096`. -/
def Params.default : Params := { mbBytes := 4096 }

/-- Number of bytes of a block (00_scope.md R5). -/
def blockBytes : Nat := 16

/-- The declared length of a key or an IV that a command accepts (60_exceptions.md R171, R172). -/
def keyBytes : Nat := 16

/-- `roundCount`: the number of round keys (00_scope.md R5, 90_conflicts.md C8). -/
def roundCount : Nat := 11

end Sys2Proof.Config
end

