-- ==== Sys2Proof/Syntax.lean ====
section
/-! DEFINITION. The 16 commands of the core (30_encoding.md R61 to R63; the rows of spec/opcode_table.json). -/

namespace Sys2Proof

/-- A command. No constructor has an argument: a command has no immediate and no operand field (30_encoding.md R65). -/
inductive Instr where
  /-- ENC.ECB, 0x10 (45_modes.md R143). -/
  | encEcb
  /-- ENC.CBC, 0x11 (45_modes.md R145). -/
  | encCbc
  /-- ENC.OFB, 0x12 (45_modes.md R147). -/
  | encOfb
  /-- ENC.CFB, 0x13 (45_modes.md R149). -/
  | encCfb
  /-- DEC.ECB, 0x20 (45_modes.md R144). -/
  | decEcb
  /-- DEC.CBC, 0x21 (45_modes.md R146). -/
  | decCbc
  /-- DEC.OFB, 0x22 (45_modes.md R148). -/
  | decOfb
  /-- DEC.CFB, 0x23 (45_modes.md R150). -/
  | decCfb
  /-- KEXP, 0x30 (42_key_schedule.md R106). -/
  | kexp
  /-- ENCB, 0x40 (44_round_transform.md R130). -/
  | encb
  /-- DECB, 0x50 (44_round_transform.md R131). -/
  | decb
  /-- GFMUL, 0x60 (40_galois_field.md R84). -/
  | gfmul
  /-- XTIME, 0x70 (40_galois_field.md R83). -/
  | xtime
  /-- SBOX, 0x80 (41_sbox.md R94). -/
  | sbox
  /-- ISBOX, 0x90 (41_sbox.md R95). -/
  | isbox
  /-- CLONE, 0xA0 (43_blockview.md R117). -/
  | clone
deriving DecidableEq, Repr

end Sys2Proof
end

