-- ==== Sys2Proof/WellFormed.lean ====
section
/-! DEFINITION. The checks on what a model is given: a command, and the parameter MB_BYTES. -/

namespace Sys2Proof

/-- Every command is well-formed: it has no operand whose value could be out of range (30_encoding.md R65).
There is no check here, hence no ill-formed command. -/
def Instr.wellFormed : Instr → Bool
  | .encEcb | .encCbc | .encOfb | .encCfb | .decEcb | .decCbc | .decOfb | .decCfb => true
  | .kexp | .encb | .decb | .gfmul | .xtime | .sbox | .isbox | .clone => true

/-- `MB_BYTES mod 16 = 0` (00_scope.md R6). -/
def Config.Params.blockAligned (p : Config.Params) : Bool := p.mbBytes % 16 == 0

/-- `16 <= MB_BYTES` (00_scope.md R6). -/
def Config.Params.holdsABlock (p : Config.Params) : Bool := decide (16 ≤ p.mbBytes)

/-- `MB_BYTES <= 61440` (00_scope.md R6). -/
def Config.Params.fitsTheWindow (p : Config.Params) : Bool := decide (p.mbBytes ≤ 61440)

/-- The legal values of MB_BYTES (00_scope.md R6). -/
def Config.Params.legal (p : Config.Params) : Bool :=
  p.blockAligned && p.holdsABlock && p.fitsTheWindow

end Sys2Proof
end

