-- ==== Sys2Proof/Decode.lean ====
section
/-! DEFINITION. The command byte: its fields, the decoder over all 256 bytes, and the encoder (30_encoding.md R60 to R64). -/

namespace Sys2Proof

/-- `OPC = CMD[7:4]` (30_encoding.md R60). -/
def opcOf (v : Byte) : Nat := v.toNat / 16

/-- `MODE = CMD[3:0]` (30_encoding.md R60). -/
def modeOf (v : Byte) : Nat := v.toNat % 16

/-- Why a byte is no command (30_encoding.md R64): both fail with a mask when executed. -/
inductive Reject where
  /-- R64 (a): fails with IllegalCommand alone. -/
  | illegalCommand
  /-- R64 (b): ENC or DEC with MODE 0x4 to 0xF, fails with UnsupportedMode and whatever other check fails. -/
  | unsupportedMode
deriving DecidableEq, Repr

/-- OPC 0x1, by MODE (30_encoding.md R61, R62). -/
def decodeEnc : Nat → Except Reject Instr
  | 0 => .ok .encEcb
  | 1 => .ok .encCbc
  | 2 => .ok .encOfb
  | 3 => .ok .encCfb
  | _ => .error .unsupportedMode

/-- OPC 0x2, by MODE (30_encoding.md R61, R62). -/
def decodeDec : Nat → Except Reject Instr
  | 0 => .ok .decEcb
  | 1 => .ok .decCbc
  | 2 => .ok .decOfb
  | 3 => .ok .decCfb
  | _ => .error .unsupportedMode

/-- An opcode without modes: its MODE field must be 0 (30_encoding.md R60, R64). -/
def decodeUnit (i : Instr) (mode : Nat) : Except Reject Instr :=
  if mode = 0 then .ok i else .error .illegalCommand

/-- The decoder, total on all 256 bytes (30_encoding.md R63). -/
def decode (v : Byte) : Except Reject Instr :=
  match opcOf v with
  | 0x1 => decodeEnc (modeOf v)
  | 0x2 => decodeDec (modeOf v)
  | 0x3 => decodeUnit .kexp (modeOf v)
  | 0x4 => decodeUnit .encb (modeOf v)
  | 0x5 => decodeUnit .decb (modeOf v)
  | 0x6 => decodeUnit .gfmul (modeOf v)
  | 0x7 => decodeUnit .xtime (modeOf v)
  | 0x8 => decodeUnit .sbox (modeOf v)
  | 0x9 => decodeUnit .isbox (modeOf v)
  | 0xA => decodeUnit .clone (modeOf v)
  | _ => .error .illegalCommand

/-- The decoder as a decoder of a byte stream: one instruction length, one byte (30_encoding.md R60). -/
def decodeBytes : List Byte → Option (Except Reject Instr × List Byte)
  | [] => none
  | v :: rest => some (decode v, rest)

/-- The instruction the decoder reads from a table word of `nbits` bits: the word's bytes, lowest bits first,
are laid out and its first byte is the command (log entry 20). -/
def decodeTableWord (nbits w : Nat) : Option Instr :=
  match decodeBytes [BitVec.ofNat 8 (w % 2 ^ nbits)] with
  | some (.ok i, _) => some i
  | _ => none

/-- `{OPC, MODE}` (30_encoding.md R60). -/
def commandByte (opc mode : BitVec 4) : Byte := opc ++ mode

/-- The command byte of a command, from the opcodes of 30_encoding.md R61 and the modes of R62. -/
def encode : Instr → Byte
  | .encEcb => commandByte 0x1 0x0
  | .encCbc => commandByte 0x1 0x1
  | .encOfb => commandByte 0x1 0x2
  | .encCfb => commandByte 0x1 0x3
  | .decEcb => commandByte 0x2 0x0
  | .decCbc => commandByte 0x2 0x1
  | .decOfb => commandByte 0x2 0x2
  | .decCfb => commandByte 0x2 0x3
  | .kexp => commandByte 0x3 0x0
  | .encb => commandByte 0x4 0x0
  | .decb => commandByte 0x5 0x0
  | .gfmul => commandByte 0x6 0x0
  | .xtime => commandByte 0x7 0x0
  | .sbox => commandByte 0x8 0x0
  | .isbox => commandByte 0x9 0x0
  | .clone => commandByte 0xA 0x0

end Sys2Proof
end

