-- ==== Sys2Proof/Machine/State.lean ====
section
/-! DEFINITION. The state of the core (10_state.md R10), the outside world as data, and the state after reset (70_reset_and_hazards.md R190). -/

namespace Sys2Proof.Machine

/-- The message buffer: the bytes that are not 0x00, by index, indices strictly rising (`Memory.wf` in Machine/Ops.lean). -/
abbrev Memory := List Host.Cell

/-- A bus transaction (20_memory.md R40). -/
inductive Transaction where
  /-- `Read(a)`. -/
  | read (addr : Half)
  /-- `Write(a, v)`. -/
  | write (addr : Half) (value : Byte)
deriving DecidableEq, Repr

/-- A completed transaction, with the byte a read returned (20_memory.md R40, R47). -/
inductive Completed where
  /-- `RD addr = value`. -/
  | read (addr : Half) (value : Byte)
  /-- `WR addr, value`. -/
  | write (addr : Half) (value : Byte)
deriving DecidableEq, Repr

/-- What the outside world does next. The MODEL's own data (log entries 3, 8): the spec's host, its `rst` input, and time. -/
inductive Input where
  /-- The host presents a transaction (20_memory.md R40). -/
  | bus (t : Transaction)
  /-- The command in flight runs to completion now: its LATENCY has passed (00_scope.md R6, 70_reset_and_hazards.md R204). -/
  | run
  /-- `rst` is asserted; `init` is the arbitrary content MB holds after this reset, `MB_INIT` (70_reset_and_hazards.md R190, R191). -/
  | reset (init : Memory)
  /-- `rst` is released (70_reset_and_hazards.md R190). -/
  | release
deriving DecidableEq, Repr

/-- The outside world as data. No register of the core (log entries 3, 6, 8, 14). -/
structure Port where
  /-- The level of the input `rst`. -/
  rst : Bool
  /-- The transaction the host holds on the bus while `ready` is low (20_memory.md R46). -/
  held : Option Transaction
  /-- What the outside world does next, the next thing first. -/
  inputs : List Input
  /-- The completed transactions, the most recent first (20_memory.md R47). -/
  trace : List Completed
deriving DecidableEq, Repr

/-- The sequencer (10_state.md R29). -/
structure Sequencer where
  /-- True from the acceptance of a command to its completion; STATUS.BUSY is this bit (10_state.md R21). -/
  pending : Bool
  /-- The block index during a cipher command; absent between commands. -/
  bi : Option Nat
deriving DecidableEq, Repr

/-- The complete state of the core, 10_state.md R10, with the machine's parameters and the outside world beside it. -/
structure State where
  /-- KEY (R11). -/
  key : Block
  /-- IV, also the running register of OFB and CFB (R12). -/
  iv : Block
  /-- KLEN (R13). -/
  klen : Byte
  /-- IVLEN (R14). -/
  ivlen : Byte
  /-- MSGLEN (R15). -/
  msglen : Half
  /-- MB, the message buffer (R16). -/
  mb : Memory
  /-- RK, the round-key table (R17). -/
  rk : RoundKeys
  /-- CLONE, the one-block clone buffer (R18). -/
  clone : Block
  /-- CMD (R20). -/
  cmd : Byte
  /-- STATUS.DONE (R21). -/
  done : Bool
  /-- ERR (R22). -/
  err : BitVec 5
  /-- CTRL.IE (R23). -/
  ie : Bool
  /-- BLK (R24). -/
  blk : Half
  /-- BVSEL (R25). -/
  bvsel : BitVec 6
  /-- OPA (R27). -/
  opa : Byte
  /-- OPB (R27). -/
  opb : Byte
  /-- RESULT (R28). -/
  result : Byte
  /-- The sequencer (R29); STATUS.BUSY is its `pending`. -/
  seq : Sequencer
  /-- The parameters of this machine (00_scope.md R6). -/
  cfg : Config.Params
  /-- The outside world. -/
  port : Port
deriving DecidableEq, Repr

/-- Why a step stops the machine. THERE IS NO FAULT: errors complete the command with a non-zero ERR (60_exceptions.md
R176, R178), bus transactions never raise one (R184), and no state is stuck (70_reset_and_hazards.md R204; log entry 9). -/
inductive Fault where
deriving DecidableEq, Repr

/-- Why a step gives an instruction no meaning. -/
inductive Refusal where
  /-- An instruction without a meaning yet, raised by its arm of `exec` alone. Safe: the machine stops where the hardware goes on. No arm raises it. -/
  | notModelled (mnemonic : String)
deriving DecidableEq, Repr

/-- The state after a reset of a machine with parameters `p` whose MB then holds `init` (70_reset_and_hazards.md R190):
both of the spec's open parameters are arguments. -/
def State.resetWith (p : Config.Params) (init : Memory) : State where
  key := Block.zero
  iv := Block.zero
  klen := 0
  ivlen := 0
  msglen := 0
  mb := init
  rk := RoundKeys.zero
  clone := Block.zero
  cmd := 0
  done := false
  err := 0
  ie := false
  blk := 0
  bvsel := 0
  opa := 0
  opb := 0
  result := 0
  seq := { pending := false, bi := none }
  cfg := p
  port := { rst := false, held := none, inputs := [], trace := [] }

/-- The machine right after reset, `rst` released: MB_BYTES at the spec's suggested default (log entry 1), MB with
nothing listed (log entry 2), and no input. -/
def State.reset : State := State.resetWith Config.Params.default []

end Sys2Proof.Machine
end

