-- ==== Sys2Proof/Machine/Flags.lean ====
section
/-! DEFINITION. The flags: STATUS, ERR, irq, and the error mask of a command (10_state.md R21, R22; 60_exceptions.md R170 to R180). -/

namespace Sys2Proof.Machine

/-- InvalidKeyLength, ERR bit 0 (60_exceptions.md R170). -/
def invalidKeyLength : BitVec 5 := 0x01

/-- MissingOrInvalidIV, ERR bit 1 (60_exceptions.md R170). -/
def missingOrInvalidIV : BitVec 5 := 0x02

/-- UnsupportedMode, ERR bit 2 (60_exceptions.md R170). -/
def unsupportedMode : BitVec 5 := 0x04

/-- IllegalCommand, ERR bit 3 (60_exceptions.md R170). -/
def illegalCommand : BitVec 5 := 0x08

/-- BufferRange, ERR bit 4 (60_exceptions.md R170). -/
def bufferRange : BitVec 5 := 0x10

/-- The mask `m` where the condition holds, else no bit (the lines `if … : m <- m | …` of 60_exceptions.md R177). -/
def maskIf (condition : Bool) (m : BitVec 5) : BitVec 5 := if condition then m else 0

/-- `KLEN != 16` (60_exceptions.md R171). -/
def keyLengthBad (s : State) : Bool := decide (s.klen.toNat ≠ Config.keyBytes)

/-- `IVLEN != 16` (60_exceptions.md R172). -/
def ivLengthBad (s : State) : Bool := decide (s.ivlen.toNat ≠ Config.keyBytes)

/-- `MSGLEN > MB_BYTES` (60_exceptions.md R175). -/
def messageTooLong (s : State) : Bool := decide (s.cfg.mbBytes < s.msglen.toNat)

/-- `16*BLK + 16 > MB_BYTES`, without wrap (60_exceptions.md R175, R177). -/
def blockOutside (s : State) : Bool := decide (s.cfg.mbBytes < 16 * s.blk.toNat + 16)

/-- The mask of ENC and DEC (60_exceptions.md R177, the branch `opc = 0x1 or opc = 0x2`). -/
def cipherMask (mode : Nat) (s : State) : BitVec 5 :=
  maskIf (keyLengthBad s) invalidKeyLength |||
  maskIf (decide (4 ≤ mode)) unsupportedMode |||
  maskIf (decide (mode < 4) && decide (mode ≠ 0) && ivLengthBad s) missingOrInvalidIV |||
  maskIf (messageTooLong s) bufferRange

/-- The mask of KEXP to CLONE with MODE 0 (60_exceptions.md R177, the branch `opc >= 0x3 and opc <= 0xA`). -/
def unitMask (opc : Nat) (s : State) : BitVec 5 :=
  maskIf ((opc == 0x3 || opc == 0x4 || opc == 0x5) && keyLengthBad s) invalidKeyLength |||
  maskIf ((opc == 0x4 || opc == 0x5 || opc == 0xA) && blockOutside s) bufferRange

/-- `errmask(v)`: all the errors of the command byte `v`, together (60_exceptions.md R177). -/
def errmask (v : Byte) (s : State) : BitVec 5 :=
  if opcOf v = 0x1 ∨ opcOf v = 0x2 then cipherMask (modeOf v) s
  else if 0x3 ≤ opcOf v ∧ opcOf v ≤ 0xA then
    if modeOf v = 0 then unitMask (opcOf v) s else illegalCommand
  else illegalCommand

/-- STATUS.BUSY: the sequencer's `pending` (10_state.md R21). -/
def busy (s : State) : Bool := s.seq.pending

/-- STATUS.ERROR: the OR of the ERR bits (10_state.md R21). -/
def errorFlag (s : State) : Bool := decide (s.err ≠ 0)

/-- STATUS as read: `{00000, ERROR, DONE, BUSY}` (20_memory.md R41). -/
def statusByte (s : State) : Byte :=
  (0 : BitVec 5) ++ BitVec.ofBool (errorFlag s) ++ BitVec.ofBool s.done ++ BitVec.ofBool (busy s)

/-- ERR as read: `{000, ERR[4:0]}` (20_memory.md R41). -/
def errByte (s : State) : Byte := (0 : BitVec 3) ++ s.err

/-- CTRL as read: `{0000000, IE}` (20_memory.md R41). -/
def ctrlByte (s : State) : Byte := (0 : BitVec 7) ++ BitVec.ofBool s.ie

/-- BVSEL as read: `{00, SPACE, COL, ROW}` (20_memory.md R41). -/
def bvselByte (s : State) : Byte := (0 : BitVec 2) ++ s.bvsel

/-- The interrupt output: `irq = CTRL.IE and STATUS.DONE` (60_exceptions.md R180). -/
def irq (s : State) : Bool := s.ie && s.done

end Sys2Proof.Machine
end

