-- ==== Sys2Proof/Machine/Ops.lean ====
section
/-! DEFINITION. The named operations: one byte of the message buffer, the life cycle of a command with its failure path (the hardware's exception entry), and reset. -/

namespace Sys2Proof.Machine

/-- One byte of MB (10_state.md R16). An index that is not listed holds 0x00 (log entry 2). -/
def Memory.read : Memory → Nat → Byte
  | [], _ => 0
  | (k, b) :: rest, a => if k = a then b else Memory.read rest a

/-- Store one byte of MB, keeping the canonical form: rising indices, no byte 0x00 listed. -/
def Memory.write : Memory → Nat → Byte → Memory
  | [], a, v => if v = 0 then [] else [(a, v)]
  | (k, b) :: rest, a, v =>
    if a < k then (if v = 0 then (k, b) :: rest else (a, v) :: (k, b) :: rest)
    else if a = k then (if v = 0 then rest else (a, v) :: rest)
    else (k, b) :: Memory.write rest a v

/-- The canonical form: indices strictly rising, and no entry equal to what an unlisted index holds. -/
def Memory.wf : Memory → Bool
  | [] => true
  | (k, b) :: rest => decide (b ≠ 0) && rest.all (fun cell => decide (k < cell.1)) && Memory.wf rest

/-- Every listed byte lies in `MB[0..n-1]` (10_state.md R16). -/
def Memory.within (n : Nat) (m : Memory) : Bool := m.all fun cell => decide (cell.1 < n)

/-- A content MB can hold after a reset of a machine with parameters `p` (70_reset_and_hazards.md R190). -/
def Input.wf (p : Config.Params) : Input → Bool
  | .reset init => Memory.wf init && Memory.within p.mbBytes init
  | .bus _ | .run | .release => true

/-- `accept` (30_encoding.md R69): `CMD <- v ; BUSY <- 1 ; DONE <- 0 ; ERR <- 0`. -/
def accept (v : Byte) (s : State) : State :=
  { s with cmd := v, seq := { s.seq with pending := true }, done := false, err := 0 }

/-- `complete` (30_encoding.md R69): `BUSY <- 0 ; DONE <- 1`. -/
def completeCommand (s : State) : State :=
  { s with seq := { s.seq with pending := false }, done := true }

/-- The failure path, the hardware's form of taking an exception (60_exceptions.md R176, R178): `ERR <- m`, then
`complete`, and nothing else. Nothing is saved and control goes nowhere. -/
def failCommand (m : BitVec 5) (s : State) : State :=
  completeCommand { s with err := m }

/-- `check`, `execute`, `complete` of a command (30_encoding.md R69): `v` is its byte, `work` its execute step. -/
def runCommand (v : Byte) (work : State → State) (s : State) :
    Host.Outcome State Fault Refusal :=
  .next (if errmask v s = 0 then completeCommand (work s) else failCommand (errmask v s) s)

/-- What stands for a return from an exception (60_exceptions.md R179, 10_state.md R21): the host clears DONE by writing
`v` with bit 1 set to STATUS; ERR stays until the next `accept`. -/
def writeStatus (v : Byte) (s : State) : State :=
  if v.getLsbD 1 then { s with done := false } else s

/-- `rst` is asserted (70_reset_and_hazards.md R190, R191): every state element takes its reset value, MB holds `init`,
a command in flight is abandoned and a held transaction dropped (log entry 8). -/
def assertReset (init : Memory) (s : State) : State :=
  { State.resetWith s.cfg init with
    port := { rst := true, held := none, inputs := s.port.inputs, trace := s.port.trace } }

end Sys2Proof.Machine
end

