-- ==== Sys2Proof/Machine/Operands.lean ====
section
/-! DEFINITION. How data is reached: blocks by column and row, views over MB, IV and CLONE (43_blockview.md R110 to R113), and the halves of the 16-bit registers (20_memory.md R52). -/

namespace Sys2Proof.Machine

/-- Byte `k` of a block. -/
def byteAt (b : Block) (k : Nat) : Byte := b[k]?.getD 0

/-- A block whose byte at column `c`, row `r` is `f c r`: byte `k` is column `k div 4`, row `k mod 4` (43_blockview.md R111). -/
def blockOf (f : Fin 4 → Fin 4 → Byte) : Block :=
  Vector.ofFn fun k => f ⟨k.val / 4, by omega⟩ ⟨k.val % 4, by omega⟩

/-- The byte of a block at column `c`, row `r` (43_blockview.md R111). -/
def colRow (b : Block) (c r : Fin 4) : Byte := b[4 * c.val + r.val]

/-- The spaces views are formed over (43_blockview.md R110). -/
inductive Space where
  | mb
  | iv
  | clone
deriving DecidableEq, Repr

/-- A view: 16 bytes of a space from a base (43_blockview.md R110). -/
structure View where
  space : Space
  base : Nat
deriving DecidableEq, Repr

/-- `MemRead(S, a, 1)` (00_scope.md section 4). -/
def spaceRead (S : Space) (a : Nat) (s : State) : Byte :=
  match S with
  | .mb => Memory.read s.mb a
  | .iv => byteAt s.iv a
  | .clone => byteAt s.clone a

/-- `MemWrite(S, a, 1, v)` (00_scope.md section 4). -/
def spaceWrite (S : Space) (a : Nat) (v : Byte) (s : State) : State :=
  match S with
  | .mb => { s with mb := Memory.write s.mb a v }
  | .iv => { s with iv := s.iv.setIfInBounds a v }
  | .clone => { s with clone := s.clone.setIfInBounds a v }

/-- `index(V, c, r) = base + c*4 + r` (43_blockview.md R111). -/
def index (V : View) (c r : Fin 4) : Nat := V.base + c.val * 4 + r.val

/-- `V(c, r)` (43_blockview.md R111). -/
def viewRead (V : View) (c r : Fin 4) (s : State) : Byte := spaceRead V.space (index V c r) s

/-- `V(c, r) <- x` (43_blockview.md R111). -/
def viewWrite (V : View) (c r : Fin 4) (x : Byte) (s : State) : State :=
  spaceWrite V.space (index V c r) x s

/-- `MemRead(S, base, 16)` of a view: its 16 bytes (00_scope.md section 4). -/
def readBlock (V : View) (s : State) : Block :=
  Vector.ofFn fun k : Fin 16 => spaceRead V.space (V.base + k.val) s

/-- `MemWrite(S, base, 16, b)` of a view: sixteen byte writes in ascending order (00_scope.md section 4, 20_memory.md R45). -/
def writeBlock (V : View) (b : Block) (s : State) : State :=
  (List.range 16).foldl (fun t k => spaceWrite V.space (V.base + k) (byteAt b k) t) s

/-- The view of block `i` of MB (43_blockview.md R118). -/
def blockView (i : Nat) : View := { space := .mb, base := 16 * i }

/-- The view `(IV, 0)` (43_blockview.md R118). -/
def ivView : View := { space := .iv, base := 0 }

/-- The view `(CLONE, 0)` (43_blockview.md R118). -/
def cloneView : View := { space := .clone, base := 0 }

/-- The view `(MB, 16*BLK)` (43_blockview.md R118). -/
def blkView (s : State) : View := blockView s.blk.toNat

/-- ROW of BVSEL, bits 1:0 (10_state.md R25). -/
def bvRow (s : State) : Fin 4 := ⟨s.bvsel.toNat % 4, by omega⟩

/-- COL of BVSEL, bits 3:2 (10_state.md R25). -/
def bvCol (s : State) : Fin 4 := ⟨s.bvsel.toNat / 4 % 4, by omega⟩

/-- SPACE of BVSEL, bits 5:4 (10_state.md R25). -/
def bvSpace (s : State) : Nat := s.bvsel.toNat / 16

/-- `view(s)` of the BV port (43_blockview.md R116). -/
def bvView (s : State) : Option View :=
  match bvSpace s with
  | 0 => if blockOutside s then none else some (blkView s)
  | 1 => some cloneView
  | 2 => some ivView
  | _ => none

/-- Bits 7:0 of a 16-bit register (20_memory.md R41). -/
def lowByte (w : Half) : Byte := w.extractLsb' 0 8

/-- Bits 15:8 of a 16-bit register (20_memory.md R41). -/
def highByte (w : Half) : Byte := w.extractLsb' 8 8

/-- `{w[15:8], v}` (20_memory.md R52). -/
def withLowByte (w : Half) (v : Byte) : Half := highByte w ++ v

/-- `{v, w[7:0]}` (20_memory.md R52). -/
def withHighByte (w : Half) (v : Byte) : Half := v ++ lowByte w

end Sys2Proof.Machine
end

