-- ==== Sys2Proof/Machine/BlockView.lean ====
section
/-! DEFINITION. Block operations between views, and the command CLONE (43_blockview.md R114 to R117; 45_modes.md R141, R142). -/

namespace Sys2Proof.Machine

/-- Position-wise XOR of two blocks (45_modes.md R141). -/
def xorBlock (x y : Block) : Block := Vector.ofFn fun k : Fin 16 => x[k.val] ^^^ y[k.val]

/-- `BlockXor(dst, src)` (45_modes.md R141). -/
def blockXor (dst src : View) (s : State) : State :=
  writeBlock dst (xorBlock (readBlock dst s) (readBlock src s)) s

/-- `BlockCopy(dst, src)` (45_modes.md R142). -/
def blockCopy (dst src : View) (s : State) : State := writeBlock dst (readBlock src s) s

/-- `clone(V)`: CLONE takes the 16 bytes of `V` (43_blockview.md R114). -/
def cloneFrom (V : View) (s : State) : State := blockCopy cloneView V s

/-- CLONE: clone block BLK of the message buffer (43_blockview.md R117). -/
def execClone (s : State) : Host.Outcome State Fault Refusal :=
  runCommand (encode .clone) (fun t => cloneFrom (blkView t) t) s

end Sys2Proof.Machine
end

