-- ==== Sys2Proof/Machine/Galois.lean ====
section
/-! DEFINITION. The GaloisField unit: xtime, gmul, and the commands XTIME and GFMUL (40_galois_field.md). -/

namespace Sys2Proof.Machine

/-- `xtime(a)`: shift left by one, and XOR 0x1B if bit 7 of `a` was set (40_galois_field.md R80). -/
def xtime (a : Byte) : Byte := if a.getLsbD 7 then (a <<< 1) ^^^ 0x1B else a <<< 1

/-- The loop of `gmul` with accumulator `acc`; the first argument bounds its iterations (40_galois_field.md R81). -/
def gmulLoop : Nat → Byte → Byte → Byte → Byte
  | 0, acc, _, _ => acc
  | n + 1, acc, a, b =>
    if a ≠ 0 ∧ b ≠ 0 then
      gmulLoop n (if b.getLsbD 0 then acc ^^^ a else acc) (xtime a) (b >>> 1)
    else acc

/-- `gmul(a, b)`; the loop runs at most 8 times (40_galois_field.md R81). -/
def gmul (a b : Byte) : Byte := gmulLoop 8 0 a b

/-- `RESULT <- x` (10_state.md R28). -/
def setResult (x : Byte) (s : State) : State := { s with result := x }

/-- XTIME: `RESULT <- xtime(OPA)` (40_galois_field.md R83). -/
def execXtime (s : State) : Host.Outcome State Fault Refusal :=
  runCommand (encode .xtime) (fun t => setResult (xtime t.opa) t) s

/-- GFMUL: `RESULT <- gmul(OPA, OPB)` (40_galois_field.md R84). -/
def execGfmul (s : State) : Host.Outcome State Fault Refusal :=
  runCommand (encode .gfmul) (fun t => setResult (gmul t.opa t.opb) t) s

end Sys2Proof.Machine
end

