-- ==== Sys2Proof/Machine/KeySchedule.lean ====
section
/-! DEFINITION. The KeySchedule unit: the expansion of KEY into RK, and the command KEXP (42_key_schedule.md). -/

namespace Sys2Proof.Machine

/-- Byte-by-byte XOR of two words (42_key_schedule.md, head of the file). -/
def xorWord (x y : KeyWord) : KeyWord := Vector.ofFn fun k : Fin 4 => x[k.val] ^^^ y[k.val]

/-- `RotateWord([b0, b1, b2, b3]) = [b1, b2, b3, b0]` (42_key_schedule.md R100). -/
def rotateWord (w : KeyWord) : KeyWord := #v[w[1], w[2], w[3], w[0]]

/-- `SubstituteWord`: SBOX of each of the four bytes (42_key_schedule.md R101). -/
def substituteWord (w : KeyWord) : KeyWord := #v[sbox w[0], sbox w[1], sbox w[2], sbox w[3]]

/-- `rc(i)`: 0x01 doubled `i - 1` times (42_key_schedule.md R102). Nothing asks for `rc(0)` (log entry 12). -/
def roundConstantByte : Nat → Byte
  | 0 => 0x01
  | 1 => 0x01
  | i + 2 => xtime (roundConstantByte (i + 1))

/-- `RoundConstant(i) = [rc(i), 0x00, 0x00, 0x00]` (42_key_schedule.md R102). -/
def roundConstant (i : Nat) : KeyWord := #v[roundConstantByte i, 0x00, 0x00, 0x00]

/-- Word `t` of the key, bytes `4t..4t+3` (42_key_schedule.md R103). -/
def wordOfKey (key : Block) (t : Nat) : KeyWord := Vector.ofFn fun k : Fin 4 => byteAt key (4 * t + k.val)

/-- `W[t]` among the words `ws` made before it. -/
def wordIn (ws : List KeyWord) (t : Nat) : KeyWord := ws.getD t (Vector.replicate 4 0)

/-- `W[t]` from the words `ws = W[0], …, W[t-1]` (42_key_schedule.md R103, the three branches). -/
def nextWord (key : Block) (ws : List KeyWord) (t : Nat) : KeyWord :=
  if t < 4 then wordOfKey key t
  else if t % 4 = 0 then
    xorWord (xorWord (wordIn ws (t - 4)) (roundConstant (t / 4)))
      (substituteWord (rotateWord (wordIn ws (t - 1))))
  else xorWord (wordIn ws (t - 4)) (wordIn ws (t - 1))

/-- The first `n` words of the expansion, in the order they are made (42_key_schedule.md R103). -/
def scheduleWords (key : Block) : Nat → List KeyWord
  | 0 => []
  | n + 1 => scheduleWords key n ++ [nextWord key (scheduleWords key n) n]

/-- `W[t]`, for `t` in 0..43. -/
def scheduleWord (key : Block) (t : Nat) : KeyWord :=
  wordIn (scheduleWords key (4 * Config.roundCount)) t

/-- `expand(key)`: the 44 words one after another, `RK[4t + k] = W[t][k]` (42_key_schedule.md R103, R104). -/
def expand (key : Block) : RoundKeys :=
  Vector.ofFn fun j : Fin 176 => (scheduleWord key (j.val / 4))[j.val % 4]

/-- `RK <- expand(KEY[0..15])` (42_key_schedule.md R107). -/
def expandKey (s : State) : State := { s with rk := expand s.key }

/-- KEXP: expand the key and stop (42_key_schedule.md R106). -/
def execKexp (s : State) : Host.Outcome State Fault Refusal :=
  runCommand (encode .kexp) expandKey s

end Sys2Proof.Machine
end

