-- ==== Sys2Proof/Machine/RoundTransform.lean ====
section
/-! DEFINITION. The RoundTransform engine: the step functions, encryptBlock, decryptBlock, and the commands ENCB and DECB (44_round_transform.md). Steps are functions on a block's value (R132; log entry 11). -/

namespace Sys2Proof.Machine

/-- Byte `b` of round key `i`: `RK[16*i + b]` (10_state.md R17). -/
def roundKeyByte (rk : RoundKeys) (i b : Nat) : Byte := rk[16 * i + b]?.getD 0

/-- `AddRoundKey(V, i)` (44_round_transform.md R120). -/
def addRoundKey (rk : RoundKeys) (i : Nat) (b : Block) : Block :=
  blockOf fun c r => colRow b c r ^^^ roundKeyByte rk i (4 * c.val + r.val)

/-- `SubBytes(V)` (44_round_transform.md R121). -/
def subBytes (b : Block) : Block := blockOf fun c r => sbox (colRow b c r)

/-- `InvSubBytes(V)` (44_round_transform.md R122). -/
def invSubBytes (b : Block) : Block := blockOf fun c r => invSbox (colRow b c r)

/-- `ShiftRowsLeft(V)`: `V(c, r) <- old V((c + r) mod 4, r)` (44_round_transform.md R123). -/
def shiftRowsLeft (b : Block) : Block := blockOf fun c r => colRow b (c + r) r

/-- `ShiftRowsRight(V)`: `V(c, r) <- old V((c - r) mod 4, r)` (44_round_transform.md R124). -/
def shiftRowsRight (b : Block) : Block := blockOf fun c r => colRow b (c - r) r

/-- The XOR over `j` of `gmul(m_j, c_j)`, one row of a matrix times column `c` of a block (44_round_transform.md R125, R126). -/
def rowTimesColumn (m0 m1 m2 m3 : Byte) (b : Block) (c : Fin 4) : Byte :=
  gmul m0 (colRow b c 0) ^^^ gmul m1 (colRow b c 1) ^^^
    gmul m2 (colRow b c 2) ^^^ gmul m3 (colRow b c 3)

/-- `MixColumns(V)`, matrix rows `[2,3,1,1]`, `[1,2,3,1]`, `[1,1,2,3]`, `[3,1,1,2]` (44_round_transform.md R125). -/
def mixColumns (b : Block) : Block := blockOf fun c r =>
  match r with
  | 0 => rowTimesColumn 2 3 1 1 b c
  | 1 => rowTimesColumn 1 2 3 1 b c
  | 2 => rowTimesColumn 1 1 2 3 b c
  | 3 => rowTimesColumn 3 1 1 2 b c

/-- `UnmixColumns(V)`, matrix rows `[14,11,13,9]`, `[9,14,11,13]`, `[13,9,14,11]`, `[11,13,9,14]` (44_round_transform.md R126). -/
def unmixColumns (b : Block) : Block := blockOf fun c r =>
  match r with
  | 0 => rowTimesColumn 14 11 13 9 b c
  | 1 => rowTimesColumn 9 14 11 13 b c
  | 2 => rowTimesColumn 13 9 14 11 b c
  | 3 => rowTimesColumn 11 13 9 14 b c

/-- An intermediate round `i` of encryptBlock (44_round_transform.md R127). -/
def encryptRound (rk : RoundKeys) (b : Block) (i : Nat) : Block :=
  addRoundKey rk i (mixColumns (shiftRowsLeft (subBytes b)))

/-- An intermediate round `i` of decryptBlock (44_round_transform.md R128). -/
def decryptRound (rk : RoundKeys) (b : Block) (i : Nat) : Block :=
  invSubBytes (shiftRowsRight (unmixColumns (addRoundKey rk i b)))

/-- `encryptBlock(V)` on the block's value: key 0, rounds 1..9, the final round with key 10 (44_round_transform.md R127). -/
def encryptBlock (rk : RoundKeys) (b : Block) : Block :=
  addRoundKey rk 10 (shiftRowsLeft (subBytes
    ([1, 2, 3, 4, 5, 6, 7, 8, 9].foldl (encryptRound rk) (addRoundKey rk 0 b))))

/-- `decryptBlock(V)` on the block's value: key 10, rounds 9 down to 1, key 0 (44_round_transform.md R128). -/
def decryptBlock (rk : RoundKeys) (b : Block) : Block :=
  addRoundKey rk 0
    ([9, 8, 7, 6, 5, 4, 3, 2, 1].foldl (decryptRound rk)
      (invSubBytes (shiftRowsRight (addRoundKey rk 10 b))))

/-- `encryptBlock(V)` in place in the space `V` lies in (44_round_transform.md R127, 43_blockview.md R112). -/
def encryptView (V : View) (s : State) : State :=
  writeBlock V (encryptBlock s.rk (readBlock V s)) s

/-- `decryptBlock(V)` in place in the space `V` lies in (44_round_transform.md R128, 43_blockview.md R112). -/
def decryptView (V : View) (s : State) : State :=
  writeBlock V (decryptBlock s.rk (readBlock V s)) s

/-- ENCB: expand the key, then encryptBlock on block BLK of MB (44_round_transform.md R130). -/
def execEncb (s : State) : Host.Outcome State Fault Refusal :=
  runCommand (encode .encb) (fun t => encryptView (blkView t) (expandKey t)) s

/-- DECB: expand the key, then decryptBlock on block BLK of MB (44_round_transform.md R131). -/
def execDecb (s : State) : Host.Outcome State Fault Refusal :=
  runCommand (encode .decb) (fun t => decryptView (blkView t) (expandKey t)) s

end Sys2Proof.Machine
end

