-- ==== Sys2Proof/Machine/Modes.lean ====
section
/-! DEFINITION. The ModeOfOperation sequencer: frame, block orders, block loops, and the eight cipher commands (45_modes.md). -/

namespace Sys2Proof.Machine

/-- `N = (MSGLEN + 15) div 16`, the number of blocks (45_modes.md R140 step 1). -/
def blockCount (s : State) : Nat := (s.msglen.toNat + 15) / 16

/-- Zero padding and the new length: `MB[a] <- 0x00` for `a` in `MSGLEN..16N-1`, then `MSGLEN <- 16N`
(45_modes.md R140 steps 2 and 3). -/
def padMessage (s : State) : State :=
  { s with
    mb := (List.range' s.msglen.toNat (16 * blockCount s - s.msglen.toNat)).foldl
      (fun m a => Memory.write m a 0x00) s.mb
    msglen := BitVec.ofNat 16 (16 * blockCount s) }

/-- Ascending block order 0, 1, …, N-1 (45_modes.md R151). -/
def ascending (n : Nat) : List Nat := List.range n

/-- Descending block order N-1, …, 1, then 0 (45_modes.md R151, R146). -/
def descending (n : Nat) : List Nat := (List.range n).reverse

/-- The sequencer goes to block `i` and the loop's body runs there (10_state.md R29). -/
def atBlock (body : Nat → State → State) (s : State) (i : Nat) : State :=
  body i { s with seq := { s.seq with bi := some i } }

/-- The block loop: the body at each block of `order`, in that order; `bi` does not exist afterwards (10_state.md R29). -/
def blockLoop (order : List Nat) (body : Nat → State → State) (s : State) : State :=
  let t := order.foldl (atBlock body) s
  { t with seq := { t.seq with bi := none } }

/-- The frame of a cipher command in mode ECB, steps 1 to 5 (45_modes.md R140). -/
def ecbFrame (order : Nat → List Nat) (body : Nat → State → State) (s : State) : State :=
  blockLoop (order (blockCount s)) body (expandKey (padMessage s))

/-- The frame of a chaining command: step 6 clears IVLEN, the IV is consumed (45_modes.md R140). -/
def chainFrame (order : Nat → List Nat) (body : Nat → State → State) (s : State) : State :=
  { ecbFrame order body s with ivlen := 0 }

/-- What block `i` is XORed with in CBC: the IV for block 0, else block `i-1` of MB (45_modes.md R145, R146). -/
def cbcSource (i : Nat) : View := if i = 0 then ivView else blockView (i - 1)

/-- ENC.ECB at block `i` (45_modes.md R143). -/
def encEcbBlock (i : Nat) (s : State) : State := encryptView (blockView i) s

/-- DEC.ECB at block `i` (45_modes.md R144). -/
def decEcbBlock (i : Nat) (s : State) : State := decryptView (blockView i) s

/-- ENC.CBC at block `i` (45_modes.md R145). -/
def encCbcBlock (i : Nat) (s : State) : State :=
  encryptView (blockView i) (blockXor (blockView i) (cbcSource i) s)

/-- DEC.CBC at block `i` (45_modes.md R146). -/
def decCbcBlock (i : Nat) (s : State) : State :=
  blockXor (blockView i) (cbcSource i) (decryptView (blockView i) s)

/-- OFB at block `i`, either direction (45_modes.md R147, R148). -/
def ofbBlock (i : Nat) (s : State) : State :=
  blockXor (blockView i) ivView (encryptView ivView s)

/-- ENC.CFB at block `i` (45_modes.md R149). -/
def encCfbBlock (i : Nat) (s : State) : State :=
  blockCopy ivView (blockView i) (blockXor (blockView i) ivView (encryptView ivView s))

/-- DEC.CFB at block `i` (45_modes.md R150). -/
def decCfbBlock (i : Nat) (s : State) : State :=
  blockCopy ivView cloneView
    (blockXor (blockView i) ivView (encryptView ivView (cloneFrom (blockView i) s)))

/-- ENC.ECB (45_modes.md R143). -/
def execEncEcb (s : State) : Host.Outcome State Fault Refusal :=
  runCommand (encode .encEcb) (ecbFrame ascending encEcbBlock) s

/-- DEC.ECB (45_modes.md R144). -/
def execDecEcb (s : State) : Host.Outcome State Fault Refusal :=
  runCommand (encode .decEcb) (ecbFrame ascending decEcbBlock) s

/-- ENC.CBC (45_modes.md R145). -/
def execEncCbc (s : State) : Host.Outcome State Fault Refusal :=
  runCommand (encode .encCbc) (chainFrame ascending encCbcBlock) s

/-- DEC.CBC: blocks N-1 down to 1, then 0 (45_modes.md R146, 70_reset_and_hazards.md R193). -/
def execDecCbc (s : State) : Host.Outcome State Fault Refusal :=
  runCommand (encode .decCbc) (chainFrame descending decCbcBlock) s

/-- ENC.OFB (45_modes.md R147). -/
def execEncOfb (s : State) : Host.Outcome State Fault Refusal :=
  runCommand (encode .encOfb) (chainFrame ascending ofbBlock) s

/-- DEC.OFB: identical to ENC.OFB but for the command byte (45_modes.md R148). -/
def execDecOfb (s : State) : Host.Outcome State Fault Refusal :=
  runCommand (encode .decOfb) (chainFrame ascending ofbBlock) s

/-- ENC.CFB (45_modes.md R149). -/
def execEncCfb (s : State) : Host.Outcome State Fault Refusal :=
  runCommand (encode .encCfb) (chainFrame ascending encCfbBlock) s

/-- DEC.CFB (45_modes.md R150, 70_reset_and_hazards.md R194). -/
def execDecCfb (s : State) : Host.Outcome State Fault Refusal :=
  runCommand (encode .decCfb) (chainFrame ascending decCfbBlock) s

end Sys2Proof.Machine
end

