-- ==== Sys2Proof/Machine/Bus.lean ====
section
/-! DEFINITION. The bus: the address map, one read, one write, and the BV port (20_memory.md R40 to R52, 43_blockview.md R116). -/

namespace Sys2Proof.Machine

/-- What stands at a bus address: the rows of the map of 20_memory.md R41. -/
inductive Location where
  | cmd | status | err | ctrl | klen | ivlen | msglenL | msglenH | blkL | blkH | bvsel | bvdata
  | opa | opb | result
  | key (k : Nat)
  | iv (k : Nat)
  | rk (j : Nat)
  | mb (a : Nat)
  | reserved
deriving DecidableEq, Repr

/-- The control registers, 0x0000 to 0x001F (20_memory.md R41). -/
def registerAt : Nat → Location
  | 0x00 => .cmd
  | 0x01 => .status
  | 0x02 => .err
  | 0x03 => .ctrl
  | 0x04 => .klen
  | 0x05 => .ivlen
  | 0x06 => .msglenL
  | 0x07 => .msglenH
  | 0x08 => .blkL
  | 0x09 => .blkH
  | 0x0A => .bvsel
  | 0x0B => .bvdata
  | 0x0C => .opa
  | 0x0D => .opb
  | 0x0E => .result
  | _ => .reserved

/-- The bus address map of a machine with parameters `p` (20_memory.md R41, R42). -/
def locate (p : Config.Params) (addr : Half) : Location :=
  if addr.toNat < 0x0020 then registerAt addr.toNat
  else if addr.toNat < 0x0030 then .key (addr.toNat - 0x0020)
  else if addr.toNat < 0x0040 then .iv (addr.toNat - 0x0030)
  else if addr.toNat < 0x0100 then .reserved
  else if addr.toNat < 0x01B0 then .rk (addr.toNat - 0x0100)
  else if addr.toNat < 0x1000 then .reserved
  else if addr.toNat < 0x1000 + p.mbBytes then .mb (addr.toNat - 0x1000)
  else .reserved

/-- `Read(0x000B)` (43_blockview.md R116). -/
def bvRead (s : State) : Byte :=
  match bvView s with
  | none => 0x00
  | some V => viewRead V (bvCol s) (bvRow s) s

/-- `Write(0x000B, x)` (43_blockview.md R116). -/
def bvWrite (x : Byte) (s : State) : State :=
  match bvView s with
  | none => s
  | some V => viewWrite V (bvCol s) (bvRow s) x s

/-- The byte a read of a location returns (20_memory.md R41, R42). -/
def readLocation (s : State) : Location → Byte
  | .cmd => s.cmd
  | .status => statusByte s
  | .err => errByte s
  | .ctrl => ctrlByte s
  | .klen => s.klen
  | .ivlen => s.ivlen
  | .msglenL => lowByte s.msglen
  | .msglenH => highByte s.msglen
  | .blkL => lowByte s.blk
  | .blkH => highByte s.blk
  | .bvsel => bvselByte s
  | .bvdata => bvRead s
  | .opa => s.opa
  | .opb => s.opb
  | .result => s.result
  | .key k => byteAt s.key k
  | .iv k => byteAt s.iv k
  | .rk j => s.rk[j]?.getD 0
  | .mb a => Memory.read s.mb a
  | .reserved => 0x00

/-- What a write to a location does (20_memory.md R41, R42, R45, R52). -/
def writeLocation (v : Byte) (s : State) : Location → State
  | .cmd => accept v s
  | .status => writeStatus v s
  | .err => s
  | .ctrl => { s with ie := v.getLsbD 0 }
  | .klen => { s with klen := v }
  | .ivlen => { s with ivlen := v }
  | .msglenL => { s with msglen := withLowByte s.msglen v }
  | .msglenH => { s with msglen := withHighByte s.msglen v }
  | .blkL => { s with blk := withLowByte s.blk v }
  | .blkH => { s with blk := withHighByte s.blk v }
  | .bvsel => { s with bvsel := v.extractLsb' 0 6 }
  | .bvdata => bvWrite v s
  | .opa => { s with opa := v }
  | .opb => { s with opb := v }
  | .result => s
  | .key k => { s with key := s.key.setIfInBounds k v }
  | .iv k => { s with iv := s.iv.setIfInBounds k v }
  | .rk _ => s
  | .mb a => { s with mb := Memory.write s.mb a v }
  | .reserved => s

/-- `Read(a)` (20_memory.md R40, R41). -/
def busRead (addr : Half) (s : State) : Byte := readLocation s (locate s.cfg addr)

/-- `Write(a, v)` (20_memory.md R40, R41). -/
def busWrite (addr : Half) (v : Byte) (s : State) : State := writeLocation v s (locate s.cfg addr)

/-- The address of STATUS, the only one served while BUSY = 1 (20_memory.md R46). -/
def statusAddr : Half := 0x0001

/-- The bus address of a transaction. -/
def Transaction.addr : Transaction → Half
  | .read a => a
  | .write a _ => a

/-- A transaction completes (20_memory.md R40): its effect, and its entry in the trace (log entry 14). -/
def perform (t : Transaction) (s : State) : State :=
  match t with
  | .read a => { s with port := { s.port with trace := .read a (busRead a s) :: s.port.trace } }
  | .write a v =>
    { busWrite a v s with port := { s.port with trace := .write a v :: s.port.trace } }

/-- A transaction is presented (20_memory.md R46): while BUSY = 1 every address but STATUS is held. -/
def present (t : Transaction) (s : State) : State :=
  if busy s && t.addr != statusAddr then { s with port := { s.port with held := some t } }
  else perform t s

end Sys2Proof.Machine
end

