-- ==== Sys2Proof/Machine/Dispatch.lean ====
section
/-! DEFINITION. exec: one arm per command. -/

namespace Sys2Proof.Machine

def exec (i : Instr) (s : State) : Host.Outcome State Fault Refusal :=
  match i with
  | .encEcb => Sys2Proof.Machine.execEncEcb s
  | .encCbc => Sys2Proof.Machine.execEncCbc s
  | .encOfb => Sys2Proof.Machine.execEncOfb s
  | .encCfb => Sys2Proof.Machine.execEncCfb s
  | .decEcb => Sys2Proof.Machine.execDecEcb s
  | .decCbc => Sys2Proof.Machine.execDecCbc s
  | .decOfb => Sys2Proof.Machine.execDecOfb s
  | .decCfb => Sys2Proof.Machine.execDecCfb s
  | .kexp => Sys2Proof.Machine.execKexp s
  | .encb => Sys2Proof.Machine.execEncb s
  | .decb => Sys2Proof.Machine.execDecb s
  | .gfmul => Sys2Proof.Machine.execGfmul s
  | .xtime => Sys2Proof.Machine.execXtime s
  | .sbox => Sys2Proof.Machine.execSbox s
  | .isbox => Sys2Proof.Machine.execIsbox s
  | .clone => Sys2Proof.Machine.execClone s

end Sys2Proof.Machine
end

