-- ==== Sys2Proof/Machine/Sequencer.lean ====
section
/-! DEFINITION. What comes next: the next thing the outside world does, or the command in flight (log entries 3 to 8). -/

namespace Sys2Proof.Machine

/-- The inputs left after the next one. -/
def withInputs (rest : List Input) (s : State) : State := { s with port := { s.port with inputs := rest } }

/-- The command in flight: check, execute, complete of the byte in CMD (30_encoding.md R69). A byte that is no command
takes the failure path with its mask (30_encoding.md R64, 60_exceptions.md R176). -/
def runPending (s : State) : Host.Outcome State Fault Refusal :=
  match decode s.cmd with
  | .ok i => exec i s
  | .error _ => .next (failCommand (errmask s.cmd s) s)

/-- While `rst` is asserted nothing is performed (70_reset_and_hazards.md R190). -/
def stepInReset (s : State) : Host.Outcome State Fault Refusal :=
  match s.port.inputs with
  | [] => .next s
  | .release :: rest => .next { s with port := { s.port with rst := false, inputs := rest } }
  | .reset init :: rest => .next (assertReset init (withInputs rest s))
  | .bus _ :: rest => .next (withInputs rest s)
  | .run :: rest => .next (withInputs rest s)

/-- BUSY = 1: STATUS is served and another transaction becomes held; otherwise the command runs. With a transaction held,
or nothing else to happen, its completion is what comes next (20_memory.md R46, 70_reset_and_hazards.md R204). -/
def stepBusy (s : State) : Host.Outcome State Fault Refusal :=
  match s.port.held, s.port.inputs with
  | _, .reset init :: rest => .next (assertReset init (withInputs rest s))
  | _, .run :: rest => runPending (withInputs rest s)
  | none, .bus t :: rest => .next (present t (withInputs rest s))
  | none, .release :: rest => .next (withInputs rest s)
  | _, _ => runPending s

/-- BUSY = 0: a held transaction is performed first (20_memory.md R46), then the host's next one; with nothing to do the
core waits (70_reset_and_hazards.md R190). -/
def stepIdle (s : State) : Host.Outcome State Fault Refusal :=
  match s.port.held, s.port.inputs with
  | _, .reset init :: rest => .next (assertReset init (withInputs rest s))
  | some t, _ => .next (perform t { s with port := { s.port with held := none } })
  | none, .bus t :: rest => .next (present t (withInputs rest s))
  | none, .run :: rest => .next (withInputs rest s)
  | none, .release :: rest => .next (withInputs rest s)
  | none, [] => .next s

/-- What the next step does: `rst` asserted, BUSY = 1, or BUSY = 0. -/
def nextStep (s : State) : Host.Outcome State Fault Refusal :=
  if s.port.rst then stepInReset s
  else if busy s then stepBusy s
  else stepIdle s

end Sys2Proof.Machine
end

