-- ==== Sys2Proof/Machine/Step.lean ====
section
/-! DEFINITION. One step, and how the host's table words are placed (log entry 13). -/

namespace Sys2Proof.Machine

/-- One step of the machine. -/
def step (s : State) : Host.Outcome State Fault Refusal := nextStep s

/-- `s` with the command of table word `w` accepted (its byte latched in CMD, BUSY = 1: 20_memory.md R49, 30_encoding.md
R69) and its LATENCY passed, so that the next step runs it (log entry 13). -/
def State.withFetchWord (s : State) (nbits w : Nat) : State :=
  accept (BitVec.ofNat 8 (w % 2 ^ nbits))
    { s with port := { s.port with rst := false, inputs := .run :: s.port.inputs } }

end Sys2Proof.Machine
end

