-- ==== Sys2Proof/Machine/Script.lean ====
section
/-! DEFINITION. The host script notation: one transaction a line, and the pseudo-instructions (30_encoding.md R67, R68). A script is a list of inputs. -/

namespace Sys2Proof.Machine

/-- `WR addr, byte` (30_encoding.md R67). -/
def scriptWrite (addr : Nat) (v : Byte) : Input := .bus (.write (BitVec.ofNat 16 addr) v)

/-- `RD addr` (30_encoding.md R67). -/
def scriptRead (addr : Nat) : Input := .bus (.read (BitVec.ofNat 16 addr))

/-- A mnemonic on a line of its own: the write of its byte to CMD (30_encoding.md R67). -/
def scriptCommand (i : Instr) : List Input := [scriptWrite 0x0000 (encode i)]

/-- `WR base+k, b` for each byte of a list, `k` counted from `k0`. -/
def scriptBytes (base : Nat) : Nat → List Byte → List Input
  | _, [] => []
  | k, b :: rest => scriptWrite (base + k) b :: scriptBytes base (k + 1) rest

/-- `LOADKEY b0 ... b15` (30_encoding.md R68). -/
def loadKey (b : Block) : List Input := scriptBytes 0x0020 0 b.toList ++ [scriptWrite 0x0004 0x10]

/-- `LOADIV b0 ... b15` (30_encoding.md R68). -/
def loadIv (b : Block) : List Input := scriptBytes 0x0030 0 b.toList ++ [scriptWrite 0x0005 0x10]

/-- `NOIV` (30_encoding.md R68). -/
def noIv : List Input := [scriptWrite 0x0005 0x00]

/-- `LOADMSG b0 ... b(L-1)` (30_encoding.md R68). -/
def loadMsg (m : List Byte) : List Input :=
  scriptBytes 0x1000 0 m ++
    [scriptWrite 0x0006 (BitVec.ofNat 8 (m.length % 256)),
     scriptWrite 0x0007 (BitVec.ofNat 8 (m.length / 256))]

/-- `SETBLK n` (30_encoding.md R68). -/
def setBlk (n : Nat) : List Input :=
  [scriptWrite 0x0008 (BitVec.ofNat 8 (n % 256)), scriptWrite 0x0009 (BitVec.ofNat 8 (n / 256))]

/-- `WAIT` (30_encoding.md R68) by a host that reads STATUS `polls` times before the command's LATENCY has passed, and
once after (log entries 3, 24). -/
def wait (polls : Nat) : List Input :=
  List.replicate polls (scriptRead 0x0001) ++ [.run, scriptRead 0x0001]

/-- `PEEK s, n, c, r` (30_encoding.md R68). -/
def peek (space n c r : Nat) : List Input :=
  setBlk n ++ [scriptWrite 0x000A (BitVec.ofNat 8 (16 * space + 4 * c + r)), scriptRead 0x000B]

/-- `POKE s, n, c, r, v` (30_encoding.md R68). -/
def poke (space n c r : Nat) (v : Byte) : List Input :=
  setBlk n ++ [scriptWrite 0x000A (BitVec.ofNat 8 (16 * space + 4 * c + r)), scriptWrite 0x000B v]

end Sys2Proof.Machine
end

