-- ==== Sys2Proof/Safety.lean ====
section
/-! DEFINITION. The invariant of the machine, and the conditions under which a command runs, in the terms the statements use. -/

namespace Sys2Proof.Machine

/-- What every step keeps (10_state.md R31, with the model's own fields): see the fields. -/
structure Inv (s : State) : Prop where
  /-- MB_BYTES is legal (00_scope.md R6). -/
  cfgLegal : s.cfg.legal = true
  /-- MB is in canonical form. -/
  mbWf : Memory.wf s.mb = true
  /-- MB has no byte outside `MB[0..MB_BYTES-1]` (10_state.md R16). -/
  mbWithin : Memory.within s.cfg.mbBytes s.mb = true
  /-- BUSY and DONE are never both 1 (10_state.md R21). -/
  notBusyAndDone : (busy s && s.done) = false
  /-- ERR is 0 while a command is in flight (30_encoding.md R69). -/
  errClearWhileBusy : busy s = true → s.err = 0
  /-- The block index does not exist between commands (10_state.md R29). -/
  noBlockIndex : s.seq.bi = none
  /-- Only a transaction to another address than STATUS is ever held (20_memory.md R46). -/
  heldNotStatus : ∀ t, s.port.held = some t → t.addr ≠ statusAddr
  /-- While `rst` is asserted every state element holds its reset value, whatever MB holds (70_reset_and_hazards.md R190). -/
  resetHolds : s.port.rst = true → s = { State.resetWith s.cfg s.mb with port := s.port }
  /-- `rst` asserted, nothing is held on the bus (70_reset_and_hazards.md R191). -/
  resetDropsHeld : s.port.rst = true → s.port.held = none
  /-- The contents the environment gives MB at a reset are contents of MB. -/
  inputsWf : s.port.inputs.all (Input.wf s.cfg) = true

/-- MB as the statements about stored bytes need it: MB_BYTES legal, MB in canonical form. Every reachable state meets
it (`Inv`). -/
structure MemoryOk (s : State) : Prop where
  cfgLegal : s.cfg.legal = true
  mbWf : Memory.wf s.mb = true

/-- Byte `a` of the message buffer. -/
def mbByte (s : State) (a : Nat) : Byte := Memory.read s.mb a

/-- Block `i` of the message buffer: its bytes are `mbByte s (16*i + k)`. -/
def mbBlock (s : State) (i : Nat) : Block := Vector.ofFn fun k : Fin 16 => mbByte s (16 * i + k.val)

/-- Block `i` of the message after padding: bytes at and beyond MSGLEN are 0x00 (45_modes.md R140). -/
def paddedBlock (s : State) (i : Nat) : Block :=
  Vector.ofFn fun k : Fin 16 => if 16 * i + k.val < s.msglen.toNat then mbByte s (16 * i + k.val) else 0

/-- `E(X)` under the key in KEY (00_scope.md section 5; 42_key_schedule.md R107). -/
def cipherE (s : State) (x : Block) : Block := encryptBlock (expand s.key) x

/-- `D(X)` under the key in KEY (00_scope.md section 5; 42_key_schedule.md R107). -/
def cipherD (s : State) (x : Block) : Block := decryptBlock (expand s.key) x

/-- `m` where `p` holds, else no bit. -/
def bitIf (p : Prop) [Decidable p] (m : BitVec 5) : BitVec 5 := if p then m else 0

/-- `s` after a command that failed with mask `m`: ERR, DONE and BUSY written, all else as in `s` (60_exceptions.md R176). -/
def failedWith (m : BitVec 5) (s : State) : State :=
  { s with err := m, done := true, seq := { s.seq with pending := false } }

/-- `s` after `complete`: DONE and BUSY written, all else as in `s` (30_encoding.md R69). -/
def completed (s : State) : State :=
  { s with done := true, seq := { s.seq with pending := false } }

/-- `t` is `s` after the frame of a successful cipher command (45_modes.md R140): MSGLEN rounded up, RK expanded, the
command completed, no byte of MB at or above `16*N` changed, and nothing else written but what the mode writes, which the
statement about the mode gives: MB below `16*N`, IV, IVLEN, CLONE. -/
def CipherDone (s t : State) : Prop :=
  t = { s with
        mb := t.mb, iv := t.iv, ivlen := t.ivlen, clone := t.clone
        msglen := t.msglen
        rk := expand s.key
        done := true
        seq := { pending := false, bi := none } } ∧
  t.msglen.toNat = 16 * blockCount s ∧
  ∀ a, 16 * blockCount s ≤ a → mbByte t a = mbByte s a

/-- No reset, no command in flight, nothing held on the bus. -/
def Idle (s : State) : Prop := s.port.rst = false ∧ busy s = false ∧ s.port.held = none

/-- A command is in flight and `rst` is not asserted. -/
def InFlight (s : State) : Prop := s.port.rst = false ∧ busy s = true

end Sys2Proof.Machine
end

