-- ==== Sys2Proof/Certificates/Slice0/Obligations.lean ====
section
/-! DEFINITION. The statements for the provers. Each docstring names the rule of spec/ it formalises; OBLIGATIONS.json lists them. -/

open Sys2Proof Sys2Proof.Machine

/-! ## Encoding -/

/-- 30_encoding.md R63: all 256 command bytes, by exact match. The 16 commands with their bytes; every byte that decodes
to a command is that command's byte; which bytes are ENC or DEC with an unsupported mode; all others are illegal; the
census 16, 24, 216. -/
def Obligations.CommandBytesDecodeExactly : Prop :=
  (decode 0x10 = .ok .encEcb ∧ decode 0x11 = .ok .encCbc ∧ decode 0x12 = .ok .encOfb ∧
   decode 0x13 = .ok .encCfb ∧ decode 0x20 = .ok .decEcb ∧ decode 0x21 = .ok .decCbc ∧
   decode 0x22 = .ok .decOfb ∧ decode 0x23 = .ok .decCfb ∧ decode 0x30 = .ok .kexp ∧
   decode 0x40 = .ok .encb ∧ decode 0x50 = .ok .decb ∧ decode 0x60 = .ok .gfmul ∧
   decode 0x70 = .ok .xtime ∧ decode 0x80 = .ok .sbox ∧ decode 0x90 = .ok .isbox ∧
   decode 0xA0 = .ok .clone) ∧
  (∀ v i, decode v = .ok i ↔ v = encode i) ∧
  (∀ v : Byte, decode v = .error .unsupportedMode ↔
    (0x14 ≤ v.toNat ∧ v.toNat ≤ 0x1F) ∨ (0x24 ≤ v.toNat ∧ v.toNat ≤ 0x2F)) ∧
  (∀ v : Byte, decode v = .error .illegalCommand ↔
    v.toNat ≤ 0x0F ∨ 0xB0 ≤ v.toNat ∨ (0x30 ≤ v.toNat ∧ v.toNat % 16 ≠ 0)) ∧
  ((List.range 256).countP fun n => (decode (BitVec.ofNat 8 n)).toOption.isSome) = 16 ∧
  ((List.range 256).countP fun n => decide ((decode (BitVec.ofNat 8 n)).toOption.isNone ∧
    (n / 16 = 1 ∨ n / 16 = 2))) = 24 ∧
  ((List.range 256).countP fun n => decide ((decode (BitVec.ofNat 8 n)).toOption.isNone ∧
    ¬(n / 16 = 1 ∨ n / 16 = 2))) = 216

/-- The table's word of every command, as the opcode table numbers its bits, decodes to that command, and a byte stream
gives the command and the rest (30_encoding.md R60: one length, one byte). -/
def Obligations.EveryCommandDecodesFromItsTableWord : Prop :=
  ∀ i : Instr, i.wellFormed = true ∧ decodeTableWord 8 (encode i).toNat = some i ∧
    ∀ rest, decodeBytes (encode i :: rest) = some (.ok i, rest)

/-! ## Steps

The list of inputs, its entries `run`, `reset` and `release`, and the field that holds a waiting transaction are the form
in which the model writes down what the host does and when (log entries 3, 6, 7, 8); what happens then is the spec's. -/

/-- A step runs the decoded instruction: with a command in flight, the step in which its LATENCY has passed (the input
`run`, or no input left, or a held transaction waiting for it) is exec of the command that CMD decodes to (20_memory.md
R46, R49, 30_encoding.md R69). -/
def Obligations.StepRunsTheCommandInFlight : Prop :=
  ∀ (s : State) (i : Instr), InFlight s → decode s.cmd = .ok i →
    (∀ rest, s.port.inputs = .run :: rest →
      step s = exec i { s with port := { s.port with inputs := rest } }) ∧
    (s.port.inputs = [] → step s = exec i s) ∧
    (∀ held t rest, s.port.held = some held → s.port.inputs = .bus t :: rest → step s = exec i s)

/-- The machine fetches what withFetchWord stores: the next step is exec of the command the decoder reads from the word, on
the state in which that command has just been accepted (log entry 13). -/
def Obligations.FetchWordStepIsExec : Prop :=
  ∀ (s : State) (nbits w : Nat) (i : Instr), decodeTableWord nbits w = some i →
    step (s.withFetchWord nbits w) =
      exec i { s with
        cmd := encode i, done := false, err := 0
        seq := { s.seq with pending := true }
        port := { s.port with rst := false } }

/-- 30_encoding.md R69, for every byte `v` written to CMD while BUSY = 0: accept at the bus write; then check, execute,
complete in one step; afterwards `irq = IE and DONE` follows from the new DONE. A write that was held is treated the same
once BUSY = 0. -/
def Obligations.CmdWriteAcceptsChecksExecutesCompletes : Prop :=
  (∀ (s : State) (v : Byte) (rest : List Input), Idle s →
    s.port.inputs = .bus (.write 0x0000 v) :: .run :: rest →
    ∃ a t : State,
      step s = .next a ∧
      a = { s with
        cmd := v, done := false, err := 0
        seq := { s.seq with pending := true }
        port := { s.port with inputs := .run :: rest, trace := .write 0x0000 v :: s.port.trace } } ∧
      step a = .next t ∧
      (errmask v s ≠ 0 →
        t = { a with
          err := errmask v s, done := true
          seq := { a.seq with pending := false }
          port := { a.port with inputs := rest } }) ∧
      (errmask v s = 0 → ∃ i, decode v = .ok i ∧
        exec i { a with port := { a.port with inputs := rest } } = .next t ∧ t.err = 0) ∧
      busy t = false ∧ t.done = true ∧ irq t = t.ie) ∧
  (∀ (s : State) (v : Byte), s.port.rst = false → busy s = false → s.port.held = some (.write 0x0000 v) →
    (∀ init rest, s.port.inputs ≠ .reset init :: rest) →
    step s = .next { s with
      cmd := v, done := false, err := 0
      seq := { s.seq with pending := true }
      port := { s.port with held := none, trace := .write 0x0000 v :: s.port.trace } })

/-- 30_encoding.md R64: an illegal byte in flight fails with IllegalCommand alone; ENC or DEC with an unsupported mode
fails with UnsupportedMode together with the key and the range check, the IV check not made; neither changes anything else;
no byte is a no-op: every byte is one of the 16 commands or fails; 0x00 is illegal. -/
def Obligations.RejectedBytesFailWithTheirMask : Prop :=
  (∀ (s : State) (rest : List Input), InFlight s → s.port.inputs = .run :: rest →
    decode s.cmd = .error .illegalCommand →
    step s = .next (failedWith 0x08 { s with port := { s.port with inputs := rest } })) ∧
  (∀ (s : State) (rest : List Input), InFlight s → s.port.inputs = .run :: rest →
    decode s.cmd = .error .unsupportedMode →
    step s = .next (failedWith
      (0x04 ||| bitIf (s.klen ≠ 16) 0x01 ||| bitIf (s.cfg.mbBytes < s.msglen.toNat) 0x10)
      { s with port := { s.port with inputs := rest } })) ∧
  (∀ v : Byte, (∃ i, decode v = .ok i) ∨ ∀ s : State, errmask v s ≠ 0) ∧
  decode 0x00 = .error .illegalCommand

/-- 20_memory.md R46: while BUSY = 1 a transaction to STATUS completes, a read of it returning BUSY = 1, DONE = 0,
ERROR = 0; every other transaction, CMD included, is held; once the command has completed the held transaction is
performed on the state the command left. -/
def Obligations.BusyServesStatusAndHoldsTheRest : Prop :=
  (∀ (s : State) (rest : List Input), Inv s → InFlight s → s.port.held = none →
    s.port.inputs = .bus (.read 0x0001) :: rest →
    step s = .next { s with
      port := { s.port with inputs := rest, trace := .read 0x0001 0x01 :: s.port.trace } }) ∧
  (∀ (s : State) (v : Byte) (rest : List Input), Inv s → InFlight s → s.port.held = none →
    s.port.inputs = .bus (.write 0x0001 v) :: rest →
    step s = .next { s with
      port := { s.port with inputs := rest, trace := .write 0x0001 v :: s.port.trace } }) ∧
  (∀ (s : State) (t : Transaction) (rest : List Input), InFlight s → s.port.held = none →
    t.addr ≠ 0x0001 → s.port.inputs = .bus t :: rest →
    step s = .next { s with port := { s.port with inputs := rest, held := some t } }) ∧
  (∀ (s : State) (t : Transaction), InFlight s → s.port.held = some t →
    (∀ init rest, s.port.inputs ≠ .reset init :: rest) →
    ∃ u : State, step s = .next u ∧ busy u = false ∧ u.port.held = some t ∧
      ((∀ init rest, u.port.inputs ≠ .reset init :: rest) →
        step u = .next (perform t { u with port := { u.port with held := none } })))

/-- 30_encoding.md section 5 (R68), WAIT, with 20_memory.md R46: however often the host polls before the LATENCY has
passed, each poll returns 0x01 and the last read of STATUS has DONE = 1 and BUSY = 0, of a command that has then run. WAIT
as a number of polls, the input `run` and one last read is the model's form of it (log entry 24). -/
def Obligations.WaitPollsUntilDone : Prop :=
  ∀ (s : State) (polls : Nat) (rest : List Input), Inv s → InFlight s → s.port.held = none →
    s.port.inputs = wait polls ++ rest →
    ∃ (t u : State),
      Sys2Proof.core.run polls s = .next u ∧
      u = { s with port := { s.port with
        inputs := .run :: scriptRead 0x0001 :: rest
        trace := List.replicate polls (.read 0x0001 0x01) ++ s.port.trace } } ∧
      Sys2Proof.core.run (polls + 2) s = .next t ∧
      t.port.trace = .read 0x0001 (statusByte t) :: u.port.trace ∧
      t.port.inputs = rest ∧
      (statusByte t).getLsbD 0 = false ∧ (statusByte t).getLsbD 1 = true

/-- 70_reset_and_hazards.md R204, 60_exceptions.md R178: nothing stops the machine; every state has a next state. -/
def Obligations.EveryStepAnswersANextState : Prop := ∀ s : State, ∃ t : State, step s = .next t

/-- 70_reset_and_hazards.md R204: a command cannot hang. Whatever the host does meanwhile, a command in flight is over
after at most one step more than there are inputs. -/
def Obligations.CommandInFlightCompletes : Prop :=
  ∀ s : State, InFlight s →
    ∃ (k : Nat) (t : State), k ≤ s.port.inputs.length + 1 ∧ Sys2Proof.core.run k s = .next t ∧ busy t = false

/-! ## The bus -/

/-- 20_memory.md R41: the address map, reads and writes. -/
def Obligations.BusAddressMap : Prop :=
  ∀ (s : State) (v : Byte), s.cfg.legal = true →
    (busRead 0x0000 s = s.cmd ∧ busWrite 0x0000 v s = accept v s) ∧
    (busRead 0x0001 s = (0 : BitVec 5) ++ BitVec.ofBool (decide (s.err ≠ 0)) ++ BitVec.ofBool s.done ++
        BitVec.ofBool s.seq.pending ∧
      busWrite 0x0001 v s = { s with done := s.done && !v.getLsbD 1 }) ∧
    (busRead 0x0002 s = (0 : BitVec 3) ++ s.err ∧ busWrite 0x0002 v s = s) ∧
    (busRead 0x0003 s = (0 : BitVec 7) ++ BitVec.ofBool s.ie ∧
      busWrite 0x0003 v s = { s with ie := v.getLsbD 0 }) ∧
    (busRead 0x0004 s = s.klen ∧ busWrite 0x0004 v s = { s with klen := v }) ∧
    (busRead 0x0005 s = s.ivlen ∧ busWrite 0x0005 v s = { s with ivlen := v }) ∧
    (busRead 0x0006 s = s.msglen.extractLsb' 0 8 ∧
      busWrite 0x0006 v s = { s with msglen := s.msglen.extractLsb' 8 8 ++ v }) ∧
    (busRead 0x0007 s = s.msglen.extractLsb' 8 8 ∧
      busWrite 0x0007 v s = { s with msglen := v ++ s.msglen.extractLsb' 0 8 }) ∧
    (busRead 0x0008 s = s.blk.extractLsb' 0 8 ∧
      busWrite 0x0008 v s = { s with blk := s.blk.extractLsb' 8 8 ++ v }) ∧
    (busRead 0x0009 s = s.blk.extractLsb' 8 8 ∧
      busWrite 0x0009 v s = { s with blk := v ++ s.blk.extractLsb' 0 8 }) ∧
    (busRead 0x000A s = (0 : BitVec 2) ++ s.bvsel ∧
      busWrite 0x000A v s = { s with bvsel := v.extractLsb' 0 6 }) ∧
    (busRead 0x000B s = bvRead s ∧ busWrite 0x000B v s = bvWrite v s) ∧
    (busRead 0x000C s = s.opa ∧ busWrite 0x000C v s = { s with opa := v }) ∧
    (busRead 0x000D s = s.opb ∧ busWrite 0x000D v s = { s with opb := v }) ∧
    (busRead 0x000E s = s.result ∧ busWrite 0x000E v s = s) ∧
    (∀ k : Fin 16, busRead (BitVec.ofNat 16 (0x0020 + k.val)) s = s.key[k.val] ∧
      busWrite (BitVec.ofNat 16 (0x0020 + k.val)) v s = { s with key := s.key.set k.val v }) ∧
    (∀ k : Fin 16, busRead (BitVec.ofNat 16 (0x0030 + k.val)) s = s.iv[k.val] ∧
      busWrite (BitVec.ofNat 16 (0x0030 + k.val)) v s = { s with iv := s.iv.set k.val v }) ∧
    (∀ j : Fin 176, busRead (BitVec.ofNat 16 (0x0100 + j.val)) s = s.rk[j.val] ∧
      busWrite (BitVec.ofNat 16 (0x0100 + j.val)) v s = s) ∧
    (∀ a : Nat, a < s.cfg.mbBytes →
      busRead (BitVec.ofNat 16 (0x1000 + a)) s = mbByte s a ∧
      busWrite (BitVec.ofNat 16 (0x1000 + a)) v s = { s with mb := Memory.write s.mb a v }) ∧
    (∀ addr : Half,
      (0x000F ≤ addr.toNat ∧ addr.toNat ≤ 0x001F) ∨ (0x0040 ≤ addr.toNat ∧ addr.toNat ≤ 0x00FF) ∨
        (0x01B0 ≤ addr.toNat ∧ addr.toNat ≤ 0x0FFF) ∨ 0x1000 + s.cfg.mbBytes ≤ addr.toNat →
      busRead addr s = 0x00 ∧ busWrite addr v s = s)

/-- 20_memory.md R42: reserved addresses read 0x00; a write to one, to ERR, to RESULT or to an RK address changes nothing;
reserved bits read as 0 and ignore what is written to them. -/
def Obligations.ReservedAndReadOnlyLocations : Prop :=
  ∀ (s : State) (v : Byte),
    (∀ addr : Half,
      (0x000F ≤ addr.toNat ∧ addr.toNat ≤ 0x001F) ∨ (0x0040 ≤ addr.toNat ∧ addr.toNat ≤ 0x00FF) ∨
        (0x01B0 ≤ addr.toNat ∧ addr.toNat ≤ 0x0FFF) ∨ 0x1000 + s.cfg.mbBytes ≤ addr.toNat →
      busRead addr s = 0x00 ∧ busWrite addr v s = s) ∧
    (∀ addr : Half, addr = 0x0002 ∨ addr = 0x000E ∨ (0x0100 ≤ addr.toNat ∧ addr.toNat ≤ 0x01AF) →
      busWrite addr v s = s) ∧
    (busRead 0x0001 s).toNat < 8 ∧ (busRead 0x0002 s).toNat < 32 ∧
    (busRead 0x0003 s).toNat < 2 ∧ (busRead 0x000A s).toNat < 64 ∧
    busWrite 0x0001 v s = busWrite 0x0001 (v &&& 0x02) s ∧
    busWrite 0x0003 v s = busWrite 0x0003 (v &&& 0x01) s ∧
    busWrite 0x000A v s = busWrite 0x000A (v &&& 0x3F) s

/-- 20_memory.md section 5 (R45): no read has a side effect, BVDATA included; reading again returns the same byte; and a
write to an address other than CMD, where each write starts a command, done twice equals the write done once. -/
def Obligations.BusAccessesRepeatHarmlessly : Prop :=
  (∀ (s : State) (addr addr' : Half),
    perform (.read addr) s =
      { s with port := { s.port with trace := .read addr (busRead addr s) :: s.port.trace } } ∧
    busRead addr' (perform (.read addr) s) = busRead addr' s) ∧
  (∀ (s : State) (addr : Half) (v : Byte), addr ≠ 0x0000 → Memory.wf s.mb = true →
    busWrite addr v (busWrite addr v s) = busWrite addr v s)

/-- 20_memory.md sections 2, 5 and 7 (R41, R45, R47): a write to an address other than CMD, STATUS and BVDATA changes what no other
address but BVDATA reads, and a read of a writable byte returns what was last written to it. -/
def Obligations.BusWriteChangesOneAddress : Prop :=
  (∀ (s : State) (a b : Half) (v : Byte), a ≠ b → a ≠ 0x0000 → a ≠ 0x0001 → a ≠ 0x000B → b ≠ 0x000B →
    busRead b (busWrite a v s) = busRead b s) ∧
  (∀ (s : State) (a : Half) (v : Byte), Memory.wf s.mb = true →
    a.toNat = 0x0000 ∨ (0x0004 ≤ a.toNat ∧ a.toNat ≤ 0x0009) ∨ a.toNat = 0x000C ∨ a.toNat = 0x000D ∨
      (0x0020 ≤ a.toNat ∧ a.toNat ≤ 0x003F) ∨ (0x1000 ≤ a.toNat ∧ a.toNat < 0x1000 + s.cfg.mbBytes) →
    busRead a (busWrite a v s) = v)

/-- 20_memory.md R52: MSGLEN and BLK are written as two independent bytes; a value written in two halves, in either order,
is the value a command reads. -/
def Obligations.SixteenBitRegistersAreTwoBytes : Prop :=
  ∀ (s : State) (v : Byte),
    (busWrite 0x0006 v s).msglen = s.msglen.extractLsb' 8 8 ++ v ∧
    (busWrite 0x0007 v s).msglen = v ++ s.msglen.extractLsb' 0 8 ∧
    (busWrite 0x0008 v s).blk = s.blk.extractLsb' 8 8 ++ v ∧
    (busWrite 0x0009 v s).blk = v ++ s.blk.extractLsb' 0 8 ∧
    ∀ w : Half,
      busWrite 0x0006 (w.extractLsb' 0 8) (busWrite 0x0007 (w.extractLsb' 8 8) s) = { s with msglen := w } ∧
      busWrite 0x0007 (w.extractLsb' 8 8) (busWrite 0x0006 (w.extractLsb' 0 8) s) = { s with msglen := w } ∧
      busWrite 0x0008 (w.extractLsb' 0 8) (busWrite 0x0009 (w.extractLsb' 8 8) s) = { s with blk := w } ∧
      busWrite 0x0009 (w.extractLsb' 8 8) (busWrite 0x0008 (w.extractLsb' 0 8) s) = { s with blk := w }

/-- 43_blockview.md R116, the BV port: what a read returns and a write stores for each SPACE, its equivalences with bus
addresses, and that a transaction to it is held while BUSY = 1. -/
def Obligations.BvPortReachesTheSelectedByte : Prop :=
  (∀ (s : State) (x : Byte) (space col row : Nat), s.cfg.legal = true →
    s.bvsel.toNat = 16 * space + 4 * col + row → col < 4 → row < 4 →
    (space = 0 → 16 * s.blk.toNat + 16 ≤ s.cfg.mbBytes →
      busRead 0x000B s = mbByte s (16 * s.blk.toNat + (4 * col + row)) ∧
      busRead 0x000B s = busRead (BitVec.ofNat 16 (0x1000 + 16 * s.blk.toNat + 4 * col + row)) s ∧
      busWrite 0x000B x s = busWrite (BitVec.ofNat 16 (0x1000 + 16 * s.blk.toNat + 4 * col + row)) x s) ∧
    (space = 0 → s.cfg.mbBytes < 16 * s.blk.toNat + 16 →
      busRead 0x000B s = 0x00 ∧ busWrite 0x000B x s = s) ∧
    (space = 1 → busRead 0x000B s = byteAt s.clone (4 * col + row) ∧
      busWrite 0x000B x s = { s with clone := s.clone.setIfInBounds (4 * col + row) x }) ∧
    (space = 2 → busRead 0x000B s = busRead (BitVec.ofNat 16 (0x0030 + 4 * col + row)) s ∧
      busWrite 0x000B x s = busWrite (BitVec.ofNat 16 (0x0030 + 4 * col + row)) x s) ∧
    (space = 3 → busRead 0x000B s = 0x00 ∧ busWrite 0x000B x s = s)) ∧
  (∀ (s : State) (t : Transaction), busy s = true → t.addr = 0x000B →
    present t s = { s with port := { s.port with held := some t } })

/-- 60_exceptions.md section 4 (R180): `irq` follows IE and DONE. It is low from the acceptance of a command, equals IE
when the command has completed, whether or not it failed, and falls when the host clears DONE or IE. -/
def Obligations.InterruptLineFollowsDone : Prop :=
  ∀ s : State,
    (irq s = true ↔ s.ie = true ∧ s.done = true) ∧
    (∀ v, irq (busWrite 0x0000 v s) = false) ∧
    (∀ i t, exec i s = .next t → irq t = s.ie) ∧
    (∀ v : Byte, v.getLsbD 1 = true → irq (busWrite 0x0001 v s) = false) ∧
    (∀ v : Byte, v.getLsbD 1 = false → irq (busWrite 0x0001 v s) = irq s) ∧
    (∀ v : Byte, v.getLsbD 0 = false → irq (busWrite 0x0003 v s) = false)

/-- 60_exceptions.md section 3 (R184, R179) and 10_state.md section 5 (R21, R22): no transaction but a write to CMD, which clears ERR,
changes ERR; and none but CMD and STATUS writes changes DONE. -/
def Obligations.TransactionsNeverRaiseAnError : Prop :=
  ∀ (s : State) (t : Transaction),
    ((∀ v, t ≠ .write 0x0000 v) → (perform t s).err = s.err ∧ (perform t s).cmd = s.cmd ∧
      busy (perform t s) = busy s) ∧
    ((∀ v, t ≠ .write 0x0000 v ∧ t ≠ .write 0x0001 v) → (perform t s).done = s.done) ∧
    (∀ v, (perform (.write 0x0000 v) s).err = 0)

/-- 30_encoding.md section 5 (R68): LOADKEY, LOADIV and LOADMSG leave KEY with KLEN = 16, IV with IVLEN = 16, and the message in MB
with its length in MSGLEN. -/
def Obligations.LoadScriptsFillTheRegisters : Prop :=
  (∀ (s : State) (b : Block) (rest : List Input), Idle s → s.port.inputs = loadKey b ++ rest →
    ∃ t, Sys2Proof.core.run 17 s = .next t ∧ t = { s with key := b, klen := 16, port := t.port } ∧
      t.port.inputs = rest ∧ Idle t) ∧
  (∀ (s : State) (b : Block) (rest : List Input), Idle s → s.port.inputs = loadIv b ++ rest →
    ∃ t, Sys2Proof.core.run 17 s = .next t ∧ t = { s with iv := b, ivlen := 16, port := t.port } ∧
      t.port.inputs = rest ∧ Idle t) ∧
  (∀ (s : State) (m : List Byte) (rest : List Input), Idle s → s.cfg.legal = true →
    Memory.wf s.mb = true → m.length ≤ s.cfg.mbBytes → s.port.inputs = loadMsg m ++ rest →
    ∃ t, Sys2Proof.core.run (m.length + 2) s = .next t ∧
      t = { s with mb := t.mb, msglen := BitVec.ofNat 16 m.length, port := t.port } ∧
      (∀ a, mbByte t a = if a < m.length then m.getD a 0 else mbByte s a) ∧
      t.port.inputs = rest ∧ Idle t)

/-! ## GaloisField and SubstitutionTables -/

/-- 40_galois_field.md R80 and R83: XTIME writes `xtime(OPA)` to RESULT, completes, and changes nothing else; the bytes
0x71 to 0x7F are illegal. -/
def Obligations.XtimeCommand : Prop :=
  encode .xtime = 0x70 ∧
  (∀ m, 1 ≤ m → m < 16 → decode (BitVec.ofNat 8 (0x70 + m)) = .error .illegalCommand) ∧
  ∀ s : State, exec .xtime s = .next (completed { s with
    result := BitVec.ofNat 8 (2 * s.opa.toNat) ^^^ (if 128 ≤ s.opa.toNat then 0x1B else 0x00) })

/-- 40_galois_field.md R81 and R84: GFMUL writes the product of OPA and OPB, the XOR over the bits `i` set in OPB of OPA
doubled `i` times, completes, and changes nothing else; the bytes 0x61 to 0x6F are illegal. -/
def Obligations.GfmulCommand : Prop :=
  encode .gfmul = 0x60 ∧
  (∀ m, 1 ≤ m → m < 16 → decode (BitVec.ofNat 8 (0x60 + m)) = .error .illegalCommand) ∧
  (∀ s : State, exec .gfmul s = .next (completed { s with
    result := (List.range 8).foldl
      (fun acc i => if s.opb.getLsbD i then acc ^^^ xtime^[i] s.opa else acc) 0x00 })) ∧
  (∀ a b : Byte, gmul 0 b = 0 ∧ gmul a 0 = 0 ∧ gmul 1 b = b ∧ gmul a 1 = a ∧ gmul 2 b = xtime b ∧
    gmul 3 b = xtime b ^^^ b)

/-- 40_galois_field.md R82: the laws of the field. -/
def Obligations.GaloisFieldLaws : Prop :=
  (∀ b : Byte, gmul 1 b = b) ∧
  (∀ a b : Byte, gmul a b = gmul b a) ∧
  (∀ a b c : Byte, gmul (gmul a b) c = gmul a (gmul b c)) ∧
  (∀ a b c : Byte, gmul a (b ^^^ c) = gmul a b ^^^ gmul a c) ∧
  (∀ a b : Byte, gmul a b = 0 → a = 0 ∨ b = 0) ∧
  (∀ a : Byte, a ≠ 0 → ∃ b : Byte, gmul a b = 1 ∧ ∀ c : Byte, gmul a c = 1 → c = b) ∧
  (∀ a : Byte, xtime^[8] a = gmul a 0x1B) ∧ xtime^[8] 0x01 = 0x1B ∧
  Function.Bijective xtime ∧ xtime 0x00 = 0x00 ∧
  (∀ a : Byte, xtime^[51] a = a) ∧
  (∀ (a : Byte) (n : Nat), a ≠ 0 → 0 < n → n < 51 → xtime^[n] a ≠ a)

/-- 41_sbox.md section 2 (R94): SBOX writes `SBOX[OPA]` to RESULT, completes, and changes nothing else; the bytes 0x81 to 0x8F are
illegal. -/
def Obligations.SboxCommand : Prop :=
  encode .sbox = 0x80 ∧
  (∀ m, 1 ≤ m → m < 16 → decode (BitVec.ofNat 8 (0x80 + m)) = .error .illegalCommand) ∧
  ∀ s : State, exec .sbox s = .next (completed { s with result := sbox s.opa })

/-- 41_sbox.md section 2 (R95): ISBOX writes `INVSBOX[OPA]` to RESULT, completes, and changes nothing else; the bytes 0x91 to 0x9F are
illegal; SBOX, RESULT copied to OPA, then ISBOX, returns the original OPA. -/
def Obligations.IsboxCommand : Prop :=
  encode .isbox = 0x90 ∧
  (∀ m, 1 ≤ m → m < 16 → decode (BitVec.ofNat 8 (0x90 + m)) = .error .illegalCommand) ∧
  (∀ s : State, exec .isbox s = .next (completed { s with result := invSbox s.opa })) ∧
  (∀ s t u : State, exec .sbox s = .next t → exec .isbox { t with opa := t.result } = .next u →
    u.result = s.opa)

/-- 41_sbox.md section 1 (R91 second paragraph, R92, and the facts after it): each entry of SBOX is the affine map
of the multiplicative inverse; SBOX and INVSBOX undo each other; SBOX has no fixed point and no entry `x ^ 0xFF`. The
contents and the formula of R91 are marked general knowledge in the spec itself (log entry 10, PRESUMED). -/
def Obligations.SubstitutionTables : Prop :=
  (∀ x b : Byte, (x = 0 ∧ b = 0) ∨ gmul x b = 1 →
    ∀ i < 8, (sbox x).getLsbD i =
      (b.getLsbD i ^^ b.getLsbD ((i + 4) % 8) ^^ b.getLsbD ((i + 5) % 8) ^^ b.getLsbD ((i + 6) % 8) ^^
        b.getLsbD ((i + 7) % 8) ^^ (0x63 : Byte).getLsbD i)) ∧
  (∀ x : Byte, invSbox (sbox x) = x ∧ sbox (invSbox x) = x) ∧
  (∀ x : Byte, sbox x ≠ x ∧ sbox x ≠ x ^^^ 0xFF)

/-! ## KeySchedule -/

/-- 42_key_schedule.md R102: the ten round constants. -/
def Obligations.RoundConstants : Prop :=
  (∀ i, 1 ≤ i → roundConstant i = #v[roundConstantByte i, 0x00, 0x00, 0x00] ∧
    roundConstantByte (i + 1) = xtime (roundConstantByte i)) ∧
  (List.range' 1 10).map roundConstantByte =
    [0x01, 0x02, 0x04, 0x08, 0x10, 0x20, 0x40, 0x80, 0x1B, 0x36]

/-- 42_key_schedule.md R103 and R104, as the command KEXP leaves them in RK (R106): with KLEN = 16 it completes, RK holds
the 44 words of the recurrence one after another, and nothing else changes; with KLEN != 16 it fails with InvalidKeyLength. -/
def Obligations.KexpExpandsTheKey : Prop :=
  encode .kexp = 0x30 ∧
  (∀ m, 1 ≤ m → m < 16 → decode (BitVec.ofNat 8 (0x30 + m)) = .error .illegalCommand) ∧
  (∀ s : State, s.klen ≠ 16 → exec .kexp s = .next (failedWith 0x01 s)) ∧
  ∀ s : State, s.klen = 16 → ∃ t : State, exec .kexp s = .next t ∧ t = completed { s with rk := t.rk } ∧
    ∀ (n k : Nat) (hn : n < 44) (hk : k < 4),
      (n < 4 → t.rk[4 * n + k] = s.key[(4 * n + k) % 16]) ∧
      (4 ≤ n → n % 4 ≠ 0 → t.rk[4 * n + k] = t.rk[4 * (n - 4) + k] ^^^ t.rk[4 * (n - 1) + k]) ∧
      (4 ≤ n → n % 4 = 0 → t.rk[4 * n + k] =
        t.rk[4 * (n - 4) + k] ^^^ (if k = 0 then roundConstantByte (n / 4) else 0x00) ^^^
          sbox t.rk[4 * (n - 1) + (k + 1) % 4])

/-- 42_key_schedule.md R107 and R105: every key-using command that passes its checks leaves in RK the expansion of KEY,
whose round key 0 is KEY, whatever RK held; the other commands, and every failing one, leave RK as it was. -/
def Obligations.KeyUsingCommandsExpandFirst : Prop :=
  ∀ (i : Instr) (s t : State), exec i s = .next t →
    (errmask (encode i) s = 0 → i ∉ [.gfmul, .xtime, .sbox, .isbox, .clone] →
      t.rk = expand s.key ∧ ∀ k : Fin 16, t.rk[k.val] = t.key[k.val]) ∧
    (errmask (encode i) s ≠ 0 ∨ i ∈ [.gfmul, .xtime, .sbox, .isbox, .clone] → t.rk = s.rk) ∧
    t.key = s.key

/-! ## RoundTransform -/

/-- 44_round_transform.md R120 to R126: each step function byte by byte, in flat index and in column and row, and the
inverse of each step. -/
def Obligations.BlockStepFunctions : Prop :=
  (∀ (rk : RoundKeys) (b : Block) (i : Nat) (hi : i ≤ 10) (k : Nat) (hk : k < 16),
    (addRoundKey rk i b)[k] = b[k] ^^^ rk[16 * i + k] ∧ addRoundKey rk i (addRoundKey rk i b) = b) ∧
  (∀ (b : Block) (k : Nat) (hk : k < 16),
    (subBytes b)[k] = sbox b[k] ∧ (invSubBytes b)[k] = invSbox b[k] ∧
    (shiftRowsLeft b)[k] = b[(k + 4 * (k % 4)) % 16] ∧
    (shiftRowsRight b)[k] = b[(k + 16 - 4 * (k % 4)) % 16]) ∧
  (∀ (b : Block) (c : Nat) (hc : c < 4),
    let c0 := b[4 * c]; let c1 := b[4 * c + 1]; let c2 := b[4 * c + 2]; let c3 := b[4 * c + 3]
    let m := mixColumns b
    let u := unmixColumns b
    m[4 * c] = xtime c0 ^^^ (xtime c1 ^^^ c1) ^^^ c2 ^^^ c3 ∧
    m[4 * c + 1] = c0 ^^^ xtime c1 ^^^ (xtime c2 ^^^ c2) ^^^ c3 ∧
    m[4 * c + 2] = c0 ^^^ c1 ^^^ xtime c2 ^^^ (xtime c3 ^^^ c3) ∧
    m[4 * c + 3] = (xtime c0 ^^^ c0) ^^^ c1 ^^^ c2 ^^^ xtime c3 ∧
    u[4 * c] = gmul 14 c0 ^^^ gmul 11 c1 ^^^ gmul 13 c2 ^^^ gmul 9 c3 ∧
    u[4 * c + 1] = gmul 9 c0 ^^^ gmul 14 c1 ^^^ gmul 11 c2 ^^^ gmul 13 c3 ∧
    u[4 * c + 2] = gmul 13 c0 ^^^ gmul 9 c1 ^^^ gmul 14 c2 ^^^ gmul 11 c3 ∧
    u[4 * c + 3] = gmul 11 c0 ^^^ gmul 13 c1 ^^^ gmul 9 c2 ^^^ gmul 14 c3) ∧
  (∀ b : Block, invSubBytes (subBytes b) = b ∧ shiftRowsRight (shiftRowsLeft b) = b ∧
    unmixColumns (mixColumns b) = b)

/-- 44_round_transform.md R129: `D(E(X)) = X` and `E(D(X)) = X`, with RK the expansion of any key. -/
def Obligations.DecryptBlockInvertsEncryptBlock : Prop :=
  ∀ (key x : Block), decryptBlock (expand key) (encryptBlock (expand key) x) = x ∧
    encryptBlock (expand key) (decryptBlock (expand key) x) = x

/-- 95_test_vectors.md section 1 (V1): the zero block under the zero key. -/
def Obligations.KnownAnswerOfTheSource : Prop :=
  encryptBlock (expand Block.zero) Block.zero =
    #v[0x66, 0xe9, 0x4b, 0xd4, 0xef, 0x8a, 0x2c, 0x3b, 0x88, 0x4c, 0xfa, 0x59, 0xca, 0x34, 0x2b, 0x2e]

/-- 44_round_transform.md section 3, ENCB (R130): its checks, and on success `E` of block BLK in its place, RK expanded,
the command completed, every byte of MB outside the block as before and nothing else changed. -/
def Obligations.EncbEnciphersTheSelectedBlock : Prop :=
  encode .encb = 0x40 ∧
  (∀ m, 1 ≤ m → m < 16 → decode (BitVec.ofNat 8 (0x40 + m)) = .error .illegalCommand) ∧
  ∀ (s : State) (m : BitVec 5),
    m = bitIf (s.klen ≠ 16) 0x01 ||| bitIf (s.cfg.mbBytes < 16 * s.blk.toNat + 16) 0x10 →
    (m ≠ 0 → exec .encb s = .next (failedWith m s)) ∧
    (m = 0 → Memory.wf s.mb = true → ∃ t : State, exec .encb s = .next t ∧
      t = completed { s with mb := t.mb, rk := expand s.key } ∧
      mbBlock t s.blk.toNat = cipherE s (mbBlock s s.blk.toNat) ∧
      ∀ a, a < 16 * s.blk.toNat ∨ 16 * s.blk.toNat + 16 ≤ a → mbByte t a = mbByte s a)

/-- 44_round_transform.md section 3, DECB (R131): as ENCB with `D`. -/
def Obligations.DecbDeciphersTheSelectedBlock : Prop :=
  encode .decb = 0x50 ∧
  (∀ m, 1 ≤ m → m < 16 → decode (BitVec.ofNat 8 (0x50 + m)) = .error .illegalCommand) ∧
  ∀ (s : State) (m : BitVec 5),
    m = bitIf (s.klen ≠ 16) 0x01 ||| bitIf (s.cfg.mbBytes < 16 * s.blk.toNat + 16) 0x10 →
    (m ≠ 0 → exec .decb s = .next (failedWith m s)) ∧
    (m = 0 → Memory.wf s.mb = true → ∃ t : State, exec .decb s = .next t ∧
      t = completed { s with mb := t.mb, rk := expand s.key } ∧
      mbBlock t s.blk.toNat = cipherD s (mbBlock s s.blk.toNat) ∧
      ∀ a, a < 16 * s.blk.toNat ∨ 16 * s.blk.toNat + 16 ≤ a → mbByte t a = mbByte s a)

/-- 44_round_transform.md section 3, corner cases of R130 and R131: ENCB then DECB with the same KEY and BLK restores the
whole message buffer, and so does DECB then ENCB. -/
def Obligations.EncbAndDecbUndoEachOther : Prop :=
  ∀ s : State, s.klen = 16 → 16 * s.blk.toNat + 16 ≤ s.cfg.mbBytes → Memory.wf s.mb = true →
    (∃ t u : State, exec .encb s = .next t ∧ exec .decb t = .next u ∧ u.mb = s.mb) ∧
    (∃ t u : State, exec .decb s = .next t ∧ exec .encb t = .next u ∧ u.mb = s.mb)

/-! ## BlockView -/

/-- 43_blockview.md section 4, CLONE (R117) with clone() (R114): its check, and on success CLONE holds the 16 bytes of
block BLK, MB and all else unchanged; a write to either afterwards does not change the other (10_state.md section 4, R18). -/
def Obligations.CloneCopiesTheSelectedBlock : Prop :=
  encode .clone = 0xA0 ∧
  (∀ m, 1 ≤ m → m < 16 → decode (BitVec.ofNat 8 (0xA0 + m)) = .error .illegalCommand) ∧
  (∀ s : State, s.cfg.mbBytes < 16 * s.blk.toNat + 16 → exec .clone s = .next (failedWith 0x10 s)) ∧
  (∀ s : State, 16 * s.blk.toNat + 16 ≤ s.cfg.mbBytes →
    ∃ t : State, exec .clone s = .next t ∧ t = completed { s with clone := t.clone } ∧
      ∀ k : Fin 16, t.clone[k.val] = mbByte s (16 * s.blk.toNat + k.val)) ∧
  (∀ (s : State) (a : Nat) (x : Byte),
    (spaceWrite .mb a x s).clone = s.clone ∧ (spaceWrite .clone a x s).mb = s.mb)

/-! ## ModeOfOperation -/

/-- 45_modes.md section 2, ENC.ECB (R143): its checks, and on success `C_i = E(P_i)`, IV, IVLEN and CLONE unchanged. -/
def Obligations.EncEcbEnciphersEachBlock : Prop :=
  encode .encEcb = 0x10 ∧
  ∀ (s : State) (m : BitVec 5),
    m = bitIf (s.klen ≠ 16) 0x01 ||| bitIf (s.cfg.mbBytes < s.msglen.toNat) 0x10 →
    (m ≠ 0 → exec .encEcb s = .next (failedWith m s)) ∧
    (m = 0 → MemoryOk s → ∃ t : State, exec .encEcb s = .next t ∧ CipherDone s t ∧
      t.iv = s.iv ∧ t.ivlen = s.ivlen ∧ t.clone = s.clone ∧
      ∀ i < blockCount s, mbBlock t i = cipherE s (paddedBlock s i))

/-- 45_modes.md section 2, DEC.ECB (R144): `P_i = D(C_i)`. -/
def Obligations.DecEcbDeciphersEachBlock : Prop :=
  encode .decEcb = 0x20 ∧
  ∀ (s : State) (m : BitVec 5),
    m = bitIf (s.klen ≠ 16) 0x01 ||| bitIf (s.cfg.mbBytes < s.msglen.toNat) 0x10 →
    (m ≠ 0 → exec .decEcb s = .next (failedWith m s)) ∧
    (m = 0 → MemoryOk s → ∃ t : State, exec .decEcb s = .next t ∧ CipherDone s t ∧
      t.iv = s.iv ∧ t.ivlen = s.ivlen ∧ t.clone = s.clone ∧
      ∀ i < blockCount s, mbBlock t i = cipherD s (paddedBlock s i))

/-- 45_modes.md section 3, ENC.CBC (R145): `C_0 = E(P_0 ^ IV)`, `C_i = E(P_i ^ C_(i-1))`; IV unchanged, IVLEN 0. -/
def Obligations.EncCbcChainsOnTheCiphertext : Prop :=
  encode .encCbc = 0x11 ∧
  ∀ (s : State) (m : BitVec 5),
    m = bitIf (s.klen ≠ 16) 0x01 ||| bitIf (s.ivlen ≠ 16) 0x02 |||
      bitIf (s.cfg.mbBytes < s.msglen.toNat) 0x10 →
    (m ≠ 0 → exec .encCbc s = .next (failedWith m s)) ∧
    (m = 0 → MemoryOk s → ∃ t : State, exec .encCbc s = .next t ∧ CipherDone s t ∧
      t.iv = s.iv ∧ t.ivlen = 0 ∧ t.clone = s.clone ∧
      ∀ i < blockCount s, mbBlock t i =
        cipherE s (xorBlock (paddedBlock s i) (if i = 0 then s.iv else mbBlock t (i - 1))))

/-- 45_modes.md section 3, DEC.CBC (R146): `P_0 = D(C_0) ^ IV`, `P_i = D(C_i) ^ C_(i-1)`, every `C` being the content
of the padded message at acceptance. -/
def Obligations.DecCbcUsesTheOriginalCiphertext : Prop :=
  encode .decCbc = 0x21 ∧
  ∀ (s : State) (m : BitVec 5),
    m = bitIf (s.klen ≠ 16) 0x01 ||| bitIf (s.ivlen ≠ 16) 0x02 |||
      bitIf (s.cfg.mbBytes < s.msglen.toNat) 0x10 →
    (m ≠ 0 → exec .decCbc s = .next (failedWith m s)) ∧
    (m = 0 → MemoryOk s → ∃ t : State, exec .decCbc s = .next t ∧ CipherDone s t ∧
      t.iv = s.iv ∧ t.ivlen = 0 ∧ t.clone = s.clone ∧
      ∀ i < blockCount s, mbBlock t i =
        xorBlock (cipherD s (paddedBlock s i)) (if i = 0 then s.iv else paddedBlock s (i - 1)))

/-- 45_modes.md section 4, ENC.OFB (R147): `O_0 = E(IV)`, `O_i = E(O_(i-1))`, `out_i = in_i ^ O_i`; IV ends as
`O_(N-1)`, unchanged if N = 0. -/
def Obligations.EncOfbXorsTheKeystream : Prop :=
  encode .encOfb = 0x12 ∧
  ∀ (s : State) (m : BitVec 5),
    m = bitIf (s.klen ≠ 16) 0x01 ||| bitIf (s.ivlen ≠ 16) 0x02 |||
      bitIf (s.cfg.mbBytes < s.msglen.toNat) 0x10 →
    (m ≠ 0 → exec .encOfb s = .next (failedWith m s)) ∧
    (m = 0 → MemoryOk s → ∃ t : State, exec .encOfb s = .next t ∧ CipherDone s t ∧
      t.iv = (cipherE s)^[blockCount s] s.iv ∧ t.ivlen = 0 ∧ t.clone = s.clone ∧
      ∀ i < blockCount s, mbBlock t i = xorBlock (paddedBlock s i) ((cipherE s)^[i + 1] s.iv))

/-- 45_modes.md R148: DEC.OFB. For any state, executing 0x22 and executing 0x12 give states that differ only in CMD;
and DEC.OFB fails or completes as ENC.OFB does. -/
def Obligations.DecOfbIsEncOfb : Prop :=
  encode .decOfb = 0x22 ∧
  (∀ s : State, exec .decOfb s = exec .encOfb s) ∧
  (∀ s : State, ∃ t u : State, step (s.withFetchWord 8 0x12) = .next t ∧
    step (s.withFetchWord 8 0x22) = .next u ∧ u = { t with cmd := 0x22 }) ∧
  (∀ s : State, s.klen = 16 → s.ivlen = 16 → s.msglen.toNat ≤ s.cfg.mbBytes → MemoryOk s →
    ∃ t : State, exec .decOfb s = .next t ∧ CipherDone s t ∧
      t.iv = (cipherE s)^[blockCount s] s.iv ∧ t.ivlen = 0 ∧ t.clone = s.clone ∧
      ∀ i < blockCount s, mbBlock t i = xorBlock (paddedBlock s i) ((cipherE s)^[i + 1] s.iv))

/-- 45_modes.md section 5, ENC.CFB (R149): `C_i = P_i ^ E(C_(i-1))` with `C_(-1) = IV`; IV ends as `C_(N-1)`, unchanged
if N = 0. -/
def Obligations.EncCfbFeedsBackTheOutput : Prop :=
  encode .encCfb = 0x13 ∧
  ∀ (s : State) (m : BitVec 5),
    m = bitIf (s.klen ≠ 16) 0x01 ||| bitIf (s.ivlen ≠ 16) 0x02 |||
      bitIf (s.cfg.mbBytes < s.msglen.toNat) 0x10 →
    (m ≠ 0 → exec .encCfb s = .next (failedWith m s)) ∧
    (m = 0 → MemoryOk s → ∃ t : State, exec .encCfb s = .next t ∧ CipherDone s t ∧
      t.iv = (if blockCount s = 0 then s.iv else mbBlock t (blockCount s - 1)) ∧
      t.ivlen = 0 ∧ t.clone = s.clone ∧
      ∀ i < blockCount s, mbBlock t i =
        xorBlock (paddedBlock s i) (cipherE s (if i = 0 then s.iv else mbBlock t (i - 1))))

/-- 45_modes.md section 5, DEC.CFB (R150): `P_i = C_i ^ E(C_(i-1))` with `C_(-1) = IV`, every `C` being the content of the
padded message at acceptance; IV and CLONE both end as `C_(N-1)`, unchanged if N = 0. -/
def Obligations.DecCfbFeedsBackTheInput : Prop :=
  encode .decCfb = 0x23 ∧
  ∀ (s : State) (m : BitVec 5),
    m = bitIf (s.klen ≠ 16) 0x01 ||| bitIf (s.ivlen ≠ 16) 0x02 |||
      bitIf (s.cfg.mbBytes < s.msglen.toNat) 0x10 →
    (m ≠ 0 → exec .decCfb s = .next (failedWith m s)) ∧
    (m = 0 → MemoryOk s → ∃ t : State, exec .decCfb s = .next t ∧ CipherDone s t ∧
      t.iv = (if blockCount s = 0 then s.iv else paddedBlock s (blockCount s - 1)) ∧
      t.ivlen = 0 ∧ t.clone = (if blockCount s = 0 then s.clone else paddedBlock s (blockCount s - 1)) ∧
      ∀ i < blockCount s, mbBlock t i =
        xorBlock (paddedBlock s i) (cipherE s (if i = 0 then s.iv else paddedBlock s (i - 1))))

/-- 45_modes.md R152: with MSGLEN = 0 a cipher command that passes its checks expands RK, clears IVLEN if the mode chains,
completes, and changes nothing else. -/
def Obligations.EmptyMessage : Prop :=
  ∀ s : State, s.msglen = 0 → s.klen = 16 →
    (∀ i ∈ [Instr.encEcb, .decEcb], exec i s = .next { s with
      rk := expand s.key, done := true, seq := { pending := false, bi := none } }) ∧
    (s.ivlen = 16 → ∀ i ∈ [Instr.encCbc, .decCbc, .encOfb, .decOfb, .encCfb, .decCfb],
      exec i s = .next { s with
        rk := expand s.key, ivlen := 0, done := true, seq := { pending := false, bi := none } })

/-- 45_modes.md section 6, property 1 of R153: in every mode ENC.m, IV and IVLEN reloaded, DEC.m leaves the message
followed by zero bytes up to the next multiple of 16, every byte beyond it as it was, and MSGLEN rounded up; so a message
whose length is a multiple of 16 is restored with its MSGLEN. IVLEN = 16 is asked of the chaining modes alone: ECB ignores
IV and IVLEN (R143, R144). -/
def Obligations.EveryModeRoundTrips : Prop :=
  ∀ (enc dec : Instr),
    (enc, dec) ∈ [(Instr.encEcb, Instr.decEcb), (.encCbc, .decCbc), (.encOfb, .decOfb), (.encCfb, .decCfb)] →
  ∀ s : State, s.klen = 16 → (enc ≠ .encEcb → s.ivlen = 16) → s.msglen.toNat ≤ s.cfg.mbBytes → MemoryOk s →
    ∃ t u : State, exec enc s = .next t ∧ exec dec { t with iv := s.iv, ivlen := s.ivlen } = .next u ∧
      u.msglen.toNat = 16 * blockCount s ∧
      (∀ a, mbByte u a =
        if s.msglen.toNat ≤ a ∧ a < 16 * blockCount s then 0x00 else mbByte s a) ∧
      (s.msglen.toNat % 16 = 0 → u.mb = s.mb ∧ u.msglen = s.msglen)

/-- 45_modes.md section 6, property 2 of R153: under ENC.CBC two messages of one length that differ in block `i` and agree
in every other give ciphertexts that agree in the blocks before `i` and differ in block `i` and every later one. -/
def Obligations.CbcDiffusesForwardOnly : Prop :=
  ∀ (s s' t t' : State) (i : Nat), s.klen = 16 → s.ivlen = 16 → s.msglen.toNat ≤ s.cfg.mbBytes →
    MemoryOk s → Memory.wf s'.mb = true → s' = { s with mb := s'.mb } → i < blockCount s →
    paddedBlock s i ≠ paddedBlock s' i → (∀ j, j ≠ i → j < blockCount s → paddedBlock s j = paddedBlock s' j) →
    exec .encCbc s = .next t → exec .encCbc s' = .next t' →
    ∀ j < blockCount s, (j < i → mbBlock t j = mbBlock t' j) ∧ (i ≤ j → mbBlock t j ≠ mbBlock t' j)

/-- 45_modes.md section 6, property 3 of R153: under ENC.OFB with one KEY and IV, two messages of one length give outputs
whose XOR is the XOR of the messages, and leave the same IV. -/
def Obligations.OfbKeystreamIgnoresTheMessage : Prop :=
  ∀ s s' : State, s.klen = 16 → s.ivlen = 16 → s.msglen.toNat ≤ s.cfg.mbBytes →
    MemoryOk s → MemoryOk s' → s'.klen = s.klen → s'.ivlen = s.ivlen → s'.key = s.key → s'.iv = s.iv →
    s'.msglen = s.msglen → s'.cfg = s.cfg →
    ∃ t t' : State, exec .encOfb s = .next t ∧ exec .encOfb s' = .next t' ∧ t.iv = t'.iv ∧
      ∀ a < s.msglen.toNat, mbByte t a ^^^ mbByte t' a = mbByte s a ^^^ mbByte s' a

/-- 44_round_transform.md section 3 (corner case of R130) and 45_modes.md section 6 (property 4 of R153): ENC.ECB of a
message of one block is ENCB of block 0, and DEC.ECB is DECB; all four complete. -/
def Obligations.SingleBlockEcbIsTheBlockTransform : Prop :=
  ∀ s : State, s.klen = 16 → s.msglen = 16 → s.blk = 0 → MemoryOk s → s.seq.bi = none →
    (exec .encEcb s = exec .encb s ∧ exec .decEcb s = exec .decb s) ∧
    (∃ t, exec .encb s = .next t ∧ exec .encEcb s = .next t) ∧
    ∃ t, exec .decb s = .next t ∧ exec .decEcb s = .next t

/-! ## Errors -/

/-- 60_exceptions.md R170 with R177: for every command byte, which bits its error mask has. -/
def Obligations.ErrorMaskBits : Prop :=
  ∀ (v : Byte) (s : State) (opc mode : Nat), v.toNat = 16 * opc + mode → mode < 16 →
    ((errmask v s).getLsbD 0 = true ↔
      s.klen ≠ 16 ∧ (opc = 1 ∨ opc = 2 ∨ ((opc = 3 ∨ opc = 4 ∨ opc = 5) ∧ mode = 0))) ∧
    ((errmask v s).getLsbD 1 = true ↔
      s.ivlen ≠ 16 ∧ (opc = 1 ∨ opc = 2) ∧ (mode = 1 ∨ mode = 2 ∨ mode = 3)) ∧
    ((errmask v s).getLsbD 2 = true ↔ (opc = 1 ∨ opc = 2) ∧ 4 ≤ mode) ∧
    ((errmask v s).getLsbD 3 = true ↔
      opc = 0 ∨ 0xB ≤ opc ∨ (3 ≤ opc ∧ opc ≤ 0xA ∧ mode ≠ 0)) ∧
    ((errmask v s).getLsbD 4 = true ↔
      ((opc = 1 ∨ opc = 2) ∧ s.cfg.mbBytes < s.msglen.toNat) ∨
      ((opc = 4 ∨ opc = 5 ∨ opc = 0xA) ∧ mode = 0 ∧ s.cfg.mbBytes < 16 * s.blk.toNat + 16))

/-- 60_exceptions.md R176: whatever byte is in flight, if its mask is not 0 the command writes ERR, BUSY and DONE and
nothing else. -/
def Obligations.FailingCommandChangesNothingElse : Prop :=
  (∀ (i : Instr) (s : State), errmask (encode i) s ≠ 0 →
    exec i s = .next (failedWith (errmask (encode i) s) s)) ∧
  (∀ (s : State) (rest : List Input), InFlight s → s.port.inputs = .run :: rest → errmask s.cmd s ≠ 0 →
    step s = .next (failedWith (errmask s.cmd s) { s with port := { s.port with inputs := rest } }))

/-- 30_encoding.md section 2 (R65), the column "writes on success", and the sentences after the table: a command writes
nothing its row does not list, of MB only `MB[0..16N-1]` (a cipher command) or the 16 bytes of the block its view addresses
(ENCB, DECB); on failure it writes nothing but ERR, BUSY and DONE. That a success leaves ERR as `exec` found it (0 after an
acceptance) is log entry 22. -/
def Obligations.CommandsWriteOnlyWhatTheyList : Prop :=
  ∀ (i : Instr) (s t : State), s.seq.bi = none → exec i s = .next t →
    (errmask (encode i) s ≠ 0 → t = failedWith (errmask (encode i) s) s) ∧
    (errmask (encode i) s = 0 →
      t = { s with
        mb := if i ∈ [.gfmul, .xtime, .sbox, .isbox, .kexp, .clone] then s.mb else t.mb
        msglen := if i ∈ [.encEcb, .encCbc, .encOfb, .encCfb, .decEcb, .decCbc, .decOfb, .decCfb]
          then t.msglen else s.msglen
        rk := if i ∈ [.gfmul, .xtime, .sbox, .isbox, .clone] then s.rk else t.rk
        iv := if i ∈ [.encOfb, .encCfb, .decOfb, .decCfb] then t.iv else s.iv
        ivlen := if i ∈ [.encCbc, .encOfb, .encCfb, .decCbc, .decOfb, .decCfb] then t.ivlen else s.ivlen
        clone := if i ∈ [.decCfb, .clone] then t.clone else s.clone
        result := if i ∈ [.gfmul, .xtime, .sbox, .isbox] then t.result else s.result
        done := true
        seq := { pending := false, bi := none } } ∧
      (MemoryOk s → ∀ a : Nat,
        (i ∈ [.encEcb, .encCbc, .encOfb, .encCfb, .decEcb, .decCbc, .decOfb, .decCfb] →
          16 * blockCount s ≤ a → mbByte t a = mbByte s a) ∧
        (i ∈ [.encb, .decb] → a < (blkView s).base ∨ (blkView s).base + 16 ≤ a → mbByte t a = mbByte s a)))

/-- 30_encoding.md section 4 (R70) with section 2 (R65), the columns "reads": the result of a command depends only on what
its row lists as read. Two states that agree on it give the same mask and, when the command succeeds, the same RK, IV, IVLEN,
CLONE, RESULT and MSGLEN where the command writes them, and the same bytes of MB where it writes those. -/
def Obligations.CommandsDependOnlyOnWhatTheyRead : Prop :=
  ∀ (i : Instr) (s s' t t' : State), MemoryOk s → MemoryOk s' → s.cfg = s'.cfg →
    (i ∉ [.gfmul, .xtime, .sbox, .isbox, .clone] → s.klen = s'.klen ∧ s.key = s'.key) →
    (i ∈ [.encCbc, .encOfb, .encCfb, .decCbc, .decOfb, .decCfb] → s.ivlen = s'.ivlen ∧ s.iv = s'.iv) →
    (i ∈ [.encEcb, .encCbc, .encOfb, .encCfb, .decEcb, .decCbc, .decOfb, .decCfb] →
      s.msglen = s'.msglen ∧ ∀ a < s.msglen.toNat, mbByte s a = mbByte s' a) →
    (i ∈ [.encb, .decb, .clone] →
      s.blk = s'.blk ∧ ∀ k < 16, mbByte s (16 * s.blk.toNat + k) = mbByte s' (16 * s.blk.toNat + k)) →
    (i ∈ [.gfmul, .xtime, .sbox, .isbox] → s.opa = s'.opa) → (i = .gfmul → s.opb = s'.opb) →
    exec i s = .next t → exec i s' = .next t' →
    errmask (encode i) s = errmask (encode i) s' ∧
    (errmask (encode i) s = 0 →
      (i ∉ [.gfmul, .xtime, .sbox, .isbox, .clone] → t.rk = t'.rk) ∧
      (i ∈ [.gfmul, .xtime, .sbox, .isbox] → t.result = t'.result) ∧
      (i ∈ [.encEcb, .encCbc, .encOfb, .encCfb, .decEcb, .decCbc, .decOfb, .decCfb] →
        t.msglen = t'.msglen ∧ ∀ a < 16 * blockCount s, mbByte t a = mbByte t' a) ∧
      (i ∈ [.encCbc, .encOfb, .encCfb, .decCbc, .decOfb, .decCfb] → t.iv = t'.iv ∧ t.ivlen = t'.ivlen) ∧
      (i ∈ [.encb, .decb] → ∀ k < 16, mbByte t (16 * s.blk.toNat + k) = mbByte t' (16 * s.blk.toNat + k)) ∧
      (i = .clone ∨ (i = .decCfb ∧ 0 < blockCount s) → t.clone = t'.clone))

/-- 70_reset_and_hazards.md section 2 (R196) with 60_exceptions.md R172: after a successful chaining command, whatever the
host writes but IVLEN, every chaining command fails with the bit MissingOrInvalidIV. -/
def Obligations.ChainingCommandConsumesTheIv : Prop :=
  ∀ (i j : Instr) (s t u : State),
    i ∈ [Instr.encCbc, .encOfb, .encCfb, .decCbc, .decOfb, .decCfb] →
    j ∈ [Instr.encCbc, .encOfb, .encCfb, .decCbc, .decOfb, .decCfb] →
    errmask (encode i) s = 0 → exec i s = .next t → u.ivlen = t.ivlen →
    ∃ m : BitVec 5, m.getLsbD 1 = true ∧ exec j u = .next (failedWith m u)

/-! ## Reset and the invariant -/

/-- 70_reset_and_hazards.md R190 and R191: asserting `rst`, whatever the state, a command in flight and a held transaction
included, gives every state element its reset value, with MB the arbitrary content of that reset; while `rst` is asserted
transactions are not performed; its release changes nothing else. `rst`, the held transaction and the list of inputs are the
model's own fields; that a reset keeps the trace, and that a transaction presented under `rst` is dropped, are the model's
choice (log entries 3, 6, 8; entry 8 is a DESIGN CHOICE). -/
def Obligations.ResetGivesEveryElementItsValue : Prop :=
  (∀ (s : State) (init : Memory) (rest : List Input), s.port.inputs = .reset init :: rest →
    ∃ t : State, step s = .next t ∧
      (∀ k : Fin 16, t.key[k.val] = 0x00 ∧ t.iv[k.val] = 0x00 ∧ t.clone[k.val] = 0x00) ∧
      (∀ j : Fin 176, t.rk[j.val] = 0x00) ∧
      t.klen = 0 ∧ t.ivlen = 0 ∧ t.msglen = 0 ∧ t.blk = 0 ∧ t.bvsel = 0 ∧ t.opa = 0 ∧ t.opb = 0 ∧
      t.result = 0 ∧ t.cmd = 0x00 ∧ t.done = false ∧ t.err = 0 ∧ statusByte t = 0x00 ∧ t.ie = false ∧
      irq t = false ∧ t.seq = { pending := false, bi := none } ∧ t.mb = init ∧ t.cfg = s.cfg ∧
      t.port = { rst := true, held := none, inputs := rest, trace := s.port.trace }) ∧
  (∀ (s : State) (t : Transaction) (rest : List Input), s.port.rst = true → s.port.inputs = .bus t :: rest →
    step s = .next { s with port := { s.port with inputs := rest } }) ∧
  (∀ (s : State) (rest : List Input), s.port.rst = true → s.port.inputs = .release :: rest →
    step s = .next { s with port := { s.port with rst := false, inputs := rest } })

/-- The invariant holds at reset, for every legal MB_BYTES and every content MB can hold (10_state.md R31; the choice of
both in `State.reset` is the model's, log entries 1, 2). -/
def Obligations.ResetMeetsTheInvariant : Prop :=
  Inv State.reset ∧
  ∀ (p : Config.Params) (init : Memory), p.legal = true → Memory.wf init = true →
    Memory.within p.mbBytes init = true → Inv (State.resetWith p init)

/-- 10_state.md section 7 (R31) and section 5 (R21), with the model's own fields: the canonical form of MB (log entry 2), the
held transaction (log entry 6), `rst` and the inputs (log entry 8): every step keeps the invariant. -/
def Obligations.EveryStepKeepsTheInvariant : Prop :=
  ∀ s t : State, Inv s → step s = .next t → Inv t

/-- 00_scope.md section 3 (R6): no step changes the parameters of the machine. -/
def Obligations.ParametersNeverChange : Prop := ∀ s t : State, step s = .next t → t.cfg = s.cfg

/-! ## Script lines -/

/-- 30_encoding.md section 5 (R68): NOIV, SETBLK, PEEK and POKE, run from an idle state. NOIV clears IVLEN; SETBLK sets BLK;
PEEK and POKE set BLK and BVSEL and then read, or write, BVDATA (43_blockview.md R116); nothing else changes but the record
of the transactions (log entry 14). -/
def Obligations.ScriptLinesReachTheirRegisters : Prop :=
  (∀ (s : State) (rest : List Input), Idle s → s.port.inputs = noIv ++ rest →
    ∃ t, Sys2Proof.core.run 1 s = .next t ∧ t = { s with ivlen := 0, port := t.port } ∧
      t.port.inputs = rest ∧ Idle t) ∧
  (∀ (s : State) (n : Nat) (rest : List Input), Idle s → s.port.inputs = setBlk n ++ rest →
    ∃ t, Sys2Proof.core.run 2 s = .next t ∧ t = { s with blk := BitVec.ofNat 16 n, port := t.port } ∧
      t.port.inputs = rest ∧ Idle t) ∧
  (∀ (s : State) (space n col row : Nat) (rest : List Input), Idle s →
    s.port.inputs = peek space n col row ++ rest →
    ∃ t, Sys2Proof.core.run 4 s = .next t ∧
      t = { s with
        blk := BitVec.ofNat 16 n, bvsel := BitVec.ofNat 6 (16 * space + 4 * col + row), port := t.port } ∧
      t.port.trace.head? = some (.read 0x000B (busRead 0x000B t)) ∧
      t.port.inputs = rest ∧ Idle t) ∧
  (∀ (s : State) (space n col row : Nat) (v : Byte) (rest : List Input), Idle s →
    s.port.inputs = poke space n col row v ++ rest →
    ∃ t, Sys2Proof.core.run 4 s = .next t ∧
      t = { busWrite 0x000B v { s with
        blk := BitVec.ofNat 16 n, bvsel := BitVec.ofNat 6 (16 * space + 4 * col + row) } with port := t.port } ∧
      t.port.inputs = rest ∧ Idle t)
end

