-- ==== Sys2Proof/Laws/Memory.lean ====
section
/-! SUPPORT. The message buffer: reading after writing, the canonical form, and equality of canonical memories. -/

namespace Sys2Proof.Machine

@[simp] theorem Memory.read_nil (a : Nat) : Memory.read [] a = 0 := rfl

theorem Memory.read_cons (k : Nat) (b : Byte) (m : Memory) (a : Nat) :
    Memory.read ((k, b) :: m) a = if k = a then b else Memory.read m a := rfl

@[simp] theorem Memory.wf_nil : Memory.wf [] = true := rfl

theorem Memory.wf_cons {k : Nat} {b : Byte} {m : Memory} :
    Memory.wf ((k, b) :: m) = true ↔ b ≠ 0 ∧ (∀ c ∈ m, k < c.1) ∧ Memory.wf m = true := by
  simp [Memory.wf, and_assoc]

/-- An index below every listed one holds 0x00. -/
theorem Memory.read_below {m : Memory} {a : Nat} (h : ∀ c ∈ m, a < c.1) : Memory.read m a = 0 := by
  induction m with
  | nil => rfl
  | cons c m ih =>
    obtain ⟨k, b⟩ := c
    have hk : a < k := h (k, b) (by simp)
    rw [Memory.read_cons, if_neg (by omega)]
    exact ih fun c hc => h c (List.mem_cons_of_mem _ hc)

/-- A write leaves every other byte as it was, whatever the memory's form. -/
theorem Memory.read_write_other {a a' : Nat} (h : a' ≠ a) (m : Memory) (v : Byte) :
    Memory.read (Memory.write m a v) a' = Memory.read m a' := by
  induction m with
  | nil => unfold Memory.write; split <;> simp [Memory.read_cons, Ne.symm h]
  | cons c m ih =>
    obtain ⟨k, b⟩ := c
    unfold Memory.write
    split
    · split <;> simp [Memory.read_cons, Ne.symm h]
    · split
      · rename_i _ hk
        subst hk
        split <;> simp [Memory.read_cons, Ne.symm h]
      · simp [Memory.read_cons, ih]

/-- A read after a write to the same byte gives the value written. -/
theorem Memory.read_write_same {m : Memory} (hm : Memory.wf m = true) (a : Nat) (v : Byte) :
    Memory.read (Memory.write m a v) a = v := by
  induction m with
  | nil => unfold Memory.write; split <;> simp_all [Memory.read_cons]
  | cons c m ih =>
    obtain ⟨k, b⟩ := c
    obtain ⟨_, hlt, hwf⟩ := Memory.wf_cons.mp hm
    unfold Memory.write
    split
    · rename_i hk
      split
      · rename_i hv
        subst hv
        rw [Memory.read_cons, if_neg (by omega)]
        exact Memory.read_below fun c hc => lt_trans hk (hlt c hc)
      · simp [Memory.read_cons]
    · split
      · rename_i _ hk
        subst hk
        split
        · rename_i hv
          subst hv
          exact Memory.read_below hlt
        · simp [Memory.read_cons]
      · rename_i _ hk
        rw [Memory.read_cons, if_neg (Ne.symm hk), ih hwf]

theorem Memory.read_write {m : Memory} (hm : Memory.wf m = true) (a a' : Nat) (v : Byte) :
    Memory.read (Memory.write m a v) a' = if a' = a then v else Memory.read m a' := by
  split
  · rename_i h; subst h; exact Memory.read_write_same hm _ _
  · rename_i h; exact Memory.read_write_other h m v

/-- Every index a write leaves listed was listed, or is the one written. -/
theorem Memory.mem_write {m : Memory} {a : Nat} {v : Byte} {c : Host.Cell}
    (h : c ∈ Memory.write m a v) : c.1 = a ∨ c ∈ m := by
  induction m with
  | nil =>
    unfold Memory.write at h
    split at h
    · simp at h
    · simp at h; simp [h]
  | cons d m ih =>
    obtain ⟨k, b⟩ := d
    unfold Memory.write at h
    split at h
    · split at h
      · exact .inr h
      · rcases List.mem_cons.mp h with rfl | h
        · exact .inl rfl
        · exact .inr h
    · split at h
      · split at h
        · exact .inr (List.mem_cons_of_mem _ h)
        · rcases List.mem_cons.mp h with rfl | h
          · exact .inl rfl
          · exact .inr (List.mem_cons_of_mem _ h)
      · rcases List.mem_cons.mp h with rfl | h
        · exact .inr (by simp)
        · rcases ih h with h | h
          · exact .inl h
          · exact .inr (List.mem_cons_of_mem _ h)

/-- A write keeps the canonical form. -/
theorem Memory.write_wf {m : Memory} (hm : Memory.wf m = true) (a : Nat) (v : Byte) :
    Memory.wf (Memory.write m a v) = true := by
  induction m with
  | nil => unfold Memory.write; split <;> simp_all [Memory.wf]
  | cons c m ih =>
    obtain ⟨k, b⟩ := c
    obtain ⟨hb, hlt, hwf⟩ := Memory.wf_cons.mp hm
    unfold Memory.write
    split
    · rename_i hk
      split
      · exact hm
      · rename_i hv
        refine Memory.wf_cons.mpr ⟨hv, fun c hc => ?_, hm⟩
        rcases List.mem_cons.mp hc with rfl | hc
        · exact hk
        · exact lt_trans hk (hlt c hc)
    · split
      · rename_i _ hk
        split
        · exact hwf
        · rename_i hv
          exact Memory.wf_cons.mpr ⟨hv, by rw [hk]; exact hlt, hwf⟩
      · rename_i h1 h2
        refine Memory.wf_cons.mpr ⟨hb, fun c hc => ?_, ih hwf⟩
        rcases Memory.mem_write hc with h | h
        · omega
        · exact hlt c h

/-- A write inside `MB[0..n-1]` keeps every listed byte inside it. -/
theorem Memory.write_within {n : Nat} {m : Memory} (hm : Memory.within n m = true) {a : Nat}
    (ha : a < n) (v : Byte) : Memory.within n (Memory.write m a v) = true := by
  simp only [Memory.within, List.all_eq_true, decide_eq_true_eq] at *
  intro c hc
  rcases Memory.mem_write hc with h | h
  · omega
  · exact hm c h

/-- In a canonical memory the bytes that are not 0x00 are exactly the listed ones. -/
theorem Memory.read_of_mem {m : Memory} (hm : Memory.wf m = true) {c : Host.Cell} (hc : c ∈ m) :
    Memory.read m c.1 = c.2 := by
  induction m with
  | nil => simp at hc
  | cons d m ih =>
    obtain ⟨k, b⟩ := d
    obtain ⟨_, hlt, hwf⟩ := Memory.wf_cons.mp hm
    rcases List.mem_cons.mp hc with rfl | hc
    · simp [Memory.read_cons]
    · rw [Memory.read_cons, if_neg (by have := hlt c hc; omega)]
      exact ih hwf hc

/-- Canonical memories with the same bytes are equal. -/
theorem Memory.ext_of_wf {m m' : Memory} (hm : Memory.wf m = true) (hm' : Memory.wf m' = true)
    (h : ∀ a, Memory.read m a = Memory.read m' a) : m = m' := by
  induction m generalizing m' with
  | nil =>
    cases m' with
    | nil => rfl
    | cons d m' =>
      obtain ⟨k, b⟩ := d
      have := h k
      simp [Memory.read_cons] at this
      exact absurd this.symm (Memory.wf_cons.mp hm').1
  | cons c m ih =>
    obtain ⟨k, b⟩ := c
    obtain ⟨hb, hlt, hwf⟩ := Memory.wf_cons.mp hm
    cases m' with
    | nil =>
      have := h k
      simp [Memory.read_cons] at this
      exact absurd this hb
    | cons d m' =>
      obtain ⟨k', b'⟩ := d
      obtain ⟨hb', hlt', hwf'⟩ := Memory.wf_cons.mp hm'
      have hk : k = k' := by
        rcases Nat.lt_trichotomy k k' with hh | hh | hh
        · have := h k
          rw [Memory.read_cons, if_pos rfl, Memory.read_cons, if_neg (by omega),
            Memory.read_below fun c hc => lt_trans hh (hlt' c hc)] at this
          exact absurd this hb
        · exact hh
        · have := h k'
          rw [Memory.read_cons, if_neg (by omega),
            Memory.read_below fun c hc => lt_trans hh (hlt c hc), Memory.read_cons, if_pos rfl] at this
          exact absurd this.symm hb'
      subst hk
      have hbb : b = b' := by simpa [Memory.read_cons] using h k
      subst hbb
      refine congrArg _ (ih hwf hwf' fun a => ?_)
      by_cases ha : k = a
      · subst ha
        rw [Memory.read_below hlt, Memory.read_below hlt']
      · simpa [Memory.read_cons, ha] using h a

end Sys2Proof.Machine
end

