-- ==== Sys2Proof/Laws/State.lean ====
section
/-! SUPPORT. What each update of State leaves in each field: one lemma per field per update. -/

namespace Sys2Proof.Machine

@[simp] theorem accept_key (v : Byte) (s : State) : (accept v s).key = s.key := rfl
@[simp] theorem accept_iv (v : Byte) (s : State) : (accept v s).iv = s.iv := rfl
@[simp] theorem accept_klen (v : Byte) (s : State) : (accept v s).klen = s.klen := rfl
@[simp] theorem accept_ivlen (v : Byte) (s : State) : (accept v s).ivlen = s.ivlen := rfl
@[simp] theorem accept_msglen (v : Byte) (s : State) : (accept v s).msglen = s.msglen := rfl
@[simp] theorem accept_mb (v : Byte) (s : State) : (accept v s).mb = s.mb := rfl
@[simp] theorem accept_rk (v : Byte) (s : State) : (accept v s).rk = s.rk := rfl
@[simp] theorem accept_clone (v : Byte) (s : State) : (accept v s).clone = s.clone := rfl
@[simp] theorem accept_cmd (v : Byte) (s : State) : (accept v s).cmd = v := rfl
@[simp] theorem accept_done (v : Byte) (s : State) : (accept v s).done = false := rfl
@[simp] theorem accept_err (v : Byte) (s : State) : (accept v s).err = 0 := rfl
@[simp] theorem accept_ie (v : Byte) (s : State) : (accept v s).ie = s.ie := rfl
@[simp] theorem accept_blk (v : Byte) (s : State) : (accept v s).blk = s.blk := rfl
@[simp] theorem accept_bvsel (v : Byte) (s : State) : (accept v s).bvsel = s.bvsel := rfl
@[simp] theorem accept_opa (v : Byte) (s : State) : (accept v s).opa = s.opa := rfl
@[simp] theorem accept_opb (v : Byte) (s : State) : (accept v s).opb = s.opb := rfl
@[simp] theorem accept_result (v : Byte) (s : State) : (accept v s).result = s.result := rfl
@[simp] theorem accept_seq (v : Byte) (s : State) : (accept v s).seq = { s.seq with pending := true } := rfl
@[simp] theorem accept_cfg (v : Byte) (s : State) : (accept v s).cfg = s.cfg := rfl
@[simp] theorem accept_port (v : Byte) (s : State) : (accept v s).port = s.port := rfl

@[simp] theorem completeCommand_key (s : State) : (completeCommand s).key = s.key := rfl
@[simp] theorem completeCommand_iv (s : State) : (completeCommand s).iv = s.iv := rfl
@[simp] theorem completeCommand_klen (s : State) : (completeCommand s).klen = s.klen := rfl
@[simp] theorem completeCommand_ivlen (s : State) : (completeCommand s).ivlen = s.ivlen := rfl
@[simp] theorem completeCommand_msglen (s : State) : (completeCommand s).msglen = s.msglen := rfl
@[simp] theorem completeCommand_mb (s : State) : (completeCommand s).mb = s.mb := rfl
@[simp] theorem completeCommand_rk (s : State) : (completeCommand s).rk = s.rk := rfl
@[simp] theorem completeCommand_clone (s : State) : (completeCommand s).clone = s.clone := rfl
@[simp] theorem completeCommand_cmd (s : State) : (completeCommand s).cmd = s.cmd := rfl
@[simp] theorem completeCommand_done (s : State) : (completeCommand s).done = true := rfl
@[simp] theorem completeCommand_err (s : State) : (completeCommand s).err = s.err := rfl
@[simp] theorem completeCommand_ie (s : State) : (completeCommand s).ie = s.ie := rfl
@[simp] theorem completeCommand_blk (s : State) : (completeCommand s).blk = s.blk := rfl
@[simp] theorem completeCommand_bvsel (s : State) : (completeCommand s).bvsel = s.bvsel := rfl
@[simp] theorem completeCommand_opa (s : State) : (completeCommand s).opa = s.opa := rfl
@[simp] theorem completeCommand_opb (s : State) : (completeCommand s).opb = s.opb := rfl
@[simp] theorem completeCommand_result (s : State) : (completeCommand s).result = s.result := rfl
@[simp] theorem completeCommand_seq (s : State) : (completeCommand s).seq = { s.seq with pending := false } := rfl
@[simp] theorem completeCommand_cfg (s : State) : (completeCommand s).cfg = s.cfg := rfl
@[simp] theorem completeCommand_port (s : State) : (completeCommand s).port = s.port := rfl

@[simp] theorem failCommand_key (m : BitVec 5) (s : State) : (failCommand m s).key = s.key := rfl
@[simp] theorem failCommand_iv (m : BitVec 5) (s : State) : (failCommand m s).iv = s.iv := rfl
@[simp] theorem failCommand_klen (m : BitVec 5) (s : State) : (failCommand m s).klen = s.klen := rfl
@[simp] theorem failCommand_ivlen (m : BitVec 5) (s : State) : (failCommand m s).ivlen = s.ivlen := rfl
@[simp] theorem failCommand_msglen (m : BitVec 5) (s : State) : (failCommand m s).msglen = s.msglen := rfl
@[simp] theorem failCommand_mb (m : BitVec 5) (s : State) : (failCommand m s).mb = s.mb := rfl
@[simp] theorem failCommand_rk (m : BitVec 5) (s : State) : (failCommand m s).rk = s.rk := rfl
@[simp] theorem failCommand_clone (m : BitVec 5) (s : State) : (failCommand m s).clone = s.clone := rfl
@[simp] theorem failCommand_cmd (m : BitVec 5) (s : State) : (failCommand m s).cmd = s.cmd := rfl
@[simp] theorem failCommand_done (m : BitVec 5) (s : State) : (failCommand m s).done = true := rfl
@[simp] theorem failCommand_err (m : BitVec 5) (s : State) : (failCommand m s).err = m := rfl
@[simp] theorem failCommand_ie (m : BitVec 5) (s : State) : (failCommand m s).ie = s.ie := rfl
@[simp] theorem failCommand_blk (m : BitVec 5) (s : State) : (failCommand m s).blk = s.blk := rfl
@[simp] theorem failCommand_bvsel (m : BitVec 5) (s : State) : (failCommand m s).bvsel = s.bvsel := rfl
@[simp] theorem failCommand_opa (m : BitVec 5) (s : State) : (failCommand m s).opa = s.opa := rfl
@[simp] theorem failCommand_opb (m : BitVec 5) (s : State) : (failCommand m s).opb = s.opb := rfl
@[simp] theorem failCommand_result (m : BitVec 5) (s : State) : (failCommand m s).result = s.result := rfl
@[simp] theorem failCommand_seq (m : BitVec 5) (s : State) : (failCommand m s).seq = { s.seq with pending := false } := rfl
@[simp] theorem failCommand_cfg (m : BitVec 5) (s : State) : (failCommand m s).cfg = s.cfg := rfl
@[simp] theorem failCommand_port (m : BitVec 5) (s : State) : (failCommand m s).port = s.port := rfl

@[simp] theorem setResult_key (x : Byte) (s : State) : (setResult x s).key = s.key := rfl
@[simp] theorem setResult_iv (x : Byte) (s : State) : (setResult x s).iv = s.iv := rfl
@[simp] theorem setResult_klen (x : Byte) (s : State) : (setResult x s).klen = s.klen := rfl
@[simp] theorem setResult_ivlen (x : Byte) (s : State) : (setResult x s).ivlen = s.ivlen := rfl
@[simp] theorem setResult_msglen (x : Byte) (s : State) : (setResult x s).msglen = s.msglen := rfl
@[simp] theorem setResult_mb (x : Byte) (s : State) : (setResult x s).mb = s.mb := rfl
@[simp] theorem setResult_rk (x : Byte) (s : State) : (setResult x s).rk = s.rk := rfl
@[simp] theorem setResult_clone (x : Byte) (s : State) : (setResult x s).clone = s.clone := rfl
@[simp] theorem setResult_cmd (x : Byte) (s : State) : (setResult x s).cmd = s.cmd := rfl
@[simp] theorem setResult_done (x : Byte) (s : State) : (setResult x s).done = s.done := rfl
@[simp] theorem setResult_err (x : Byte) (s : State) : (setResult x s).err = s.err := rfl
@[simp] theorem setResult_ie (x : Byte) (s : State) : (setResult x s).ie = s.ie := rfl
@[simp] theorem setResult_blk (x : Byte) (s : State) : (setResult x s).blk = s.blk := rfl
@[simp] theorem setResult_bvsel (x : Byte) (s : State) : (setResult x s).bvsel = s.bvsel := rfl
@[simp] theorem setResult_opa (x : Byte) (s : State) : (setResult x s).opa = s.opa := rfl
@[simp] theorem setResult_opb (x : Byte) (s : State) : (setResult x s).opb = s.opb := rfl
@[simp] theorem setResult_result (x : Byte) (s : State) : (setResult x s).result = x := rfl
@[simp] theorem setResult_seq (x : Byte) (s : State) : (setResult x s).seq = s.seq := rfl
@[simp] theorem setResult_cfg (x : Byte) (s : State) : (setResult x s).cfg = s.cfg := rfl
@[simp] theorem setResult_port (x : Byte) (s : State) : (setResult x s).port = s.port := rfl

@[simp] theorem expandKey_key (s : State) : (expandKey s).key = s.key := by simp only [expandKey]
@[simp] theorem expandKey_iv (s : State) : (expandKey s).iv = s.iv := by simp only [expandKey]
@[simp] theorem expandKey_klen (s : State) : (expandKey s).klen = s.klen := by simp only [expandKey]
@[simp] theorem expandKey_ivlen (s : State) : (expandKey s).ivlen = s.ivlen := by simp only [expandKey]
@[simp] theorem expandKey_msglen (s : State) : (expandKey s).msglen = s.msglen := by simp only [expandKey]
@[simp] theorem expandKey_mb (s : State) : (expandKey s).mb = s.mb := by simp only [expandKey]
@[simp] theorem expandKey_rk (s : State) : (expandKey s).rk = expand s.key := by simp only [expandKey]
@[simp] theorem expandKey_clone (s : State) : (expandKey s).clone = s.clone := by simp only [expandKey]
@[simp] theorem expandKey_cmd (s : State) : (expandKey s).cmd = s.cmd := by simp only [expandKey]
@[simp] theorem expandKey_done (s : State) : (expandKey s).done = s.done := by simp only [expandKey]
@[simp] theorem expandKey_err (s : State) : (expandKey s).err = s.err := by simp only [expandKey]
@[simp] theorem expandKey_ie (s : State) : (expandKey s).ie = s.ie := by simp only [expandKey]
@[simp] theorem expandKey_blk (s : State) : (expandKey s).blk = s.blk := by simp only [expandKey]
@[simp] theorem expandKey_bvsel (s : State) : (expandKey s).bvsel = s.bvsel := by simp only [expandKey]
@[simp] theorem expandKey_opa (s : State) : (expandKey s).opa = s.opa := by simp only [expandKey]
@[simp] theorem expandKey_opb (s : State) : (expandKey s).opb = s.opb := by simp only [expandKey]
@[simp] theorem expandKey_result (s : State) : (expandKey s).result = s.result := by simp only [expandKey]
@[simp] theorem expandKey_seq (s : State) : (expandKey s).seq = s.seq := by simp only [expandKey]
@[simp] theorem expandKey_cfg (s : State) : (expandKey s).cfg = s.cfg := by simp only [expandKey]
@[simp] theorem expandKey_port (s : State) : (expandKey s).port = s.port := by simp only [expandKey]

@[simp] theorem withInputs_key (rest : List Input) (s : State) : (withInputs rest s).key = s.key := rfl
@[simp] theorem withInputs_iv (rest : List Input) (s : State) : (withInputs rest s).iv = s.iv := rfl
@[simp] theorem withInputs_klen (rest : List Input) (s : State) : (withInputs rest s).klen = s.klen := rfl
@[simp] theorem withInputs_ivlen (rest : List Input) (s : State) : (withInputs rest s).ivlen = s.ivlen := rfl
@[simp] theorem withInputs_msglen (rest : List Input) (s : State) : (withInputs rest s).msglen = s.msglen := rfl
@[simp] theorem withInputs_mb (rest : List Input) (s : State) : (withInputs rest s).mb = s.mb := rfl
@[simp] theorem withInputs_rk (rest : List Input) (s : State) : (withInputs rest s).rk = s.rk := rfl
@[simp] theorem withInputs_clone (rest : List Input) (s : State) : (withInputs rest s).clone = s.clone := rfl
@[simp] theorem withInputs_cmd (rest : List Input) (s : State) : (withInputs rest s).cmd = s.cmd := rfl
@[simp] theorem withInputs_done (rest : List Input) (s : State) : (withInputs rest s).done = s.done := rfl
@[simp] theorem withInputs_err (rest : List Input) (s : State) : (withInputs rest s).err = s.err := rfl
@[simp] theorem withInputs_ie (rest : List Input) (s : State) : (withInputs rest s).ie = s.ie := rfl
@[simp] theorem withInputs_blk (rest : List Input) (s : State) : (withInputs rest s).blk = s.blk := rfl
@[simp] theorem withInputs_bvsel (rest : List Input) (s : State) : (withInputs rest s).bvsel = s.bvsel := rfl
@[simp] theorem withInputs_opa (rest : List Input) (s : State) : (withInputs rest s).opa = s.opa := rfl
@[simp] theorem withInputs_opb (rest : List Input) (s : State) : (withInputs rest s).opb = s.opb := rfl
@[simp] theorem withInputs_result (rest : List Input) (s : State) : (withInputs rest s).result = s.result := rfl
@[simp] theorem withInputs_seq (rest : List Input) (s : State) : (withInputs rest s).seq = s.seq := rfl
@[simp] theorem withInputs_cfg (rest : List Input) (s : State) : (withInputs rest s).cfg = s.cfg := rfl
@[simp] theorem withInputs_port (rest : List Input) (s : State) : (withInputs rest s).port = { s.port with inputs := rest } := rfl

@[simp] theorem assertReset_key (init : Memory) (s : State) : (assertReset init s).key = Block.zero := rfl
@[simp] theorem assertReset_iv (init : Memory) (s : State) : (assertReset init s).iv = Block.zero := rfl
@[simp] theorem assertReset_klen (init : Memory) (s : State) : (assertReset init s).klen = 0 := rfl
@[simp] theorem assertReset_ivlen (init : Memory) (s : State) : (assertReset init s).ivlen = 0 := rfl
@[simp] theorem assertReset_msglen (init : Memory) (s : State) : (assertReset init s).msglen = 0 := rfl
@[simp] theorem assertReset_mb (init : Memory) (s : State) : (assertReset init s).mb = init := rfl
@[simp] theorem assertReset_rk (init : Memory) (s : State) : (assertReset init s).rk = RoundKeys.zero := rfl
@[simp] theorem assertReset_clone (init : Memory) (s : State) : (assertReset init s).clone = Block.zero := rfl
@[simp] theorem assertReset_cmd (init : Memory) (s : State) : (assertReset init s).cmd = 0 := rfl
@[simp] theorem assertReset_done (init : Memory) (s : State) : (assertReset init s).done = false := rfl
@[simp] theorem assertReset_err (init : Memory) (s : State) : (assertReset init s).err = 0 := rfl
@[simp] theorem assertReset_ie (init : Memory) (s : State) : (assertReset init s).ie = false := rfl
@[simp] theorem assertReset_blk (init : Memory) (s : State) : (assertReset init s).blk = 0 := rfl
@[simp] theorem assertReset_bvsel (init : Memory) (s : State) : (assertReset init s).bvsel = 0 := rfl
@[simp] theorem assertReset_opa (init : Memory) (s : State) : (assertReset init s).opa = 0 := rfl
@[simp] theorem assertReset_opb (init : Memory) (s : State) : (assertReset init s).opb = 0 := rfl
@[simp] theorem assertReset_result (init : Memory) (s : State) : (assertReset init s).result = 0 := rfl
@[simp] theorem assertReset_seq (init : Memory) (s : State) : (assertReset init s).seq = { pending := false, bi := none } := rfl
@[simp] theorem assertReset_cfg (init : Memory) (s : State) : (assertReset init s).cfg = s.cfg := rfl
@[simp] theorem assertReset_port (init : Memory) (s : State) : (assertReset init s).port = { rst := true, held := none, inputs := s.port.inputs, trace := s.port.trace } := rfl

@[simp] theorem padMessage_key (s : State) : (padMessage s).key = s.key := rfl
@[simp] theorem padMessage_iv (s : State) : (padMessage s).iv = s.iv := rfl
@[simp] theorem padMessage_klen (s : State) : (padMessage s).klen = s.klen := rfl
@[simp] theorem padMessage_ivlen (s : State) : (padMessage s).ivlen = s.ivlen := rfl
@[simp] theorem padMessage_rk (s : State) : (padMessage s).rk = s.rk := rfl
@[simp] theorem padMessage_clone (s : State) : (padMessage s).clone = s.clone := rfl
@[simp] theorem padMessage_cmd (s : State) : (padMessage s).cmd = s.cmd := rfl
@[simp] theorem padMessage_done (s : State) : (padMessage s).done = s.done := rfl
@[simp] theorem padMessage_err (s : State) : (padMessage s).err = s.err := rfl
@[simp] theorem padMessage_ie (s : State) : (padMessage s).ie = s.ie := rfl
@[simp] theorem padMessage_blk (s : State) : (padMessage s).blk = s.blk := rfl
@[simp] theorem padMessage_bvsel (s : State) : (padMessage s).bvsel = s.bvsel := rfl
@[simp] theorem padMessage_opa (s : State) : (padMessage s).opa = s.opa := rfl
@[simp] theorem padMessage_opb (s : State) : (padMessage s).opb = s.opb := rfl
@[simp] theorem padMessage_result (s : State) : (padMessage s).result = s.result := rfl
@[simp] theorem padMessage_seq (s : State) : (padMessage s).seq = s.seq := rfl
@[simp] theorem padMessage_cfg (s : State) : (padMessage s).cfg = s.cfg := rfl
@[simp] theorem padMessage_port (s : State) : (padMessage s).port = s.port := rfl

/-- `busy` reads the sequencer's `pending` alone. -/
theorem busy_eq (s : State) : busy s = s.seq.pending := rfl

end Sys2Proof.Machine
end

