-- ==== Sys2Proof/Laws/Blocks.lean ====
section
/-! SUPPORT. Blocks and views: what reading and writing a block does to each space, in closed form. -/

namespace Sys2Proof.Machine

/-! ## Bytes of a block -/

theorem byteAt_lt (b : Block) {k : Nat} (h : k < 16) : byteAt b k = b[k] := by
  simp [byteAt, h]

/-- Two blocks with the same bytes are equal. -/
theorem block_ext {x y : Block} (h : ∀ k < 16, byteAt x k = byteAt y k) : x = y := by
  refine Vector.ext fun k hk => ?_
  have := h k hk
  rwa [byteAt_lt x hk, byteAt_lt y hk] at this

@[simp] theorem byteAt_ofFn (f : Fin 16 → Byte) {k : Nat} (h : k < 16) :
    byteAt (Vector.ofFn f) k = f ⟨k, h⟩ := by
  simp [byteAt, h]

theorem colRow_eq (b : Block) (c r : Fin 4) : colRow b c r = byteAt b (4 * c.val + r.val) := by
  rw [byteAt_lt _ (by omega)]; rfl

@[simp] theorem colRow_blockOf (f : Fin 4 → Fin 4 → Byte) (c r : Fin 4) :
    colRow (blockOf f) c r = f c r := by
  have hc : (4 * c.val + r.val) / 4 = c.val := by omega
  have hr : (4 * c.val + r.val) % 4 = r.val := by omega
  simp only [colRow, blockOf, Vector.getElem_ofFn, hc, hr, Fin.eta]

/-- Two blocks that agree at every column and row are equal. -/
theorem block_ext_colRow {x y : Block} (h : ∀ c r, colRow x c r = colRow y c r) : x = y := by
  refine Vector.ext fun k hk => ?_
  have := h ⟨k / 4, by omega⟩ ⟨k % 4, by omega⟩
  have hk' : 4 * (k / 4) + k % 4 = k := by omega
  simpa only [colRow, hk'] using this

theorem byteAt_blockOf (f : Fin 4 → Fin 4 → Byte) {k : Nat} (h : k < 16) :
    byteAt (blockOf f) k = f ⟨k / 4, by omega⟩ ⟨k % 4, by omega⟩ := by
  simp [blockOf, h]

@[simp] theorem byteAt_xorBlock (x y : Block) {k : Nat} (h : k < 16) :
    byteAt (xorBlock x y) k = byteAt x k ^^^ byteAt y k := by
  simp [xorBlock, byteAt_lt _ h]

theorem xorBlock_cancel (x y : Block) : xorBlock (xorBlock x y) y = x := by
  refine block_ext fun k hk => ?_
  simp [hk]

theorem xorBlock_comm (x y : Block) : xorBlock x y = xorBlock y x :=
  block_ext fun k hk => by simp [hk, BitVec.xor_comm]

/-! ## Blocks of the message buffer as memory -/

/-- The 16 bytes of MB from `base`. -/
def loadBlock (m : Memory) (base : Nat) : Block :=
  Vector.ofFn fun k : Fin 16 => Memory.read m (base + k.val)

/-- Sixteen byte writes to MB from `base`, in ascending order. -/
def storeBlock (m : Memory) (base : Nat) (b : Block) : Memory :=
  (List.range 16).foldl (fun m k => Memory.write m (base + k) (byteAt b k)) m

@[simp] theorem byteAt_loadBlock (m : Memory) (base : Nat) {k : Nat} (h : k < 16) :
    byteAt (loadBlock m base) k = Memory.read m (base + k) := by
  simp [loadBlock, h]

/-- `n` writes from `base` keep the canonical form and change exactly the `n` bytes. -/
theorem writes_spec {m : Memory} (hm : Memory.wf m = true) (base : Nat) (f : Nat → Byte) (n : Nat) :
    Memory.wf ((List.range n).foldl (fun m k => Memory.write m (base + k) (f k)) m) = true ∧
    ∀ a, Memory.read ((List.range n).foldl (fun m k => Memory.write m (base + k) (f k)) m) a =
      if base ≤ a ∧ a < base + n then f (a - base) else Memory.read m a := by
  induction n with
  | zero => exact ⟨hm, fun a => by rw [if_neg (by omega)]; rfl⟩
  | succ n ih =>
    simp only [List.range_succ, List.foldl_append, List.foldl_cons, List.foldl_nil]
    refine ⟨Memory.write_wf ih.1 _ _, fun a => ?_⟩
    rw [Memory.read_write ih.1, ih.2]
    by_cases h : a = base + n
    · subst h
      simp
    · rw [if_neg h]
      congr 1
      simp only [eq_iff_iff]
      omega

theorem writes_within {N : Nat} {m : Memory} (hm : Memory.within N m = true) (base : Nat) (f : Nat → Byte)
    (n : Nat) (h : base + n ≤ N) :
    Memory.within N ((List.range n).foldl (fun m k => Memory.write m (base + k) (f k)) m) = true := by
  induction n with
  | zero => exact hm
  | succ n ih =>
    simp only [List.range_succ, List.foldl_append, List.foldl_cons, List.foldl_nil]
    exact Memory.write_within (ih (by omega)) (by omega) _

theorem storeBlock_wf {m : Memory} (hm : Memory.wf m = true) (base : Nat) (b : Block) :
    Memory.wf (storeBlock m base b) = true := (writes_spec hm base (byteAt b) 16).1

theorem storeBlock_within {N : Nat} {m : Memory} (hm : Memory.within N m = true) {base : Nat}
    (h : base + 16 ≤ N) (b : Block) : Memory.within N (storeBlock m base b) = true :=
  writes_within hm base (byteAt b) 16 h

/-- Every byte of MB after storing a block: the block's inside it, as before outside it. -/
theorem read_storeBlock {m : Memory} (hm : Memory.wf m = true) (base : Nat) (b : Block) (a : Nat) :
    Memory.read (storeBlock m base b) a =
      if base ≤ a ∧ a < base + 16 then byteAt b (a - base) else Memory.read m a :=
  (writes_spec hm base (byteAt b) 16).2 a

theorem loadBlock_storeBlock_same {m : Memory} (hm : Memory.wf m = true) (base : Nat) (b : Block) :
    loadBlock (storeBlock m base b) base = b := by
  refine block_ext fun k hk => ?_
  rw [byteAt_loadBlock _ _ hk, read_storeBlock hm, if_pos (by omega)]
  congr 1
  omega

theorem loadBlock_storeBlock_disjoint {m : Memory} (hm : Memory.wf m = true) {base base' : Nat}
    (h : base + 16 ≤ base' ∨ base' + 16 ≤ base) (b : Block) :
    loadBlock (storeBlock m base b) base' = loadBlock m base' := by
  refine block_ext fun k hk => ?_
  rw [byteAt_loadBlock _ _ hk, byteAt_loadBlock _ _ hk, read_storeBlock hm, if_neg (by omega)]

/-- Blocks of MB, by index: a store to block `i` changes block `i` alone. -/
theorem loadBlock_storeBlock {m : Memory} (hm : Memory.wf m = true) (i j : Nat) (b : Block) :
    loadBlock (storeBlock m (16 * i) b) (16 * j) = if j = i then b else loadBlock m (16 * j) := by
  split
  · rename_i h; subst h; exact loadBlock_storeBlock_same hm _ _
  · exact loadBlock_storeBlock_disjoint hm (by omega) b

/-- Every byte of MB lies in one block. -/
theorem read_eq_loadBlock (m : Memory) (a : Nat) :
    Memory.read m a = byteAt (loadBlock m (16 * (a / 16))) (a % 16) := by
  rw [byteAt_loadBlock _ _ (by omega)]
  congr 1
  omega

/-! ## Reading and writing a block through a view -/

theorem readBlock_blockView (i : Nat) (s : State) : readBlock (blockView i) s = loadBlock s.mb (16 * i) := rfl

theorem readBlock_ivView (s : State) : readBlock ivView s = s.iv := by
  refine block_ext fun k hk => ?_
  simp [readBlock, ivView, spaceRead, hk]

theorem readBlock_cloneView (s : State) : readBlock cloneView s = s.clone := by
  refine block_ext fun k hk => ?_
  simp [readBlock, cloneView, spaceRead, hk]

theorem foldl_writeMb (base : Nat) (f : Nat → Byte) (l : List Nat) (s : State) :
    l.foldl (fun t k => spaceWrite .mb (base + k) (f k) t) s =
      { s with mb := l.foldl (fun m k => Memory.write m (base + k) (f k)) s.mb } := by
  induction l generalizing s with
  | nil => rfl
  | cons k l ih => rw [List.foldl_cons, ih]; rfl

theorem foldl_writeIv (f : Nat → Byte) (l : List Nat) (s : State) :
    l.foldl (fun t k => spaceWrite .iv (0 + k) (f k) t) s =
      { s with iv := l.foldl (fun (b : Block) k => b.setIfInBounds (0 + k) (f k)) s.iv } := by
  induction l generalizing s with
  | nil => rfl
  | cons k l ih => rw [List.foldl_cons, ih]; rfl

theorem foldl_writeClone (f : Nat → Byte) (l : List Nat) (s : State) :
    l.foldl (fun t k => spaceWrite .clone (0 + k) (f k) t) s =
      { s with clone := l.foldl (fun (b : Block) k => b.setIfInBounds (0 + k) (f k)) s.clone } := by
  induction l generalizing s with
  | nil => rfl
  | cons k l ih => rw [List.foldl_cons, ih]; rfl

/-- Writing all 16 bytes of a block one after another leaves the new block. -/
theorem foldl_setAll (x b : Block) :
    (List.range 16).foldl (fun (y : Block) k => y.setIfInBounds (0 + k) (byteAt b k)) x = b := by
  have key : ∀ n ≤ 16, ∀ j < 16,
      byteAt ((List.range n).foldl (fun (y : Block) k => y.setIfInBounds (0 + k) (byteAt b k)) x) j =
        if j < n then byteAt b j else byteAt x j := by
    intro n
    induction n with
    | zero => intro _ j _; simp
    | succ n ih =>
      intro hn j hj
      simp only [List.range_succ, List.foldl_append, List.foldl_cons, List.foldl_nil]
      have h := ih (by omega) j hj
      by_cases hjn : j = n
      · subst hjn
        simp [byteAt, hj]
      · rw [byteAt_lt _ hj] at h ⊢
        rw [Vector.getElem_setIfInBounds_ne hj (by omega), h]
        congr 1
        simp only [eq_iff_iff]
        omega
  exact block_ext fun j hj => by rw [key 16 (le_refl _) j hj, if_pos hj]

/-- A block written to block `i` of MB changes MB alone. -/
theorem writeBlock_blockView (i : Nat) (b : Block) (s : State) :
    writeBlock (blockView i) b s = { s with mb := storeBlock s.mb (16 * i) b } :=
  foldl_writeMb (16 * i) (byteAt b) (List.range 16) s

/-- A block written to `(IV, 0)` replaces IV. -/
theorem writeBlock_ivView (b : Block) (s : State) : writeBlock ivView b s = { s with iv := b } := by
  have h := foldl_writeIv (byteAt b) (List.range 16) s
  rw [foldl_setAll] at h
  exact h

/-- A block written to `(CLONE, 0)` replaces CLONE. -/
theorem writeBlock_cloneView (b : Block) (s : State) :
    writeBlock cloneView b s = { s with clone := b } := by
  have h := foldl_writeClone (byteAt b) (List.range 16) s
  rw [foldl_setAll] at h
  exact h

/-! ## The block operations on each space -/

theorem cloneFrom_blockView (i : Nat) (s : State) :
    cloneFrom (blockView i) s = { s with clone := loadBlock s.mb (16 * i) } := by
  rw [cloneFrom, blockCopy, readBlock_blockView, writeBlock_cloneView]

theorem encryptView_blockView (i : Nat) (s : State) :
    encryptView (blockView i) s =
      { s with mb := storeBlock s.mb (16 * i) (encryptBlock s.rk (loadBlock s.mb (16 * i))) } := by
  rw [encryptView, readBlock_blockView, writeBlock_blockView]

theorem decryptView_blockView (i : Nat) (s : State) :
    decryptView (blockView i) s =
      { s with mb := storeBlock s.mb (16 * i) (decryptBlock s.rk (loadBlock s.mb (16 * i))) } := by
  rw [decryptView, readBlock_blockView, writeBlock_blockView]

theorem encryptView_ivView (s : State) :
    encryptView ivView s = { s with iv := encryptBlock s.rk s.iv } := by
  rw [encryptView, readBlock_ivView, writeBlock_ivView]

theorem blockXor_iv (i : Nat) (s : State) :
    blockXor (blockView i) ivView s =
      { s with mb := storeBlock s.mb (16 * i) (xorBlock (loadBlock s.mb (16 * i)) s.iv) } := by
  rw [blockXor, readBlock_blockView, readBlock_ivView, writeBlock_blockView]

theorem blockXor_block (i j : Nat) (s : State) :
    blockXor (blockView i) (blockView j) s =
      { s with mb := storeBlock s.mb (16 * i) (xorBlock (loadBlock s.mb (16 * i)) (loadBlock s.mb (16 * j))) } := by
  rw [blockXor, readBlock_blockView, readBlock_blockView, writeBlock_blockView]

/-- What CBC XORs block `i` with. -/
theorem readBlock_cbcSource (i : Nat) (s : State) :
    readBlock (cbcSource i) s = if i = 0 then s.iv else loadBlock s.mb (16 * (i - 1)) := by
  unfold cbcSource
  split
  · rw [readBlock_ivView]
  · rw [readBlock_blockView]

theorem blockXor_cbcSource (i : Nat) (s : State) :
    blockXor (blockView i) (cbcSource i) s =
      { s with mb := storeBlock s.mb (16 * i) (xorBlock (loadBlock s.mb (16 * i))
          (if i = 0 then s.iv else loadBlock s.mb (16 * (i - 1)))) } := by
  rw [blockXor, readBlock_blockView, readBlock_cbcSource, writeBlock_blockView]

theorem blockCopy_iv_block (i : Nat) (s : State) :
    blockCopy ivView (blockView i) s = { s with iv := loadBlock s.mb (16 * i) } := by
  rw [blockCopy, readBlock_blockView, writeBlock_ivView]

theorem blockCopy_iv_clone (s : State) : blockCopy ivView cloneView s = { s with iv := s.clone } := by
  rw [blockCopy, readBlock_cloneView, writeBlock_ivView]

end Sys2Proof.Machine
end

