-- ==== Sys2Proof/Laws/Bus.lean ====
section
/-! SUPPORT. The address map, the halves of a 16-bit register, and what a bus write cannot change. -/

namespace Sys2Proof.Machine

/-- What a legal MB_BYTES is. -/
theorem legal_bounds {p : Config.Params} (h : p.legal = true) : p.mbBytes % 16 = 0 ∧ 16 ≤ p.mbBytes ∧ p.mbBytes ≤ 61440 := by
  simp [Config.Params.legal, Config.Params.blockAligned, Config.Params.holdsABlock, Config.Params.fitsTheWindow] at h
  omega

theorem locate_key (p : Config.Params) (k : Nat) (h : k < 16) : locate p (BitVec.ofNat 16 (0x0020 + k)) = .key k := by
  unfold locate; rw [BitVec.toNat_ofNat, Nat.mod_eq_of_lt (by omega)]
  rw [if_neg (by omega), if_pos (by omega)]; exact congrArg _ (Nat.add_sub_cancel_left ..)

theorem locate_iv (p : Config.Params) (k : Nat) (h : k < 16) : locate p (BitVec.ofNat 16 (0x0030 + k)) = .iv k := by
  unfold locate; rw [BitVec.toNat_ofNat, Nat.mod_eq_of_lt (by omega)]
  rw [if_neg (by omega), if_neg (by omega), if_pos (by omega)]; exact congrArg _ (Nat.add_sub_cancel_left ..)

theorem locate_rk (p : Config.Params) (k : Nat) (h : k < 176) : locate p (BitVec.ofNat 16 (0x0100 + k)) = .rk k := by
  unfold locate; rw [BitVec.toNat_ofNat, Nat.mod_eq_of_lt (by omega)]
  rw [if_neg (by omega), if_neg (by omega), if_neg (by omega), if_neg (by omega), if_pos (by omega)]; exact congrArg _ (Nat.add_sub_cancel_left ..)

theorem locate_mb (p : Config.Params) (hp : p.legal = true) (k : Nat) (h : k < p.mbBytes) : locate p (BitVec.ofNat 16 (0x1000 + k)) = .mb k := by
  have := legal_bounds hp
  unfold locate; rw [BitVec.toNat_ofNat, Nat.mod_eq_of_lt (by omega)]
  rw [if_neg (by omega), if_neg (by omega), if_neg (by omega), if_neg (by omega), if_neg (by omega), if_neg (by omega), if_pos (by omega)]; exact congrArg _ (Nat.add_sub_cancel_left ..)

theorem registerAt_reserved {n : Nat} (h : 0xF ≤ n) : registerAt n = .reserved := by
  unfold registerAt; split <;> first | omega | rfl

theorem locate_reserved (p : Config.Params) (addr : Half) (h : (0x000F ≤ addr.toNat ∧ addr.toNat ≤ 0x001F) ∨ (0x0040 ≤ addr.toNat ∧ addr.toNat ≤ 0x00FF) ∨
        (0x01B0 ≤ addr.toNat ∧ addr.toNat ≤ 0x0FFF) ∨ 0x1000 + p.mbBytes ≤ addr.toNat) : locate p addr = .reserved := by
  unfold locate
  split
  · apply registerAt_reserved; omega
  split; · omega
  split; · omega
  split; · rfl
  split; · omega
  split; · rfl
  split; · omega
  rfl

/-- Where an address can stand. -/
theorem locate_cases (p : Config.Params) (a : Half) : 
   (a.toNat < 0x20 ∧ locate p a = registerAt a.toNat) ∨ (0x20 ≤ a.toNat ∧ a.toNat < 0x30 ∧ locate p a = .key (a.toNat - 0x20)) ∨
   (0x30 ≤ a.toNat ∧ a.toNat < 0x40 ∧ locate p a = .iv (a.toNat - 0x30)) ∨
   (0x100 ≤ a.toNat ∧ a.toNat < 0x1B0 ∧ locate p a = .rk (a.toNat - 0x100)) ∨
   (0x1000 ≤ a.toNat ∧ a.toNat < 0x1000 + p.mbBytes ∧ locate p a = .mb (a.toNat - 0x1000)) ∨ 
   (((0x40 ≤ a.toNat ∧ a.toNat < 0x100) ∨ (0x1B0 ≤ a.toNat ∧ a.toNat < 0x1000) ∨ 0x1000 + p.mbBytes ≤ a.toNat) ∧ locate p a = .reserved) := by
  by_cases h1 : a.toNat < 0x20
  · exact .inl ⟨h1, if_pos h1⟩
  unfold locate; rw [if_neg h1]
  by_cases h2 : a.toNat < 0x30
  · rw [if_pos h2]; exact .inr (.inl ⟨by omega, h2, rfl⟩)
  rw [if_neg h2]
  by_cases h3 : a.toNat < 0x40
  · rw [if_pos h3]; exact .inr (.inr (.inl ⟨by omega, h3, rfl⟩))
  rw [if_neg h3]
  by_cases h4 : a.toNat < 0x100
  · rw [if_pos h4]; exact .inr (.inr (.inr (.inr (.inr ⟨by omega, rfl⟩))))
  rw [if_neg h4]
  by_cases h5 : a.toNat < 0x1B0
  · rw [if_pos h5]; exact .inr (.inr (.inr (.inl ⟨by omega, h5, rfl⟩)))
  rw [if_neg h5]
  by_cases h6 : a.toNat < 0x1000
  · rw [if_pos h6]; exact .inr (.inr (.inr (.inr (.inr ⟨by omega, rfl⟩))))
  rw [if_neg h6]
  by_cases h7 : a.toNat < 0x1000 + p.mbBytes
  · rw [if_pos h7]; exact .inr (.inr (.inr (.inr (.inl ⟨by omega, h7, rfl⟩))))
  rw [if_neg h7]; exact .inr (.inr (.inr (.inr (.inr ⟨by omega, rfl⟩))))

theorem registerAt_inj {m n : Nat} (h : m < 15) (h' : n < 15) (e : m ≠ n) : registerAt m ≠ registerAt n := by
  have : ∀ m < 15, ∀ n < 15, m ≠ n → registerAt m ≠ registerAt n := by decide
  exact this m h n h' e

/-- Two addresses name two things, unless they are reserved. -/
theorem locate_inj (p : Config.Params) {a b : Half} (h : a ≠ b) : locate p a ≠ locate p b ∨ locate p a = .reserved := by
  have hab : a.toNat ≠ b.toNat := fun h' => h (BitVec.eq_of_toNat_eq h')
  have reg : ∀ n, n < 0x20 → registerAt n = .reserved ∨ n < 15 := fun n hn => by
    by_cases h : n < 15
    · exact .inr h
    · exact .inl (registerAt_reserved (by omega))
  have hr : ∀ n, n < 15 → (∀ k, registerAt n ≠ .key k) ∧ (∀ k, registerAt n ≠ .iv k) ∧ (∀ k, registerAt n ≠ .rk k) ∧ (∀ k, registerAt n ≠ .mb k) ∧ registerAt n ≠ .reserved := by
    intro n hn
    interval_cases n <;> simp [registerAt]
  rcases locate_cases p a with ⟨h1, e1⟩ | ⟨_, _, e1⟩ | ⟨_, _, e1⟩ | ⟨_, _, e1⟩ | ⟨_, _, e1⟩ | ⟨_, e1⟩ <;>
  rcases locate_cases p b with ⟨h2, e2⟩ | ⟨_, _, e2⟩ | ⟨_, _, e2⟩ | ⟨_, _, e2⟩ | ⟨_, _, e2⟩ | ⟨_, e2⟩ <;> rw [e1, e2]
  all_goals first
    | exact .inr rfl
    | (left; simp only [ne_eq, reduceCtorEq, not_false_eq_true]; done)
    | (left; intro hh; rw [Location.key.injEq] at hh; omega)
    | (left; intro hh; rw [Location.iv.injEq] at hh; omega)
    | (left; intro hh; rw [Location.rk.injEq] at hh; omega)
    | (left; intro hh; rw [Location.mb.injEq] at hh; omega)
    | skip
  · rcases reg _ h1 with h | h
    · exact .inr h
    rcases reg _ h2 with h' | h'
    · rw [h']; exact .inl (hr _ h).2.2.2.2
    exact .inl (registerAt_inj h h' hab)
  all_goals first
    | (rcases reg _ h1 with h | h
       · exact .inr h
       · left; intro hh; first | exact (hr _ h).1 _ hh | exact (hr _ h).2.1 _ hh | exact (hr _ h).2.2.1 _ hh | exact (hr _ h).2.2.2.1 _ hh | exact (hr _ h).2.2.2.2 hh)
    | (rcases reg _ h2 with h | h
       · rw [h]; left; intro hh; cases hh
       · left; intro hh; first | exact (hr _ h).1 _ hh.symm | exact (hr _ h).2.1 _ hh.symm | exact (hr _ h).2.2.1 _ hh.symm | exact (hr _ h).2.2.2.1 _ hh.symm )

theorem locate_eq_cmd {p : Config.Params} {a : Half} (h : locate p a = .cmd) : a = 0x0000 := by
  rcases locate_cases p a with ⟨h1, e1⟩ | ⟨_, _, e1⟩ | ⟨_, _, e1⟩ | ⟨_, _, e1⟩ | ⟨_, _, e1⟩ | ⟨_, e1⟩ <;> rw [e1] at h
  · have : a.toNat = 0 := by revert h; generalize a.toNat = n; unfold registerAt; split <;> simp
    exact BitVec.eq_of_toNat_eq this
  all_goals cases h

theorem locate_eq_status {p : Config.Params} {a : Half} (h : locate p a = .status) : a = 0x0001 := by
  rcases locate_cases p a with ⟨h1, e1⟩ | ⟨_, _, e1⟩ | ⟨_, _, e1⟩ | ⟨_, _, e1⟩ | ⟨_, _, e1⟩ | ⟨_, e1⟩ <;> rw [e1] at h
  · have : a.toNat = 1 := by revert h; generalize a.toNat = n; unfold registerAt; split <;> simp
    exact BitVec.eq_of_toNat_eq this
  all_goals cases h

theorem locate_eq_bvdata {p : Config.Params} {a : Half} (h : locate p a = .bvdata) : a = 0x000B := by
  rcases locate_cases p a with ⟨h1, e1⟩ | ⟨_, _, e1⟩ | ⟨_, _, e1⟩ | ⟨_, _, e1⟩ | ⟨_, _, e1⟩ | ⟨_, e1⟩ <;> rw [e1] at h
  · have : a.toNat = 11 := by revert h; generalize a.toNat = n; unfold registerAt; split <;> simp
    exact BitVec.eq_of_toNat_eq this
  all_goals cases h

theorem lowByte_append (a b : Byte) : lowByte (a ++ b) = b := by
  apply BitVec.eq_of_getLsbD_eq; intro i hi; simp only [lowByte, BitVec.getLsbD_extractLsb', BitVec.getLsbD_append]; simp [hi]

theorem highByte_append (a b : Byte) : highByte (a ++ b) = a := by
  apply BitVec.eq_of_getLsbD_eq; intro i hi; simp only [highByte, BitVec.getLsbD_extractLsb', BitVec.getLsbD_append]; simp [hi]

theorem highByte_append_lowByte (w : Half) : highByte w ++ lowByte w = w := by
  apply BitVec.eq_of_getLsbD_eq; intro i hi; simp only [highByte, lowByte, BitVec.getLsbD_extractLsb', BitVec.getLsbD_append]
  by_cases h : i < 8
  · simp [h]
  · simp only [h, if_false]
    rw [show 8 + (i - 8) = i by omega]; simp; intro; omega

theorem writeLocation_cfg (l : Location) (v : Byte) (s : State) : (writeLocation v s l).cfg = s.cfg := by
  cases l <;> try rfl
  · simp only [writeLocation]; unfold writeStatus; split <;> rfl
  · simp only [writeLocation]; unfold bvWrite; split <;> try rfl
    unfold viewWrite spaceWrite; split <;> rfl

/-- A bus write neither reads nor writes the outside world. -/
theorem busWrite_withPort (a : Half) (v : Byte) (s : State) (p : Port) :
    busWrite a v { s with port := p } = { busWrite a v s with port := p } := by
  unfold busWrite
  show writeLocation v _ (locate s.cfg a) = _
  cases locate s.cfg a <;> try rfl
  · show writeStatus v _ = { writeStatus v s with port := p }
    unfold writeStatus; split <;> rfl
  · show bvWrite v _ = { bvWrite v s with port := p }
    have hv : bvView { s with port := p } = bvView s := rfl
    unfold bvWrite
    rw [hv]
    cases bvView s with
    | none => rfl
    | some V =>
      show viewWrite V (bvCol s) (bvRow s) v { s with port := p } = { viewWrite V (bvCol s) (bvRow s) v s with port := p }
      unfold viewWrite spaceWrite; split <;> rfl

/-- Only a write to CMD starts a command. -/
theorem busy_busWrite {a : Half} (ha : a ≠ 0x0000) (v : Byte) (s : State) : busy (busWrite a v s) = busy s := by
  unfold busWrite
  have hc : locate s.cfg a ≠ .cmd := fun h => ha (locate_eq_cmd h)
  revert hc
  cases locate s.cfg a <;> intro hc <;> simp only [writeLocation] <;> try rfl
  · exact absurd rfl hc
  · unfold writeStatus; split <;> rfl
  · unfold bvWrite; split <;> try rfl
    unfold viewWrite spaceWrite; split <;> rfl

end Sys2Proof.Machine
end

