-- ==== Sys2Proof/Laws/Cipher.lean ====
section
/-! SUPPORT. The data path: xtime and gmul by bits, the words of the key schedule by their recurrence, blocks by column and row. -/

namespace Sys2Proof.Machine

theorem xor_cancel_common (p q z : Byte) : (p ^^^ z) ^^^ (q ^^^ z) = p ^^^ q := by
  apply BitVec.eq_of_getLsbD_eq; intro i _; simp only [BitVec.getLsbD_xor]
  cases p.getLsbD i <;> cases q.getLsbD i <;> cases z.getLsbD i <;> rfl

/-- xtime is linear. -/
theorem xtime_xor (x y : Byte) : xtime (x ^^^ y) = xtime x ^^^ xtime y := by
  unfold xtime
  rw [BitVec.getLsbD_xor, BitVec.shiftLeft_xor_distrib]
  cases x.getLsbD 7 <;> cases y.getLsbD 7 <;> simp [xor_cancel_common] <;> ac_rfl

theorem gmulLoop_acc (n : Nat) (acc a b : Byte) : gmulLoop n acc a b = acc ^^^ gmulLoop n 0 a b := by
  induction n generalizing acc a b with
  | zero => simp [gmulLoop]
  | succ n ih =>
    simp only [gmulLoop]
    split
    · rw [ih]; conv_rhs => rw [ih]
      split <;> simp [BitVec.xor_assoc]
    · simp

theorem gmulLoop_bits (n : Nat) (acc a b : Byte) : n ≤ 8 → b.toNat < 2^n → gmulLoop n acc a b = (List.range n).foldl
      (fun acc i => if b.getLsbD i then acc ^^^ xtime^[i] a else acc) acc := by
  have zero : ∀ n (acc : Byte) (b : Byte), (List.range n).foldl (fun acc i => if b.getLsbD i then acc ^^^ xtime^[i] 0 else acc) acc = acc := by
    intro n acc b
    induction n with
    | zero => rfl
    | succ n ih =>
      rw [List.range_succ, List.foldl_append, ih]
      have : xtime^[n] 0 = 0 := by
        clear ih; induction n with
        | zero => rfl
        | succ n ih => rw [Function.iterate_succ_apply']; rw [ih]; rfl
      rw [List.foldl_cons, List.foldl_nil, this]; split <;> simp
  induction n generalizing acc a b with
  | zero => intros; rfl
  | succ n ih =>
    intro hn hb
    simp only [gmulLoop]
    by_cases ha : a = 0
    · subst ha; rw [if_neg (by simp), zero]
    by_cases hb0 : b = 0
    · subst hb0
      rw [if_neg (by simp)]
      clear ih hb hn
      generalize List.range (n+1) = l
      induction l with
      | nil => rfl
      | cons x l ih => simpa using ih
    rw [if_pos ⟨ha, hb0⟩, ih _ _ _ (by omega) (by rw [BitVec.toNat_ushiftRight]; rw [Nat.shiftRight_eq_div_pow]; omega)]
    rw [List.range_succ_eq_map, List.foldl_cons, List.foldl_map]
    congr 1
    · funext acc i
      rw [BitVec.getLsbD_ushiftRight, Nat.add_comm]; rfl

/-- gmul as a sum of doublings. -/
theorem gmul_bits (a b : Byte) : gmul a b = (List.range 8).foldl (fun acc i => if b.getLsbD i then acc ^^^ xtime^[i] a else acc) 0 :=
  gmulLoop_bits 8 0 a b (by omega) b.isLt

theorem scheduleWords_length (key : Block) (n : Nat) : (scheduleWords key n).length = n := by
  induction n with
  | zero => rfl
  | succ n ih => simp [scheduleWords, ih]

theorem wordIn_scheduleWords (key : Block) {m n : Nat} (h : n < m) : wordIn (scheduleWords key m) n = nextWord key (scheduleWords key n) n := by
  induction m with
  | zero => omega
  | succ m ih =>
    simp only [scheduleWords, wordIn, List.getD_eq_getElem?_getD]
    by_cases hn : n < m
    · rw [List.getElem?_append_left (by rw [scheduleWords_length]; exact hn)]
      exact ih hn
    · have : n = m := by omega
      subst this
      rw [List.getElem?_append_right (by rw [scheduleWords_length])]
      simp [scheduleWords_length]

/-- The recurrence of 42_key_schedule.md R103. -/
theorem scheduleWord_eq (key : Block) {n : Nat} (h : n < 44) : scheduleWord key n = if n < 4 then wordOfKey key n
  else if n % 4 = 0 then
    xorWord (xorWord (scheduleWord key (n - 4)) (roundConstant (n / 4)))
      (substituteWord (rotateWord (scheduleWord key (n - 1))))
  else xorWord (scheduleWord key (n - 4)) (scheduleWord key (n - 1)) := by
  unfold scheduleWord Config.roundCount
  rw [wordIn_scheduleWords key (by omega : n < 4 * 11)]
  unfold nextWord
  by_cases h4 : n < 4
  · simp [h4]
  · rw [wordIn_scheduleWords key (by omega : n - 4 < n), wordIn_scheduleWords key (by omega : n - 1 < n), wordIn_scheduleWords key (by omega : n - 1 < 4*11), wordIn_scheduleWords key (by omega : n - 4 < 4*11)]

/-- `RK[4n + k] = W[n][k]`. -/
theorem expand_get (key : Block) (n k : Nat) (hn : n < 44) (hk : k < 4) : (expand key)[4*n+k] = (scheduleWord key n)[k] := by
  unfold expand
  rw [Vector.getElem_ofFn]
  simp only [show (4*n+k)/4 = n by omega, show (4*n+k)%4 = k by omega]

theorem getElem_eq_colRow (b : Block) (k : Nat) (hk : k < 16) : b[k] = colRow b ⟨k/4, by omega⟩ ⟨k%4, by omega⟩ := by
  unfold colRow; congr 1; simp; omega

theorem getElem_blockOf (f) (k : Nat) (hk : k < 16) : (blockOf f)[k] = f ⟨k/4, by omega⟩ ⟨k%4, by omega⟩ := by
  unfold blockOf; rw [Vector.getElem_ofFn]

end Sys2Proof.Machine
end

