-- ==== Sys2Proof/Laws/Commands.lean ====
section
/-! SUPPORT. What a command does: exec in one equation, padding, each block-loop body in closed form, and what every command leaves. -/

namespace Sys2Proof.Machine

/-! ## One equation for exec -/

/-- The execute step of each command, as its meaning gives it. -/
def work : Instr → State → State
  | .encEcb => ecbFrame ascending encEcbBlock
  | .encCbc => chainFrame ascending encCbcBlock
  | .encOfb => chainFrame ascending ofbBlock
  | .encCfb => chainFrame ascending encCfbBlock
  | .decEcb => ecbFrame ascending decEcbBlock
  | .decCbc => chainFrame descending decCbcBlock
  | .decOfb => chainFrame ascending ofbBlock
  | .decCfb => chainFrame ascending decCfbBlock
  | .kexp => expandKey
  | .encb => fun t => encryptView (blkView t) (expandKey t)
  | .decb => fun t => decryptView (blkView t) (expandKey t)
  | .gfmul => fun t => setResult (gmul t.opa t.opb) t
  | .xtime => fun t => setResult (xtime t.opa) t
  | .sbox => fun t => setResult (sbox t.opa) t
  | .isbox => fun t => setResult (invSbox t.opa) t
  | .clone => fun t => cloneFrom (blkView t) t

theorem exec_eq (i : Instr) (s : State) : exec i s = runCommand (encode i) (work i) s := by
  cases i <;> rfl

/-- A command that passes its checks does its work and completes. -/
theorem exec_pass {i : Instr} {s : State} (h : errmask (encode i) s = 0) :
    exec i s = .next (completeCommand (work i s)) := by
  rw [exec_eq, runCommand, if_pos h]

/-- A command that fails a check takes the failure path. -/
theorem exec_fail {i : Instr} {s : State} (h : errmask (encode i) s ≠ 0) :
    exec i s = .next (failCommand (errmask (encode i) s) s) := by
  rw [exec_eq, runCommand, if_neg h]

/-! ## Padding -/

theorem blockCount_le {s : State} : s.msglen.toNat ≤ 16 * blockCount s := by
  unfold blockCount; omega

theorem lt_blockCount {s : State} : 16 * blockCount s < s.msglen.toNat + 16 := by
  unfold blockCount; omega

theorem foldl_zeroes (m : Memory) (start len : Nat) :
    (List.range' start len).foldl (fun m a => Memory.write m a 0x00) m =
      (List.range len).foldl (fun m k => Memory.write m (start + k) 0x00) m := by
  rw [List.range'_eq_map_range, List.foldl_map]

theorem padMessage_mb (s : State) : (padMessage s).mb =
    (List.range (16 * blockCount s - s.msglen.toNat)).foldl
      (fun m k => Memory.write m (s.msglen.toNat + k) 0x00) s.mb :=
  foldl_zeroes _ _ _

theorem padMessage_wf {s : State} (h : Memory.wf s.mb = true) : Memory.wf (padMessage s).mb = true := by
  rw [padMessage_mb]; exact (writes_spec h _ (fun _ => 0x00) _).1

theorem padMessage_within {s : State} {n : Nat} (h : Memory.within n s.mb = true)
    (hn : 16 * blockCount s ≤ n) : Memory.within n (padMessage s).mb = true := by
  rw [padMessage_mb]
  have := @blockCount_le s
  exact writes_within h _ (fun _ => 0x00) _ (by omega)

/-- Every byte of MB after padding (45_modes.md R140 step 2). -/
theorem read_padMessage {s : State} (h : Memory.wf s.mb = true) (a : Nat) :
    Memory.read (padMessage s).mb a =
      if s.msglen.toNat ≤ a ∧ a < 16 * blockCount s then 0x00 else Memory.read s.mb a := by
  have := @blockCount_le s
  rw [padMessage_mb, (writes_spec h _ (fun _ => 0x00) _).2]
  congr 1
  simp only [eq_iff_iff]
  omega

/-- The blocks of the message after padding. -/
theorem loadBlock_padMessage {s : State} (h : Memory.wf s.mb = true) {i : Nat} (hi : i < blockCount s) :
    loadBlock (padMessage s).mb (16 * i) = paddedBlock s i := by
  refine block_ext fun k hk => ?_
  rw [byteAt_loadBlock _ _ hk, read_padMessage h, paddedBlock, byteAt_ofFn _ hk]
  simp only [mbByte]
  by_cases hlt : 16 * i + k < s.msglen.toNat
  · rw [if_neg (by omega), if_pos hlt]
  · rw [if_pos (by omega), if_neg hlt]

/-- The blocks beyond the message are as they were. -/
theorem loadBlock_padMessage_beyond {s : State} (h : Memory.wf s.mb = true) {i : Nat} (hi : blockCount s ≤ i) :
    loadBlock (padMessage s).mb (16 * i) = loadBlock s.mb (16 * i) := by
  refine block_ext fun k hk => ?_
  rw [byteAt_loadBlock _ _ hk, byteAt_loadBlock _ _ hk, read_padMessage h, if_neg (by omega)]

/-! ## The bodies of the block loops in closed form -/

/-- A second store to the same block replaces the first. -/
theorem storeBlock_storeBlock {m : Memory} (hm : Memory.wf m = true) (base : Nat) (x y : Block) :
    storeBlock (storeBlock m base x) base y = storeBlock m base y := by
  have h1 := storeBlock_wf hm base x
  refine Memory.ext_of_wf (storeBlock_wf h1 base y) (storeBlock_wf hm base y) fun a => ?_
  rw [read_storeBlock h1, read_storeBlock hm, read_storeBlock hm]
  split <;> rfl

theorem encCbcBlock_eq {s : State} (h : Memory.wf s.mb = true) (i : Nat) :
    encCbcBlock i s = { s with mb := storeBlock s.mb (16 * i) (encryptBlock s.rk (xorBlock
      (loadBlock s.mb (16 * i)) (if i = 0 then s.iv else loadBlock s.mb (16 * (i - 1))))) } := by
  rw [encCbcBlock, blockXor_cbcSource, encryptView_blockView]
  simp only [loadBlock_storeBlock_same h, storeBlock_storeBlock h]

theorem decCbcBlock_eq {s : State} (h : Memory.wf s.mb = true) (i : Nat) :
    decCbcBlock i s = { s with mb := storeBlock s.mb (16 * i) (xorBlock
      (decryptBlock s.rk (loadBlock s.mb (16 * i)))
      (if i = 0 then s.iv else loadBlock s.mb (16 * (i - 1)))) } := by
  rw [decCbcBlock, decryptView_blockView, blockXor_cbcSource]
  simp only [loadBlock_storeBlock_same h, storeBlock_storeBlock h]
  by_cases hi : i = 0
  · simp only [hi, if_true]
  · simp only [hi, if_false]
    rw [loadBlock_storeBlock_disjoint h (by omega)]

theorem ofbBlock_eq (i : Nat) (s : State) :
    ofbBlock i s = { s with
      iv := encryptBlock s.rk s.iv
      mb := storeBlock s.mb (16 * i) (xorBlock (loadBlock s.mb (16 * i)) (encryptBlock s.rk s.iv)) } := by
  rw [ofbBlock, encryptView_ivView, blockXor_iv]

theorem encCfbBlock_eq {s : State} (h : Memory.wf s.mb = true) (i : Nat) :
    encCfbBlock i s = { s with
      iv := xorBlock (loadBlock s.mb (16 * i)) (encryptBlock s.rk s.iv)
      mb := storeBlock s.mb (16 * i) (xorBlock (loadBlock s.mb (16 * i)) (encryptBlock s.rk s.iv)) } := by
  rw [encCfbBlock, encryptView_ivView, blockXor_iv, blockCopy_iv_block]
  simp only [loadBlock_storeBlock_same h]

theorem decCfbBlock_eq (i : Nat) (s : State) :
    decCfbBlock i s = { s with
      iv := loadBlock s.mb (16 * i)
      clone := loadBlock s.mb (16 * i)
      mb := storeBlock s.mb (16 * i) (xorBlock (loadBlock s.mb (16 * i)) (encryptBlock s.rk s.iv)) } := by
  rw [decCfbBlock, cloneFrom_blockView, encryptView_ivView, blockXor_iv, blockCopy_iv_clone]

/-! ## The block loop -/

/-- A loop over the first `n + 1` blocks is a loop over the first `n`, then the body at block `n`. -/
theorem ascending_succ (body : Nat → State → State) (n : Nat) (s : State) :
    (ascending (n + 1)).foldl (atBlock body) s =
      atBlock body ((ascending n).foldl (atBlock body) s) n := by
  simp [ascending, List.range_succ]

/-- A descending loop over `n + 1` blocks is the body at block `n`, then a descending loop over `n`. -/
theorem descending_succ (body : Nat → State → State) (n : Nat) (s : State) :
    (descending (n + 1)).foldl (atBlock body) s =
      (descending n).foldl (atBlock body) (atBlock body s n) := by
  simp [descending, List.range_succ]

/-- What holds before the loop and is kept at every block holds after it. -/
theorem foldl_atBlock_induction {body : Nat → State → State} {P : State → Prop} {order : List Nat} {s : State}
    (h0 : P s) (hstep : ∀ i ∈ order, ∀ t, P t → P (atBlock body t i)) :
    P (order.foldl (atBlock body) s) := by
  induction order generalizing s with
  | nil => exact h0
  | cons i order ih =>
    exact ih (hstep i (by simp) s h0) fun j hj t ht => hstep j (by simp [hj]) t ht

/-! ## What every command leaves alone -/

/-- `t` differs from `s` at most in what the data path of a command writes (30_encoding.md R65): MB, MSGLEN, RK, IV,
IVLEN, CLONE, RESULT and the block index. -/
def DataPathOnly (s t : State) : Prop :=
  t = { s with
    mb := t.mb, msglen := t.msglen, rk := t.rk, iv := t.iv, ivlen := t.ivlen
    clone := t.clone, result := t.result, seq := { s.seq with bi := t.seq.bi } }

theorem DataPathOnly.refl (s : State) : DataPathOnly s s := by simp [DataPathOnly]

theorem DataPathOnly.trans {s t u : State} (h : DataPathOnly s t) (h' : DataPathOnly t u) :
    DataPathOnly s u := by
  unfold DataPathOnly at *
  rw [h'] ; rw [h]

/-- Sequencing form: the pieces of a command each write the data path only. -/
theorem dataPathOnly_writeBlock (V : View) (b : Block) (s : State) : DataPathOnly s (writeBlock V b s) := by
  unfold writeBlock
  generalize List.range 16 = l
  induction l generalizing s with
  | nil => exact DataPathOnly.refl s
  | cons k l ih =>
    refine DataPathOnly.trans ?_ (ih _)
    unfold spaceWrite
    cases V.space <;> simp [DataPathOnly]

theorem dataPathOnly_encryptView (V : View) (s : State) : DataPathOnly s (encryptView V s) :=
  dataPathOnly_writeBlock _ _ _

theorem dataPathOnly_decryptView (V : View) (s : State) : DataPathOnly s (decryptView V s) :=
  dataPathOnly_writeBlock _ _ _

theorem dataPathOnly_blockXor (V W : View) (s : State) : DataPathOnly s (blockXor V W s) :=
  dataPathOnly_writeBlock _ _ _

theorem dataPathOnly_blockCopy (V W : View) (s : State) : DataPathOnly s (blockCopy V W s) :=
  dataPathOnly_writeBlock _ _ _

theorem dataPathOnly_expandKey (s : State) : DataPathOnly s (expandKey s) := by
  simp [DataPathOnly, expandKey]

/-- The body of a block loop writes the data path only. -/
def BodyDataPathOnly (body : Nat → State → State) : Prop := ∀ i s, DataPathOnly s (body i s)

theorem bodyDataPathOnly_encEcb : BodyDataPathOnly encEcbBlock := fun _ _ => dataPathOnly_encryptView _ _

theorem bodyDataPathOnly_decEcb : BodyDataPathOnly decEcbBlock := fun _ _ => dataPathOnly_decryptView _ _

theorem bodyDataPathOnly_encCbc : BodyDataPathOnly encCbcBlock := fun _ _ =>
  (dataPathOnly_blockXor _ _ _).trans (dataPathOnly_encryptView _ _)

theorem bodyDataPathOnly_decCbc : BodyDataPathOnly decCbcBlock := fun _ _ =>
  (dataPathOnly_decryptView _ _).trans (dataPathOnly_blockXor _ _ _)

theorem bodyDataPathOnly_ofb : BodyDataPathOnly ofbBlock := fun _ _ =>
  (dataPathOnly_encryptView _ _).trans (dataPathOnly_blockXor _ _ _)

theorem bodyDataPathOnly_encCfb : BodyDataPathOnly encCfbBlock := fun _ _ =>
  ((dataPathOnly_encryptView _ _).trans (dataPathOnly_blockXor _ _ _)).trans (dataPathOnly_blockCopy _ _ _)

theorem bodyDataPathOnly_decCfb : BodyDataPathOnly decCfbBlock := fun _ _ =>
  (((dataPathOnly_blockCopy _ _ _).trans (dataPathOnly_encryptView _ _)).trans
    (dataPathOnly_blockXor _ _ _)).trans (dataPathOnly_blockCopy _ _ _)

theorem dataPathOnly_ecbFrame {body : Nat → State → State} (h : BodyDataPathOnly body)
    (order : Nat → List Nat) (s : State) : DataPathOnly s (ecbFrame order body s) := by
  unfold ecbFrame blockLoop
  have hpad : DataPathOnly s (expandKey (padMessage s)) :=
    DataPathOnly.trans (by simp [DataPathOnly, padMessage]) (dataPathOnly_expandKey _)
  have hloop := foldl_atBlock_induction (body := body) (P := DataPathOnly s)
    (order := order (blockCount s)) hpad fun i _ t ht =>
      (ht.trans (by simp [DataPathOnly])).trans (h i { t with seq := { t.seq with bi := some i } })
  exact hloop.trans (by simp [DataPathOnly])

theorem dataPathOnly_chainFrame {body : Nat → State → State} (h : BodyDataPathOnly body)
    (order : Nat → List Nat) (s : State) : DataPathOnly s (chainFrame order body s) :=
  (dataPathOnly_ecbFrame h order s).trans (by simp [DataPathOnly, chainFrame])

/-- The execute step of every command writes the data path only: no command writes KEY, KLEN, CMD, BLK, BVSEL, OPA, OPB,
IE, DONE, ERR, `pending`, the parameters or the outside world (30_encoding.md R65). -/
theorem dataPathOnly_work (i : Instr) (s : State) : DataPathOnly s (work i s) := by
  cases i <;> simp only [work]
  case encEcb => exact dataPathOnly_ecbFrame bodyDataPathOnly_encEcb _ _
  case encCbc => exact dataPathOnly_chainFrame bodyDataPathOnly_encCbc _ _
  case encOfb => exact dataPathOnly_chainFrame bodyDataPathOnly_ofb _ _
  case encCfb => exact dataPathOnly_chainFrame bodyDataPathOnly_encCfb _ _
  case decEcb => exact dataPathOnly_ecbFrame bodyDataPathOnly_decEcb _ _
  case decCbc => exact dataPathOnly_chainFrame bodyDataPathOnly_decCbc _ _
  case decOfb => exact dataPathOnly_chainFrame bodyDataPathOnly_ofb _ _
  case decCfb => exact dataPathOnly_chainFrame bodyDataPathOnly_decCfb _ _
  case kexp => exact dataPathOnly_expandKey _
  case encb => exact (dataPathOnly_expandKey _).trans (dataPathOnly_encryptView _ _)
  case decb => exact (dataPathOnly_expandKey _).trans (dataPathOnly_decryptView _ _)
  case clone => exact dataPathOnly_blockCopy _ _ _
  all_goals simp [DataPathOnly, setResult]

end Sys2Proof.Machine
end

