-- ==== Sys2Proof/Laws/Errors.lean ====
section
/-! SUPPORT. The error mask of each command in closed form (60_exceptions.md R177). -/

namespace Sys2Proof.Machine

theorem keyLengthBad_eq (s : State) : keyLengthBad s = decide (s.klen ≠ 16) := by
  unfold keyLengthBad; congr 1; exact propext (not_congr ⟨fun h => BitVec.eq_of_toNat_eq h, fun h => h ▸ rfl⟩)

theorem ivLengthBad_eq (s : State) : ivLengthBad s = decide (s.ivlen ≠ 16) := by
  unfold ivLengthBad; congr 1; exact propext (not_congr ⟨fun h => BitVec.eq_of_toNat_eq h, fun h => h ▸ rfl⟩)

theorem maskIf_eq (p : Prop) [Decidable p] (m : BitVec 5) : maskIf (decide p) m = bitIf p m := by
  unfold maskIf bitIf; by_cases h : p <;> simp [h]

theorem maskIf_false (m : BitVec 5) : maskIf false m = 0 := rfl

theorem mask_or_zero (m : BitVec 5) : m ||| 0 = m := BitVec.or_zero

theorem mask_zero_or (m : BitVec 5) : 0 ||| m = m := BitVec.zero_or

/-- The unit commands over OPA and OPB have no check to fail. -/
theorem errmask_resultOnly {i : Instr} (h : i ∈ [Instr.gfmul, .xtime, .sbox, .isbox]) (s : State) : errmask (encode i) s = 0 := by
  simp only [List.mem_cons, List.not_mem_nil, or_false] at h
  rcases h with rfl | rfl | rfl | rfl
  · show maskIf false _ ||| maskIf false _ = 0; rfl
  · show maskIf false _ ||| maskIf false _ = 0; rfl
  · show maskIf false _ ||| maskIf false _ = 0; rfl
  · show maskIf false _ ||| maskIf false _ = 0; rfl

/-- KEXP checks the key length. -/
theorem errmask_kexp (s : State) : errmask (encode .kexp) s = bitIf (s.klen ≠ 16) 0x01 := by
  show maskIf (keyLengthBad s) _ ||| maskIf false _ = _
  rw [maskIf_false, mask_or_zero, keyLengthBad_eq, maskIf_eq]; rfl

/-- ENCB and DECB check the key length and the block. -/
theorem errmask_block {i : Instr} (h : i ∈ [Instr.encb, .decb]) (s : State) : errmask (encode i) s = bitIf (s.klen ≠ 16) 0x01 ||| bitIf (s.cfg.mbBytes < 16 * s.blk.toNat + 16) 0x10 := by
  have : errmask (encode i) s = maskIf (keyLengthBad s) invalidKeyLength ||| maskIf (blockOutside s) bufferRange := by
    simp only [List.mem_cons, List.not_mem_nil, or_false] at h
    rcases h with rfl | rfl <;> rfl
  rw [this, keyLengthBad_eq, maskIf_eq, blockOutside, maskIf_eq]; rfl

/-- CLONE checks the block. -/
theorem errmask_clone (s : State) : errmask (encode .clone) s = bitIf (s.cfg.mbBytes < 16 * s.blk.toNat + 16) 0x10 := by
  show maskIf false _ ||| maskIf (blockOutside s) _ = _
  rw [maskIf_false, mask_zero_or, blockOutside, maskIf_eq]; rfl

/-- ECB commands check the key length and the message. -/
theorem errmask_ecb {i : Instr} (h : i ∈ [Instr.encEcb, .decEcb]) (s : State) : errmask (encode i) s = bitIf (s.klen ≠ 16) 0x01 ||| bitIf (s.cfg.mbBytes < s.msglen.toNat) 0x10 := by
  have : errmask (encode i) s = maskIf (keyLengthBad s) invalidKeyLength ||| 0 ||| 0 ||| maskIf (messageTooLong s) bufferRange := by
    simp only [List.mem_cons, List.not_mem_nil, or_false] at h
    rcases h with rfl | rfl <;> rfl
  rw [this, keyLengthBad_eq, maskIf_eq, messageTooLong, maskIf_eq, mask_or_zero, mask_or_zero]; rfl

/-- Chaining commands check the IV length too. -/
theorem errmask_chain {i : Instr} (h : i ∈ [Instr.encCbc, .decCbc, .encOfb, .decOfb, .encCfb, .decCfb]) (s : State) : errmask (encode i) s = bitIf (s.klen ≠ 16) 0x01 ||| bitIf (s.ivlen ≠ 16) 0x02 ||| bitIf (s.cfg.mbBytes < s.msglen.toNat) 0x10 := by
  have : errmask (encode i) s = maskIf (keyLengthBad s) invalidKeyLength ||| 0 ||| maskIf (ivLengthBad s) missingOrInvalidIV ||| maskIf (messageTooLong s) bufferRange := by
    simp only [List.mem_cons, List.not_mem_nil, or_false] at h
    rcases h with rfl | rfl | rfl | rfl | rfl | rfl <;> rfl
  rw [this, keyLengthBad_eq, maskIf_eq, messageTooLong, maskIf_eq, mask_or_zero, ivLengthBad_eq, maskIf_eq]; rfl

/-- The mask depends on KLEN, IVLEN, MSGLEN, BLK and MB_BYTES alone. -/
theorem errmask_congr {s s' : State} (h1 : s.klen = s'.klen) (h2 : s.ivlen = s'.ivlen) (h3 : s.msglen = s'.msglen) (h4 : s.blk = s'.blk) (h5 : s.cfg = s'.cfg) (v : Byte) : errmask v s = errmask v s' := by
  unfold errmask cipherMask unitMask keyLengthBad ivLengthBad messageTooLong blockOutside
  rw [h1, h2, h3, h4, h5]

end Sys2Proof.Machine
end

