-- ==== Sys2Proof/Laws/Modes.lean ====
section
/-! SUPPORT. Block loops: every body stores its own block; what a loop and a frame leave alone, and that they keep the form of MB. -/

namespace Sys2Proof.Machine

def StoresItsBlock (body : Nat → State → State) : Prop :=
  ∀ i s, Memory.wf s.mb = true → (∃ b, (body i s).mb = storeBlock s.mb (16 * i) b) ∧ (body i s).rk = s.rk

theorem storesItsBlock_encEcb : StoresItsBlock encEcbBlock := fun i s _ => by
  rw [encEcbBlock, encryptView_blockView]; dsimp only; exact ⟨⟨_, rfl⟩, rfl⟩

theorem storesItsBlock_decEcb : StoresItsBlock decEcbBlock := fun i s _ => by
  rw [decEcbBlock, decryptView_blockView]; dsimp only; exact ⟨⟨_, rfl⟩, rfl⟩

theorem storesItsBlock_encCbc : StoresItsBlock encCbcBlock := fun i s h => by
  rw [encCbcBlock_eq h]; dsimp only; exact ⟨⟨_, rfl⟩, rfl⟩

theorem storesItsBlock_decCbc : StoresItsBlock decCbcBlock := fun i s h => by
  rw [decCbcBlock_eq h]; dsimp only; exact ⟨⟨_, rfl⟩, rfl⟩

theorem storesItsBlock_ofb : StoresItsBlock ofbBlock := fun i s _ => by
  rw [ofbBlock_eq]; dsimp only; exact ⟨⟨_, rfl⟩, rfl⟩

theorem storesItsBlock_encCfb : StoresItsBlock encCfbBlock := fun i s h => by
  rw [encCfbBlock_eq h]; dsimp only; exact ⟨⟨_, rfl⟩, rfl⟩

theorem storesItsBlock_decCfb : StoresItsBlock decCfbBlock := fun i s _ => by
  rw [decCfbBlock_eq]; dsimp only; exact ⟨⟨_, rfl⟩, rfl⟩

theorem mem_ascending_lt (n : Nat) : ∀ i ∈ ascending n, i < n := by simp [ascending]

theorem mem_descending_lt (n : Nat) : ∀ i ∈ descending n, i < n := by simp [descending]

/-- A block loop over blocks below `N` keeps the form of MB, RK, and every byte at or above `16*N`. -/
theorem blockLoop_frame {body} (hb : StoresItsBlock body) {order : List Nat} {N : Nat} (ho : ∀ i ∈ order, i < N) {s : State}
    (hs : Memory.wf s.mb = true) :
    let t := order.foldl (atBlock body) s
    Memory.wf t.mb = true ∧ t.rk = s.rk ∧ (∀ a, 16 * N ≤ a → Memory.read t.mb a = Memory.read s.mb a) ∧
    (∀ n, 16 * N ≤ n → Memory.within n s.mb = true → Memory.within n t.mb = true) := by
  refine foldl_atBlock_induction (P := fun t => Memory.wf t.mb = true ∧ t.rk = s.rk ∧ (∀ a, 16 * N ≤ a → Memory.read t.mb a = Memory.read s.mb a) ∧
    (∀ n, 16 * N ≤ n → Memory.within n s.mb = true → Memory.within n t.mb = true)) ⟨hs, rfl, fun _ _ => rfl, fun _ _ h => h⟩ ?_
  intro i hi t ⟨h1, h2, h3, h4⟩
  have hN := ho i hi
  obtain ⟨⟨b, hb⟩, hr⟩ := hb i { t with seq := { t.seq with bi := some i } } h1
  refine ⟨?_, ?_, ?_, ?_⟩
  · show Memory.wf (body i _).mb = true; rw [hb]; exact storeBlock_wf h1 _ _
  · show (body i _).rk = _; rw [hr]; exact h2
  · intro a ha; show Memory.read (body i _).mb a = _; rw [hb, read_storeBlock h1, if_neg (by omega)]; exact h3 a ha
  · intro n hn hw; show Memory.within n (body i _).mb = true; rw [hb]; exact storeBlock_within (h4 n hn hw) (by omega) _

/-- A cipher frame keeps the form of MB and every byte at or above `16*N`, expands RK, and ends with no block index. -/
theorem ecbFrame_frame {body} (hb : StoresItsBlock body) {order : Nat → List Nat} {s : State} (ho : ∀ i ∈ order (blockCount s), i < blockCount s) 
    (hs : Memory.wf s.mb = true) :
    let t := ecbFrame order body s
    Memory.wf t.mb = true ∧ t.rk = expand s.key ∧ (∀ a, 16 * blockCount s ≤ a → Memory.read t.mb a = Memory.read s.mb a) ∧
    (∀ n, 16 * blockCount s ≤ n → Memory.within n s.mb = true → Memory.within n t.mb = true) ∧ t.seq.bi = none := by
  have h := blockLoop_frame hb ho (s := expandKey (padMessage s)) (by simpa using padMessage_wf hs)
  refine ⟨h.1, ?_, fun a ha => ?_, fun n hn hw => ?_, rfl⟩
  · have := h.2.1; rw [expandKey_rk] at this; exact this
  · have := h.2.2.1 a ha
    rw [expandKey_mb, read_padMessage hs, if_neg (by omega)] at this; exact this
  · exact h.2.2.2 n hn (by rw [expandKey_mb]; exact padMessage_within hw hn)

end Sys2Proof.Machine
end

