-- ==== Sys2Proof/Laws/PerInstr.lean ====
section
/-! SUPPORT. One fact about every command as syntax: the shape of its command byte. -/

namespace Sys2Proof.Laws

/-- The byte of a command has an opcode 0x1 to 0xA, a mode below 4 which is 0 unless the opcode is ENC or DEC, and is read
back by the decoder, alone or as a table word (30_encoding.md R60 to R63). -/
def CommandByte.Statement (i : Instr) : Prop :=
  i.wellFormed = true ∧
  1 ≤ opcOf (encode i) ∧ opcOf (encode i) ≤ 0xA ∧ modeOf (encode i) < 4 ∧
  (3 ≤ opcOf (encode i) → modeOf (encode i) = 0) ∧
  decode (encode i) = .ok i ∧ decodeTableWord 8 (encode i).toNat = some i

theorem CommandByte.encEcb : CommandByte.Statement .encEcb := by unfold CommandByte.Statement; decide

theorem CommandByte.encCbc : CommandByte.Statement .encCbc := by unfold CommandByte.Statement; decide

theorem CommandByte.encOfb : CommandByte.Statement .encOfb := by unfold CommandByte.Statement; decide

theorem CommandByte.encCfb : CommandByte.Statement .encCfb := by unfold CommandByte.Statement; decide

theorem CommandByte.decEcb : CommandByte.Statement .decEcb := by unfold CommandByte.Statement; decide

theorem CommandByte.decCbc : CommandByte.Statement .decCbc := by unfold CommandByte.Statement; decide

theorem CommandByte.decOfb : CommandByte.Statement .decOfb := by unfold CommandByte.Statement; decide

theorem CommandByte.decCfb : CommandByte.Statement .decCfb := by unfold CommandByte.Statement; decide

theorem CommandByte.kexp : CommandByte.Statement .kexp := by unfold CommandByte.Statement; decide

theorem CommandByte.encb : CommandByte.Statement .encb := by unfold CommandByte.Statement; decide

theorem CommandByte.decb : CommandByte.Statement .decb := by unfold CommandByte.Statement; decide

theorem CommandByte.gfmul : CommandByte.Statement .gfmul := by unfold CommandByte.Statement; decide

theorem CommandByte.xtime : CommandByte.Statement .xtime := by unfold CommandByte.Statement; decide

theorem CommandByte.sbox : CommandByte.Statement .sbox := by unfold CommandByte.Statement; decide

theorem CommandByte.isbox : CommandByte.Statement .isbox := by unfold CommandByte.Statement; decide

theorem CommandByte.clone : CommandByte.Statement .clone := by unfold CommandByte.Statement; decide

end Sys2Proof.Laws
end

