-- ==== Sys2Proof/Laws/Step.lean ====
section
/-! SUPPORT. Steps: exec and the command in flight always complete, and which part of step runs. -/

namespace Sys2Proof.Machine

/-- Every command completes: a next state, not busy, done, with IE, the parameters and the outside world as they were. -/
theorem exec_next (i : Instr) (s : State) : ∃ t, exec i s = .next t ∧ busy t = false ∧ t.done = true ∧ t.ie = s.ie ∧ t.cfg = s.cfg ∧ t.port = s.port ∧ (errmask (encode i) s = 0 → t.err = s.err) := by
  have hw := dataPathOnly_work i s
  by_cases h : errmask (encode i) s = 0
  · refine ⟨_, exec_pass h, rfl, rfl, ?_⟩
    have h1 := congrArg State.ie hw
    have h2 := congrArg State.cfg hw
    have h3 := congrArg State.port hw
    have h4 := congrArg State.err hw
    simpa using ⟨h1, h2, h3, fun _ => h4⟩
  · exact ⟨_, exec_fail h, rfl, rfl, rfl, rfl, rfl, fun h' => absurd h' h⟩

theorem runPending_of_decode {s : State} {i : Instr} (h : decode s.cmd = .ok i) : runPending s = exec i s := by
  unfold runPending; rw [h]

/-- The command in flight completes, whatever byte CMD holds. -/
theorem runPending_next (s : State) : ∃ t, runPending s = .next t ∧ busy t = false ∧ t.done = true ∧ t.ie = s.ie ∧ t.port = s.port ∧ t.cfg = s.cfg := by
  unfold runPending
  cases decode s.cmd with
  | ok i => obtain ⟨t, h1, h2, h3, h4, h5, h6, _⟩ := exec_next i s; exact ⟨t, h1, h2, h3, h4, h6, h5⟩
  | error r => exact ⟨_, rfl, rfl, rfl, rfl, rfl, rfl⟩

theorem step_idle {s : State} (h : Idle s) : step s = stepIdle s := by
  obtain ⟨h1, h2, h3⟩ := h; simp [step, nextStep, h1, h2]

/-- An idle core performs the host's next transaction. -/
theorem step_idle_bus {s : State} {t : Transaction} {rest : List Input} (h : Idle s) (hi : s.port.inputs = .bus t :: rest) :
    step s = .next (perform t (withInputs rest s)) := by
  have hb : busy (withInputs rest s) = false := h.2.1
  rw [step_idle h]
  simp only [stepIdle, h.2.2, hi, present, hb, Bool.false_and, Bool.false_eq_true, if_false]

/-- A write to an address other than CMD, presented to an idle core: the step stores and the core stays idle. -/
theorem step_idle_write {s : State} {a : Half} {v : Byte} {rest : List Input} (ha : a ≠ 0x0000) (h : Idle s)
    (hi : s.port.inputs = .bus (.write a v) :: rest) :
    ∃ p : Port, step s = .next { busWrite a v s with port := p } ∧ p.inputs = rest ∧
      Idle { busWrite a v s with port := p } := by
  refine ⟨{ rst := s.port.rst, held := s.port.held, inputs := rest, trace := .write a v :: s.port.trace }, ?_, rfl, h.1, ?_, h.2.2⟩
  · rw [step_idle_bus h hi]
    simp only [perform, withInputs, busWrite_withPort]
  · exact (busy_busWrite ha v s).trans h.2.1

theorem step_busy {s : State} (h : InFlight s) : step s = stepBusy s := by
  obtain ⟨h1, h2⟩ := h; simp [step, nextStep, h1, h2]

/-- A run of `k + 1` steps. -/
theorem core_run_succ (M : Host.Core) {k : Nat} {s t : M.State} (h : M.step s = .next t) : M.run (k+1) s = M.run k t := by
  rw [Host.Core.run, h]

/-- The memory of the reset state is in canonical form. -/
theorem reset_mb_wf : Memory.wf State.reset.mb = true := rfl

end Sys2Proof.Machine
end

