-- ==== Sys2Proof/Tests/Slice0.lean ====
section
/-! SUPPORT. Tests: the checks of WellFormed refuse, the decoder on words written out from the spec, vectors of
spec/95_test_vectors.md, and for every statement with hypotheses a witness that meets them. -/

namespace Sys2Proof.Tests

open Sys2Proof.Machine

/-! ## States -/

/-- The machine after reset with a 64-byte buffer (the MB_BYTES of 95_test_vectors.md sections 7, 8, 10). -/
def small : State := State.resetWith { mbBytes := 64 } []

/-- The state a command leaves. -/
def after (o : Host.Outcome State Fault Refusal) : Option State :=
  match o with
  | .next t => some t
  | _ => none

/-- `s` with the byte `v` in flight and its LATENCY passed. -/
def inFlight (v : Byte) (s : State) : State :=
  { s with cmd := v, seq := { pending := true, bi := none }, port := { s.port with inputs := [.run] } }

/-- The inputs of a state replaced. -/
def feed (l : List Input) (s : State) : State := { s with port := { s.port with inputs := l } }

/-- Key, IV and a message of 20 bytes, block 3 (the last of 64 bytes) selected, operands set. -/
def ready : State :=
  { small with
    klen := 16, ivlen := 16, msglen := 20, blk := 3, opa := 0x57, opb := 0x83
    mb := [(0, 0x41), (19, 0x54), (20, 0xaa), (63, 0x7f)] }

/-- The key of 95_test_vectors.md sections 5 to 9. -/
def vectorKey : Block := #v[0x2b, 0x7e, 0x15, 0x16, 0x28, 0xae, 0xd2, 0xa6, 0xab, 0xf7, 0x15, 0x88, 0x09, 0xcf, 0x4f, 0x3c]

/-- The IV of 95_test_vectors.md section 9. -/
def vectorIv : Block := #v[0x00, 0x01, 0x02, 0x03, 0x04, 0x05, 0x06, 0x07, 0x08, 0x09, 0x0a, 0x0b, 0x0c, 0x0d, 0x0e, 0x0f]

/-- One block `mb` of message under that key and IV. -/
def oneBlock (mb : Memory) : State :=
  { small with key := vectorKey, klen := 16, iv := vectorIv, ivlen := 16, msglen := 16, mb := mb }

/-- The first block M0 of 95_test_vectors.md 9.1. -/
def messageM0 : Memory := [(0, 0x6b), (1, 0xc1), (2, 0xbe), (3, 0xe2), (4, 0x2e), (5, 0x40), (6, 0x9f), (7, 0x96), (8, 0xe9), (9, 0x3d), (10, 0x7e), (11, 0x11), (12, 0x73), (13, 0x93), (14, 0x17), (15, 0x2a)]

/-- The first block of the OFB and CFB ciphertexts of 95_test_vectors.md 9.2. -/
def feedbackC0 : Memory := [(0, 0x3b), (1, 0x3f), (2, 0xd9), (3, 0x2e), (4, 0xb7), (5, 0x2d), (6, 0xad), (7, 0x20), (8, 0x33), (9, 0x34), (10, 0x49), (11, 0xf8), (12, 0xe8), (13, 0x3c), (14, 0xfb), (15, 0x4a)]

/-- The first block of the CBC ciphertext of 95_test_vectors.md 9.2. -/
def cbcC0 : Memory := [(0, 0x76), (1, 0x49), (2, 0xab), (3, 0xac), (4, 0x81), (5, 0x19), (6, 0xb2), (7, 0x46), (8, 0xce), (9, 0xe9), (10, 0x8e), (11, 0x9b), (12, 0x12), (13, 0xe9), (14, 0x19), (15, 0x7d)]

/-! ## WellFormed refuses -/

theorem test_refuses_unaligned_mbBytes : Config.Params.legal { mbBytes := 20 } = false := by decide

theorem test_refuses_mbBytes_below_a_block : Config.Params.legal { mbBytes := 0 } = false := by decide

theorem test_refuses_mbBytes_beyond_the_window : Config.Params.legal { mbBytes := 61456 } = false := by decide

theorem test_accepts_the_end_values_of_mbBytes :
    Config.Params.legal { mbBytes := 16 } = true ∧ Config.Params.legal { mbBytes := 61440 } = true := by decide

theorem test_reset_input_outside_mb_refused :
    Input.wf { mbBytes := 64 } (.reset [(64, 1)]) = false ∧ Input.wf { mbBytes := 64 } (.reset [(3, 0)]) = false := by
  decide

/-! ## Decoding, by words written out from 30_encoding.md R60 to R63 -/

theorem test_decode_enc : decode 0b00010000 = .ok .encEcb ∧ decode 0b00010001 = .ok .encCbc ∧
    decode 0b00010010 = .ok .encOfb ∧ decode 0b00010011 = .ok .encCfb := by decide

theorem test_decode_dec : decode 0b00100000 = .ok .decEcb ∧ decode 0b00100001 = .ok .decCbc ∧
    decode 0b00100010 = .ok .decOfb ∧ decode 0b00100011 = .ok .decCfb := by decide

theorem test_decode_key_and_block : decode 0b00110000 = .ok .kexp ∧ decode 0b01000000 = .ok .encb ∧
    decode 0b01010000 = .ok .decb ∧ decode 0b10100000 = .ok .clone := by decide

theorem test_decode_unit : decode 0b01100000 = .ok .gfmul ∧ decode 0b01110000 = .ok .xtime ∧
    decode 0b10000000 = .ok .sbox ∧ decode 0b10010000 = .ok .isbox := by decide

theorem test_decode_table_words : decodeTableWord 8 0x23 = some .decCfb ∧ decodeTableWord 8 0xA0 = some .clone ∧
    decodeTableWord 8 0x24 = none ∧ decodeTableWord 8 0xA1 = none := by decide

theorem test_decode_rejects : decode 0x00 = .error .illegalCommand ∧ decode 0x0F = .error .illegalCommand ∧
    decode 0xB0 = .error .illegalCommand ∧ decode 0xFF = .error .illegalCommand ∧
    decode 0x31 = .error .illegalCommand ∧ decode 0xAF = .error .illegalCommand ∧
    decode 0x14 = .error .unsupportedMode ∧ decode 0x2F = .error .unsupportedMode := by decide

/-! ## Data path (95_test_vectors.md sections 4 to 7) -/

theorem test_xtime : xtime 0x7f = 0xfe ∧ xtime 0x80 = 0x1b ∧ xtime 0xff = 0xe5 := by decide

theorem test_gmul : gmul 0x57 0x83 = 0xc1 ∧ gmul 0x57 0x13 = 0xfe ∧ gmul 0xff 0xff = 0x13 ∧ gmul 0x02 0x8d = 0x01 := by
  decide

theorem test_sbox : sbox 0x52 = 0x00 ∧ sbox 0x53 = 0xed ∧ sbox 0x7c = 0x10 ∧ invSbox 0x63 = 0x00 ∧
    invSbox 0xfe = 0x0c := by decide

theorem test_rotateWord : rotateWord #v[0x09, 0xcf, 0x4f, 0x3c] = #v[0xcf, 0x4f, 0x3c, 0x09] := by decide

theorem test_substituteWord : substituteWord #v[0xcf, 0x4f, 0x3c, 0x09] = #v[0x8a, 0x84, 0xeb, 0x01] := by decide

/-- RK of the zero key at 16, 33, 160 and 175 (section 5). -/
theorem test_expand_zero_key : (expand Block.zero)[16] = 0x62 ∧ (expand Block.zero)[33] = 0x98 ∧
    (expand Block.zero)[160] = 0xb4 ∧ (expand Block.zero)[175] = 0x8e := by decide +kernel

/-- T1 of section 6, round 1: shift. -/
theorem test_shiftRowsLeft :
    shiftRowsLeft #v[0xd4, 0x27, 0x11, 0xae, 0xe0, 0xbf, 0x98, 0xf1, 0xb8, 0xb4, 0x5d, 0xe5, 0x1e, 0x41, 0x52, 0x30] =
      #v[0xd4, 0xbf, 0x5d, 0x30, 0xe0, 0xb4, 0x52, 0xae, 0xb8, 0x41, 0x11, 0xf1, 0x1e, 0x27, 0x98, 0xe5] := by
  decide +kernel

/-- T2 of section 6, round 10: ishift. -/
theorem test_shiftRowsRight :
    shiftRowsRight #v[0xe9, 0x31, 0x7d, 0xb5, 0xcb, 0x32, 0x2c, 0x72, 0x3d, 0x2e, 0x89, 0x5f, 0xaf, 0x09, 0x07, 0x94] =
      #v[0xe9, 0x09, 0x89, 0x72, 0xcb, 0x31, 0x07, 0x5f, 0x3d, 0x32, 0x7d, 0x94, 0xaf, 0x2e, 0x2c, 0xb5] := by
  decide +kernel

/-- T1 of section 6, round 1: mix. -/
theorem test_mixColumns :
    mixColumns #v[0xd4, 0xbf, 0x5d, 0x30, 0xe0, 0xb4, 0x52, 0xae, 0xb8, 0x41, 0x11, 0xf1, 0x1e, 0x27, 0x98, 0xe5] =
      #v[0x04, 0x66, 0x81, 0xe5, 0xe0, 0xcb, 0x19, 0x9a, 0x48, 0xf8, 0xd3, 0x7a, 0x28, 0x06, 0x26, 0x4c] := by
  decide +kernel

/-- T2 of section 6, round 1: unmix. -/
theorem test_unmixColumns :
    unmixColumns #v[0x04, 0x66, 0x81, 0xe5, 0xe0, 0xcb, 0x19, 0x9a, 0x48, 0xf8, 0xd3, 0x7a, 0x28, 0x06, 0x26, 0x4c] =
      #v[0xd4, 0xbf, 0x5d, 0x30, 0xe0, 0xb4, 0x52, 0xae, 0xb8, 0x41, 0x11, 0xf1, 0x1e, 0x27, 0x98, 0xe5] := by
  decide +kernel

theorem test_index : index (blockView 2) 3 1 = 45 ∧ index ivView 2 1 = 9 ∧ index cloneView 2 3 = 11 := by decide

/-! ## One command, one step -/

/-- Section 4.4: XTIME of 0x80. -/
theorem test_step_xtime : (after (step (State.withFetchWord { small with opa := 0x80 } 8 0x70))).map
    (fun t => (t.result, t.err, statusByte t)) = some (0x1b, 0, 0x02) := by decide +kernel

/-- Section 4.4: GFMUL. -/
theorem test_step_gfmul : (after (step (State.withFetchWord ready 8 0x60))).map
    (fun t => (t.result, t.opa, t.opb)) = some (0xc1, 0x57, 0x83) := by decide +kernel

/-- Section 4.4: GFMUL with mode 1 is illegal, RESULT stays. -/
theorem test_step_gfmul_mode1 : (after (step (inFlight 0x61 { small with result := 0x52 }))).map
    (fun t => (t.result, t.err, statusByte t)) = some (0x52, 0x08, 0x06) := by decide +kernel

/-- Section 4.4: SBOX of 0x53. -/
theorem test_step_sbox : (after (step (State.withFetchWord { small with opa := 0x53 } 8 0x80))).map
    (fun t => t.result) = some 0xed := by decide +kernel

/-- Section 4.4: ISBOX of 0x00. -/
theorem test_step_isbox : (after (step (State.withFetchWord small 8 0x90))).map (fun t => t.result) = some 0x52 := by
  decide +kernel

/-- Section 5: KEXP of the zero key. -/
theorem test_step_kexp : (after (step (State.withFetchWord { small with klen := 16 } 8 0x30))).map
    (fun t => (t.rk[16], t.rk[175], t.err)) = some (0x62, 0x8e, 0) := by decide +kernel

/-- Section 5 and E19: KEXP without a key length. -/
theorem test_step_kexp_no_key : (after (step (State.withFetchWord small 8 0x30))).map
    (fun t => (t.rk[16], t.err, statusByte t)) = some (0x00, 0x01, 0x06) := by decide +kernel

/-- Section 8: ENCB of the zero block under the zero key (V1). -/
theorem test_step_encb : (after (step (State.withFetchWord { small with klen := 16 } 8 0x40))).map
    (fun t => mbBlock t 0) = some
      #v[0x66, 0xe9, 0x4b, 0xd4, 0xef, 0x8a, 0x2c, 0x3b, 0x88, 0x4c, 0xfa, 0x59, 0xca, 0x34, 0x2b, 0x2e] := by
  decide +kernel

/-- Section 8: DECB takes V1 back. -/
theorem test_step_decb : (after (step (State.withFetchWord { small with
      klen := 16
      mb := [(0, 0x66), (1, 0xe9), (2, 0x4b), (3, 0xd4), (4, 0xef), (5, 0x8a), (6, 0x2c), (7, 0x3b), (8, 0x88), (9, 0x4c), (10, 0xfa), (11, 0x59), (12, 0xca), (13, 0x34), (14, 0x2b), (15, 0x2e)] } 8 0x50))).map
    (fun t => t.mb) = some [] := by
  decide +kernel

/-- E20, E21: the block outside MB, alone and with the key missing. -/
theorem test_step_block_errors :
    (after (step (State.withFetchWord { small with klen := 16, blk := 4 } 8 0x40))).map (fun t => t.err) = some 0x10 ∧
    (after (step (State.withFetchWord { small with blk := 4 } 8 0x50))).map (fun t => t.err) = some 0x11 := by
  decide +kernel

/-- E22, E23: CLONE of the last legal block and far outside. -/
theorem test_step_clone :
    (after (step (State.withFetchWord ready 8 0xA0))).map (fun t => (t.clone[15], t.err)) = some (0x7f, 0) ∧
    (after (step (State.withFetchWord { ready with blk := 0xffff } 8 0xA0))).map
      (fun t => (t.clone[15], t.err)) = some (0x00, 0x10) := by decide +kernel

/-- Section 9.2, ENC.CBC, block 0; the IV is consumed and kept. -/
theorem test_step_encCbc : (after (step (State.withFetchWord (oneBlock messageM0) 8 0x11))).map
    (fun t => (t.mb, t.iv, t.ivlen)) = some (cbcC0, vectorIv, 0) := by decide +kernel

/-- Section 9.2, ENC.OFB, block 0. -/
theorem test_step_encOfb : (after (step (State.withFetchWord (oneBlock messageM0) 8 0x12))).map
    (fun t => t.mb) = some feedbackC0 := by decide +kernel

/-- Sections 9.2 and 9.3, DEC.CFB, block 0: IV and CLONE end as the ciphertext. -/
theorem test_step_decCfb : (after (step (State.withFetchWord (oneBlock feedbackC0) 8 0x23))).map
    (fun t => (t.mb, t.iv, t.clone)) = some (messageM0, mbBlock (oneBlock feedbackC0) 0, mbBlock (oneBlock feedbackC0) 0) := by decide +kernel

/-- Section 9.2, ENC.ECB, block 0; IVLEN stays. -/
theorem test_step_encEcb : (after (step (State.withFetchWord (oneBlock messageM0) 8 0x10))).map
    (fun t => (t.mb, t.ivlen)) = some (([(0, 0x3a), (1, 0xd7), (2, 0x7b), (3, 0xb4), (4, 0x0d), (5, 0x7a), (6, 0x36), (7, 0x60)] : Memory) ++
      [(8, 0xa8), (9, 0x9e), (10, 0xca), (11, 0xf3), (12, 0x24), (13, 0x66), (14, 0xef), (15, 0x97)], 16) := by
  decide +kernel

/-- Section 9.2, ENC.CFB, block 0: IV ends as the ciphertext. -/
theorem test_step_encCfb : (after (step (State.withFetchWord (oneBlock messageM0) 8 0x13))).map
    (fun t => (t.mb, t.iv)) = some (feedbackC0, mbBlock (oneBlock feedbackC0) 0) := by decide +kernel

/-- Section 9.4, DEC.CBC of two blocks in place. -/
theorem test_step_decCbc : (after (step (State.withFetchWord { oneBlock (([(0, 0xcb), (1, 0x0d), (2, 0x58), (3, 0xf5), (4, 0x16), (5, 0xa7), (6, 0x4e), (7, 0x4a)] : Memory) ++
      [(8, 0xfb), (9, 0xb0), (10, 0x9e), (11, 0xaa), (12, 0x92), (13, 0x38), (14, 0x91), (15, 0x4f)] ++
      [(16, 0xdd), (17, 0x52), (18, 0x8b), (19, 0x15), (20, 0xb1), (21, 0x06), (22, 0x67), (24, 0x93)] ++
      [(25, 0x5d), (26, 0x25), (27, 0x14), (28, 0xd7), (29, 0x11), (30, 0x5e), (31, 0x2e)]) with msglen := 32 } 8 0x21))).map
    (fun t => t.mb) = some
      (([(0, 0x41), (1, 0x42), (2, 0x43), (3, 0x44), (4, 0x45), (5, 0x46), (6, 0x47), (7, 0x48)] : Memory) ++
      [(8, 0x49), (9, 0x4a), (10, 0x4b), (11, 0x4c), (12, 0x4d), (13, 0x4e), (14, 0x4f), (15, 0x50)] ++
      [(16, 0x51), (17, 0x52), (18, 0x53), (19, 0x54)]) := by
  decide +kernel

/-- E3, E4: a chaining command without an IV; E2: a 17-byte key; E12: a message too long. -/
theorem test_step_mode_errors :
    (after (step (State.withFetchWord { small with klen := 16, msglen := 16 } 8 0x11))).map (fun t => t.err) = some 0x02 ∧
    (after (step (State.withFetchWord { small with klen := 16, msglen := 16 } 8 0x22))).map (fun t => t.err) = some 0x02 ∧
    (after (step (State.withFetchWord { small with klen := 17, msglen := 16 } 8 0x20))).map (fun t => t.err) = some 0x01 ∧
    (after (step (State.withFetchWord { small with klen := 16, ivlen := 16, msglen := 65 } 8 0x21))).map
      (fun t => (t.err, statusByte t)) = some (0x10, 0x06) := by decide +kernel

/-- E8, E10, E14: unsupported modes, with the other checks. -/
theorem test_step_unsupported_modes :
    (after (step (inFlight 0x14 { small with klen := 16, msglen := 16 }))).map (fun t => t.err) = some 0x04 ∧
    (after (step (inFlight 0x2c { small with msglen := 16 }))).map (fun t => t.err) = some 0x05 ∧
    (after (step (inFlight 0x17 { small with msglen := 0xffff }))).map (fun t => t.err) = some 0x15 := by
  decide +kernel

/-- Section 9.4, N = 0: ENC.CFB and ENC.ECB of an empty message. -/
theorem test_step_empty_message :
    (after (step (State.withFetchWord { ready with msglen := 0 } 8 0x13))).map
      (fun t => (t.err, t.msglen, t.ivlen)) = some (0, 0, 0) ∧
    (after (step (State.withFetchWord { ready with msglen := 0 } 8 0x10))).map (fun t => t.ivlen) = some 16 := by
  decide +kernel

/-! ## The bus (95_test_vectors.md sections 7 and 10) -/

/-- Section 7: the BV port on MB, IV and SPACE 3. -/
theorem test_bv_port :
    bvRead { small with blk := 2, bvsel := 0x0d, mb := [(45, 0x2d)] } = 0x2d ∧
    (bvWrite 0xa5 { small with blk := 2, bvsel := 0x07 }).mb = [(39, 0xa5)] ∧
    (bvWrite 0x77 { small with bvsel := 0x2a }).iv[10] = 0x77 ∧
    bvRead { small with bvsel := 0x30 } = 0x00 ∧ (bvWrite 0x55 { small with bvsel := 0, blk := 4 }).mb = [] := by
  decide +kernel

/-- Section 10, STATUS, DONE and irq: a write without bit 1 does nothing; with it, DONE clears and ERROR stays. -/
theorem test_status_write :
    statusByte (busWrite 0x0001 0xfd { small with err := 0x08, done := true }) = 0x06 ∧
    statusByte (busWrite 0x0001 0xff { small with err := 0x08, done := true }) = 0x04 ∧
    irq (busWrite 0x0003 0xfe { small with ie := true, done := true }) = false := by decide +kernel

/-- Section 7: bits 7:6 of BVSEL are reserved. -/
theorem test_bvsel_reserved : busRead 0x000A (busWrite 0x000A 0xff small) = 0x3f := by decide +kernel

/-- Writing 0x00 to MB removes the entry. -/
theorem test_memory_canonical : (busWrite 0x1013 0x00 ready).mb = [(0, 0x41), (20, 0xaa), (63, 0x7f)] := by
  decide +kernel

/-- 20_memory.md R46: BUSY is seen, another transaction waits. -/
theorem test_busy :
    (after (step (feed [scriptRead 1] (inFlight 0x70 small)))).map (fun t => t.port.trace) = some [.read 1 0x01] ∧
    (after (step (feed [scriptRead 0] (inFlight 0x70 small)))).map (fun t => t.port.held) = some (some (.read 0)) := by
  decide +kernel

/-! ## Witnesses: for every statement with hypotheses, states and operands that meet all of them -/

/-- The invariant holds of a small machine with any well-formed inputs, idle or with a byte in flight. -/
theorem small_inv (l : List Input) (h : l.all (Input.wf { mbBytes := 64 }) = true) (v : Byte) :
    Inv (feed l small) ∧ Inv (feed l (inFlight v small)) :=
  have legal : Config.Params.legal { mbBytes := 64 } = true := by decide
  ⟨⟨legal, rfl, rfl, rfl, fun _ => rfl, rfl, fun _ h => (by cases h), fun h => (by cases h), fun _ => rfl, h⟩,
   ⟨legal, rfl, rfl, rfl, fun _ => rfl, rfl, fun _ h => (by cases h), fun h => (by cases h), fun _ => rfl, h⟩⟩

/-- A command in flight with a transaction held. -/
def holding : State :=
  { feed [] (inFlight 0x70 small) with
    port := { rst := false, held := some (.write 0x0000 0x60), inputs := [.bus (.read 0x0000)], trace := [] } }

/-- `ready` with no message. -/
def empty : State := { ready with msglen := 0 }

/-- `ready` with a message that fills MB. -/
def full : State := { ready with msglen := 64 }

theorem ready_memoryOk : MemoryOk ready ∧ MemoryOk empty ∧ MemoryOk full :=
  ⟨⟨by decide, by decide⟩, ⟨by decide, by decide⟩, ⟨by decide, by decide⟩⟩

theorem wit_StepRunsTheCommandInFlight :
    (InFlight (inFlight 0x70 small) ∧ decode (inFlight 0x70 small).cmd = .ok .xtime ∧
      (inFlight 0x70 small).port.inputs = .run :: []) ∧
    (InFlight (feed [] (inFlight 0x70 small)) ∧ (feed [] (inFlight 0x70 small)).port.inputs = []) ∧
    (InFlight holding ∧ decode holding.cmd = .ok .xtime ∧ holding.port.held = some (.write 0x0000 0x60) ∧
      holding.port.inputs = .bus (.read 0x0000) :: []) :=
  ⟨⟨⟨rfl, rfl⟩, by decide, rfl⟩, ⟨⟨rfl, rfl⟩, rfl⟩, ⟨rfl, rfl⟩, by decide, rfl, rfl⟩

theorem wit_FetchWordStepIsExec : decodeTableWord 8 0x70 = some .xtime ∧ decodeTableWord 16 0x23 = some .decCfb := by
  decide

theorem wit_CmdWriteAcceptsChecksExecutesCompletes :
    Idle (feed (.bus (.write 0x0000 0x70) :: .run :: []) small) ∧ errmask 0x70 small = 0 ∧
    Idle (feed (.bus (.write 0x0000 0x00) :: .run :: []) small) ∧ errmask 0x00 small ≠ 0 ∧
    ∃ s : State, s.port.rst = false ∧ busy s = false ∧ s.port.held = some (.write 0x0000 0x70) ∧
      ∀ init rest, s.port.inputs ≠ .reset init :: rest :=
  ⟨⟨rfl, rfl, rfl⟩, by decide, ⟨rfl, rfl, rfl⟩, by decide,
    { small with port := { rst := false, held := some (.write 0x0000 0x70), inputs := [], trace := [] } },
    rfl, rfl, rfl, fun _ _ h => by cases h⟩

theorem wit_RejectedBytesFailWithTheirMask :
    (InFlight (inFlight 0xB0 small) ∧ (inFlight 0xB0 small).port.inputs = .run :: [] ∧
      decode (inFlight 0xB0 small).cmd = .error .illegalCommand) ∧
    (InFlight (inFlight 0x14 small) ∧ (inFlight 0x14 small).port.inputs = .run :: [] ∧
      decode (inFlight 0x14 small).cmd = .error .unsupportedMode) :=
  ⟨⟨⟨rfl, rfl⟩, rfl, by decide⟩, ⟨⟨rfl, rfl⟩, rfl, by decide⟩⟩

theorem wit_BusyServesStatusAndHoldsTheRest :
    (∀ x ∈ [scriptRead 0x0001, scriptWrite 0x0001 0x02], ∀ s, s = feed [x] (inFlight 0x70 small) →
      Inv s ∧ InFlight s ∧ s.port.held = none) ∧
    (InFlight (feed [scriptWrite 0x0000 0x70] (inFlight 0x70 small)) ∧
      (Transaction.write 0x0000 0x70).addr ≠ 0x0001) ∧
    (InFlight holding ∧ holding.port.held = some (.write 0x0000 0x60) ∧
      ∀ init rest, holding.port.inputs ≠ .reset init :: rest) := by
  refine ⟨?_, ⟨⟨rfl, rfl⟩, by decide⟩, ⟨rfl, rfl⟩, rfl, fun init rest h => by cases h⟩
  intro x hx s hs
  subst hs
  refine ⟨(small_inv [x] ?_ 0x70).2, ⟨rfl, rfl⟩, rfl⟩
  simp only [List.mem_cons, List.not_mem_nil, or_false] at hx
  rcases hx with rfl | rfl <;> rfl

theorem wit_WaitPollsUntilDone : Inv (feed (wait 2 ++ []) (inFlight 0x70 small)) ∧
    InFlight (feed (wait 2 ++ []) (inFlight 0x70 small)) ∧
    (feed (wait 2 ++ []) (inFlight 0x70 small)).port.held = none :=
  ⟨(small_inv _ rfl 0x70).2, ⟨rfl, rfl⟩, rfl⟩

theorem wit_CommandInFlightCompletes : InFlight holding ∧ InFlight (inFlight 0x00 small) := ⟨⟨rfl, rfl⟩, ⟨rfl, rfl⟩⟩

/-- An address in one of the reserved ranges of a machine with `mbBytes` bytes of MB, as the statements write it. -/
abbrev ReservedAddress (mbBytes : Nat) (addr : Half) : Prop :=
  (0x000F ≤ addr.toNat ∧ addr.toNat ≤ 0x001F) ∨ (0x0040 ≤ addr.toNat ∧ addr.toNat ≤ 0x00FF) ∨
    (0x01B0 ≤ addr.toNat ∧ addr.toNat ≤ 0x0FFF) ∨ 0x1000 + mbBytes ≤ addr.toNat

/-- The end values of the ranges of reserved addresses, and the last byte of MB. -/
theorem wit_BusAddressMap : small.cfg.legal = true ∧ 63 < small.cfg.mbBytes ∧
    ReservedAddress 64 0x000F ∧ ReservedAddress 64 0x001F ∧ ReservedAddress 64 0x0040 ∧ ReservedAddress 64 0x00FF ∧
    ReservedAddress 64 0x01B0 ∧ ReservedAddress 64 0x0FFF ∧ ReservedAddress 64 0x1040 ∧ ReservedAddress 64 0xFFFF := by
  decide

theorem wit_ReservedAndReadOnlyLocations : ReservedAddress small.cfg.mbBytes 0x1040 ∧
    (0x0100 ≤ (0x0100 : Half).toNat ∧ (0x0100 : Half).toNat ≤ 0x01AF) ∧
    (0x0100 ≤ (0x01AF : Half).toNat ∧ (0x01AF : Half).toNat ≤ 0x01AF) := by decide

theorem wit_BusAccessesRepeatHarmlessly : Memory.wf ready.mb = true ∧
    (0x0001 : Half) ≠ 0x0000 ∧ (0x000B : Half) ≠ 0x0000 ∧ (0xFFFF : Half) ≠ 0x0000 :=
  ⟨by decide, by decide, by decide, by decide⟩

theorem wit_BusWriteChangesOneAddress : Memory.wf ready.mb = true ∧
    ((0x1000 : Half) ≠ 0x1001 ∧ (0x1000 : Half) ≠ 0x0000 ∧ (0x1000 : Half) ≠ 0x0001 ∧ (0x1000 : Half) ≠ 0x000B ∧
      (0x1001 : Half) ≠ 0x000B) ∧
    ((0x0000 : Half).toNat = 0x0000 ∧ (0x0004 : Half).toNat = 4 ∧ (0x0009 : Half).toNat = 9 ∧
      (0x000C : Half).toNat = 0x000C ∧ (0x000D : Half).toNat = 0x000D ∧ (0x0020 : Half).toNat = 0x0020 ∧
      (0x003F : Half).toNat = 0x003F) ∧
    (0x1000 ≤ (0x103F : Half).toNat ∧ (0x103F : Half).toNat < 0x1000 + ready.cfg.mbBytes) := by decide

/-- The last legal block, the first illegal one, and each SPACE at its last byte. -/
theorem wit_BvPortReachesTheSelectedByte : small.cfg.legal = true ∧
    (∀ space ∈ [0, 1, 2, 3], (BitVec.ofNat 6 (16 * space + 15)).toNat = 16 * space + 4 * 3 + 3) ∧
    16 * (3 : Half).toNat + 16 ≤ small.cfg.mbBytes ∧ small.cfg.mbBytes < 16 * (4 : Half).toNat + 16 ∧
    busy (inFlight 0x70 small) = true ∧ (Transaction.write 0x000B 0x55).addr = 0x000B := by decide

theorem wit_InterruptLineFollowsDone : (∃ t, exec .kexp small = .next t) ∧ (0x02 : Byte).getLsbD 1 = true ∧
    (0xfd : Byte).getLsbD 1 = false ∧ (0xfe : Byte).getLsbD 0 = false := ⟨⟨_, rfl⟩, by decide⟩

theorem wit_TransactionsNeverRaiseAnError :
    (∀ v, Transaction.write 0x0002 0xff ≠ .write 0x0000 v ∧ Transaction.write 0x0002 0xff ≠ .write 0x0001 v) ∧
    (∀ v, Transaction.read 0x0000 ≠ .write 0x0000 v) := by simp

/-- A message that fills the smallest MB. -/
theorem wit_LoadScriptsFillTheRegisters :
    Idle (feed (loadKey vectorKey ++ []) small) ∧ Idle (feed (loadIv vectorIv ++ []) small) ∧
    ∀ s, s = feed (loadMsg (List.replicate 16 0x41) ++ []) (State.resetWith { mbBytes := 16 } []) →
      Idle s ∧ s.cfg.legal = true ∧ Memory.wf s.mb = true ∧ (List.replicate 16 (0x41 : Byte)).length ≤ s.cfg.mbBytes := by
  refine ⟨⟨rfl, rfl, rfl⟩, ⟨rfl, rfl, rfl⟩, fun s h => ?_⟩
  subst h
  exact ⟨⟨rfl, rfl, rfl⟩, by decide, rfl, by decide⟩

/-- The modes 1 and 15 of the statements about the illegal bytes beside a command. -/
theorem wit_IllegalModes : (1 ≤ 1 ∧ 1 < 16) ∧ (1 ≤ 15 ∧ 15 < 16) := by decide

theorem wit_GaloisFieldLaws : gmul 0x57 0x00 = 0 ∧ (0x02 : Byte) ≠ 0 ∧ gmul 0x02 0x8d = 1 ∧ 0 < 50 ∧ 50 < 51 := by decide

theorem wit_IsboxCommand : ∃ t u, exec .sbox ready = .next t ∧ exec .isbox { t with opa := t.result } = .next u :=
  ⟨_, _, rfl, rfl⟩

theorem wit_SubstitutionTables : gmul 0x53 0xca = 1 ∧ 7 < 8 := by decide

theorem wit_RoundConstants : 1 ≤ 1 ∧ roundConstant 1 = #v[0x01, 0x00, 0x00, 0x00] := by decide

/-- Key present and absent; the words 3, 4, 5 and 43 where the clauses meet. -/
theorem wit_KexpExpandsTheKey : small.klen ≠ 16 ∧ ready.klen = 16 ∧ 3 < 4 ∧ (4 ≤ 4 ∧ 4 % 4 = 0) ∧
    (4 ≤ 5 ∧ 5 % 4 ≠ 0) ∧ 43 < 44 := by decide

theorem wit_KeyUsingCommandsExpandFirst :
    ((∃ t, exec .encb ready = .next t) ∧ errmask (encode .encb) ready = 0 ∧
      Instr.encb ∉ [Instr.gfmul, .xtime, .sbox, .isbox, .clone]) ∧
    ((∃ t, exec .kexp small = .next t) ∧ errmask (encode .kexp) small ≠ 0) := by
  refine ⟨⟨⟨_, rfl⟩, ?_⟩, ⟨_, rfl⟩, ?_⟩ <;> decide

theorem wit_BlockStepFunctions : 10 ≤ 10 ∧ 15 < 16 ∧ 3 < 4 := by decide

/-- ENCB and DECB: block 3 of 64 bytes is the last legal one, block 4 fails, a missing key fails. -/
theorem wit_EncbAndDecb :
    bitIf (ready.klen ≠ 16) 0x01 ||| bitIf (ready.cfg.mbBytes < 16 * ready.blk.toNat + 16) 0x10 = 0 ∧
    Memory.wf ready.mb = true ∧
    (∀ s ∈ [small, { ready with blk := 4 }],
      bitIf (s.klen ≠ 16) 0x01 ||| bitIf (s.cfg.mbBytes < 16 * s.blk.toNat + 16) 0x10 ≠ 0) := by decide

theorem wit_EncbAndDecbUndoEachOther : ready.klen = 16 ∧ 16 * ready.blk.toNat + 16 ≤ ready.cfg.mbBytes ∧
    Memory.wf ready.mb = true := by decide

theorem wit_CloneCopiesTheSelectedBlock : 16 * ready.blk.toNat + 16 ≤ ready.cfg.mbBytes ∧
    ({ ready with blk := 4 } : State).cfg.mbBytes < 16 * ({ ready with blk := 4 } : State).blk.toNat + 16 := by decide

/-- The ECB commands: an empty message, a padded one, one that fills MB; no key, one byte too long. -/
theorem wit_EcbCommands :
    (∀ s ∈ [empty, ready, full],
      bitIf (s.klen ≠ 16) 0x01 ||| bitIf (s.cfg.mbBytes < s.msglen.toNat) 0x10 = 0) ∧
    (∀ s ∈ [small, { ready with msglen := 65 }],
      bitIf (s.klen ≠ 16) 0x01 ||| bitIf (s.cfg.mbBytes < s.msglen.toNat) 0x10 ≠ 0) ∧
    blockCount ready = 2 := by decide

/-- The chaining commands: as above, and an IV missing. MSGLEN, KLEN and IVLEN as the statements about success need them. -/
theorem wit_ChainingCommands :
    (∀ s ∈ [empty, ready, full],
      bitIf (s.klen ≠ 16) 0x01 ||| bitIf (s.ivlen ≠ 16) 0x02 ||| bitIf (s.cfg.mbBytes < s.msglen.toNat) 0x10 = 0 ∧
      s.klen = 16 ∧ s.ivlen = 16 ∧ s.msglen.toNat ≤ s.cfg.mbBytes) ∧
    (∀ s ∈ [small, { ready with ivlen := 0 }, { ready with msglen := 65 }],
      bitIf (s.klen ≠ 16) 0x01 ||| bitIf (s.ivlen ≠ 16) 0x02 ||| bitIf (s.cfg.mbBytes < s.msglen.toNat) 0x10 ≠ 0) := by
  decide

theorem wit_EmptyMessage : empty.msglen = 0 ∧ empty.klen = 16 ∧ empty.ivlen = 16 := by decide

theorem wit_EveryModeRoundTrips : (Instr.encCfb, Instr.decCfb) ∈ [(Instr.encEcb, Instr.decEcb), (.encCbc, .decCbc),
      (.encOfb, .decOfb), (.encCfb, .decCfb)] ∧
    (ready.klen = 16 ∧ ready.ivlen = 16 ∧ ready.msglen.toNat ≤ ready.cfg.mbBytes ∧ MemoryOk ready) ∧
    full.msglen.toNat % 16 = 0 ∧
    (∀ s, s = { ready with ivlen := 0 } → s.klen = 16 ∧ (Instr.encEcb ≠ .encEcb → s.ivlen = 16) ∧
      s.msglen.toNat ≤ s.cfg.mbBytes ∧ MemoryOk s) := by
  refine ⟨by decide, ⟨by decide, by decide, by decide, ready_memoryOk.1⟩, by decide, ?_⟩
  intro s h
  subst h
  exact ⟨by decide, fun h => absurd rfl h, by decide, ⟨by decide, by decide⟩⟩

/-- Two messages that differ in block 1, the last one, alone. -/
theorem wit_CbcDiffusesForwardOnly : ∃ s' t t', s' = { ready with mb := s'.mb } ∧ Memory.wf s'.mb = true ∧
    1 < blockCount ready ∧ paddedBlock ready 1 ≠ paddedBlock s' 1 ∧
    (∀ j, j ≠ 1 → j < blockCount ready → paddedBlock ready j = paddedBlock s' j) ∧
    exec .encCbc ready = .next t ∧ exec .encCbc s' = .next t' := by
  refine ⟨{ ready with mb := [(0, 0x41), (19, 0x55)] }, _, _, rfl, by decide, by decide, ?_, ?_, rfl, rfl⟩
  · intro h
    have h3 := congrArg (fun b : Block => b[3]) h
    revert h3
    decide
  · intro j h1 h2
    have hj : j = 0 := by
      have h : blockCount ready = 2 := by decide
      omega
    subst hj
    decide

theorem wit_OfbKeystreamIgnoresTheMessage : MemoryOk ready ∧ MemoryOk { ready with mb := [] } ∧
    ({ ready with mb := [] } : State).msglen = ready.msglen :=
  ⟨ready_memoryOk.1, ⟨by decide, rfl⟩, rfl⟩

theorem wit_SingleBlockEcbIsTheBlockTransform :
    ∀ s, s = { ready with msglen := 16, blk := 0 } →
      s.klen = 16 ∧ s.msglen = 16 ∧ s.blk = 0 ∧ MemoryOk s ∧ s.seq.bi = none := by
  intro s h
  subst h
  exact ⟨rfl, rfl, rfl, ⟨by decide, by decide⟩, rfl⟩

theorem wit_ErrorMaskBits : (0x1F : Byte).toNat = 16 * 1 + 15 ∧ (0xA0 : Byte).toNat = 16 * 10 + 0 ∧ 15 < 16 := by decide

theorem wit_FailingCommandChangesNothingElse : errmask (encode .kexp) small ≠ 0 ∧ InFlight (inFlight 0x00 small) ∧
    errmask (inFlight 0x00 small).cmd (inFlight 0x00 small) ≠ 0 := ⟨by decide, ⟨rfl, rfl⟩, by decide⟩

/-- A failure; a cipher command and the first byte above `16N`; ENCB, at the bytes next to its block. -/
theorem wit_CommandsWriteOnlyWhatTheyList :
    (small.seq.bi = none ∧ errmask (encode .kexp) small ≠ 0 ∧ ∃ t, exec .kexp small = .next t) ∧
    (ready.seq.bi = none ∧ errmask (encode .decCfb) ready = 0 ∧ ∃ t, exec .decCfb ready = .next t) ∧
    (errmask (encode .encb) ready = 0 ∧ ∃ t, exec .encb ready = .next t) ∧ MemoryOk ready ∧
    16 * blockCount ready ≤ 32 ∧ 47 < (blkView ready).base ∧ (blkView ready).base + 16 ≤ 64 :=
  ⟨⟨rfl, by decide, _, rfl⟩, ⟨rfl, by decide, _, rfl⟩, ⟨by decide, _, rfl⟩, ready_memoryOk.1, by decide, by decide,
    by decide⟩

/-- ENC.CFB on two states that differ in what it does not read: OPA, BLK, RESULT, and MB beyond the message. -/
theorem wit_CommandsDependOnlyOnWhatTheyRead : ∃ s' t t',
    s' = { ready with opa := 0, blk := 0, result := 0x99, mb := [(0, 0x41), (19, 0x54)] } ∧
    MemoryOk ready ∧ MemoryOk s' ∧ ready.cfg = s'.cfg ∧ (ready.klen = s'.klen ∧ ready.key = s'.key) ∧
    (ready.ivlen = s'.ivlen ∧ ready.iv = s'.iv) ∧
    (ready.msglen = s'.msglen ∧ ∀ a < ready.msglen.toNat, mbByte ready a = mbByte s' a) ∧
    Instr.encCfb ∉ [Instr.encb, .decb, .clone] ∧ Instr.encCfb ∉ [Instr.gfmul, .xtime, .sbox, .isbox] ∧
    exec .encCfb ready = .next t ∧ exec .encCfb s' = .next t' :=
  ⟨_, _, _, rfl, ready_memoryOk.1, ⟨by decide, by decide⟩, rfl, ⟨rfl, rfl⟩, ⟨rfl, rfl⟩, ⟨rfl, by decide⟩, by decide,
    by decide, rfl, rfl⟩

theorem wit_ChainingCommandConsumesTheIv : ∃ t, errmask (encode .encOfb) ready = 0 ∧ exec .encOfb ready = .next t ∧
    t.ivlen = t.ivlen := ⟨_, by decide, rfl, rfl⟩

theorem wit_ResetGivesEveryElementItsValue :
    holding.port.held ≠ none ∧ (feed [.reset [(3, 0x55)]] holding).port.inputs = .reset [(3, 0x55)] :: [] ∧
    (∃ s : State, s.port.rst = true ∧ s.port.inputs = .bus (.write 0x0000 0x70) :: []) ∧
    (∃ s : State, s.port.rst = true ∧ s.port.inputs = .release :: []) :=
  ⟨by decide, rfl, ⟨feed [scriptWrite 0x0000 0x70] (assertReset [] small), rfl, rfl⟩,
    ⟨feed [.release] (assertReset [] small), rfl, rfl⟩⟩

theorem wit_ResetMeetsTheInvariant : Config.Params.legal { mbBytes := 61440 } = true ∧
    Memory.wf [(61439, 0x01)] = true ∧ Memory.within 61440 [(61439, 0x01)] = true := by decide

theorem wit_EveryStepKeepsTheInvariant :
    (Inv (feed [scriptWrite 0x0000 0x30] small) ∧ ∃ t, step (feed [scriptWrite 0x0000 0x30] small) = .next t) ∧
    (Inv (feed [.run] (inFlight 0x30 small)) ∧ ∃ t, step (feed [.run] (inFlight 0x30 small)) = .next t) :=
  ⟨⟨(small_inv _ rfl 0).1, _, rfl⟩, ⟨(small_inv _ rfl 0x30).2, _, rfl⟩⟩

theorem wit_ParametersNeverChange : ∃ t, step small = .next t := ⟨_, rfl⟩

theorem wit_ScriptLinesReachTheirRegisters :
    Idle (feed (noIv ++ []) small) ∧ Idle (feed (setBlk 0xFFFF ++ []) small) ∧
    Idle (feed (peek 2 0 3 3 ++ []) small) ∧ Idle (feed (poke 0 3 3 3 0x55 ++ []) small) :=
  ⟨⟨rfl, rfl, rfl⟩, ⟨rfl, rfl, rfl⟩, ⟨rfl, rfl, rfl⟩, ⟨rfl, rfl, rfl⟩⟩

/-- `State.reset` as the spec gives it, and the model's two choices (log entries 1, 2). -/
theorem test_reset : State.reset.rk[175] = 0x00 ∧ statusByte State.reset = 0x00 ∧ State.reset.klen = 0 ∧
    State.reset.cfg.mbBytes = 4096 ∧ Memory.wf State.reset.mb = true ∧ State.reset.mb = [] := by decide +kernel

end Sys2Proof.Tests
end

section
/-! What no step changes: the parameters of the machine (00_scope.md R6), one lemma per part of the step. -/

namespace Sys2Proof.Machine

@[simp] theorem busWrite_cfg (a : Half) (v : Byte) (s : State) : (busWrite a v s).cfg = s.cfg :=
  writeLocation_cfg (locate s.cfg a) v s

@[simp] theorem perform_cfg (tr : Transaction) (s : State) : (perform tr s).cfg = s.cfg := by
  cases tr with
  | read a => rfl
  | write a v => exact busWrite_cfg a v s

@[simp] theorem present_cfg (tr : Transaction) (s : State) : (present tr s).cfg = s.cfg := by
  unfold present
  split
  · rfl
  · exact perform_cfg tr s

/-- `runPending_next` read as an inversion: whichever of the 16 commands, or none, is in flight. -/
theorem runPending_cfg {s t : State} (h : runPending s = .next t) : t.cfg = s.cfg := by
  obtain ⟨u, hu, -, -, -, -, hcfg⟩ := runPending_next s
  cases hu.symm.trans h
  exact hcfg

theorem stepInReset_cfg {s t : State} (h : stepInReset s = .next t) : t.cfg = s.cfg := by
  unfold stepInReset at h
  split at h <;> cases h <;> rfl

theorem stepBusy_cfg {s t : State} (h : stepBusy s = .next t) : t.cfg = s.cfg := by
  unfold stepBusy at h
  split at h
  case h_1 => cases h; rfl
  case h_2 rest _ => exact (runPending_cfg h).trans (withInputs_cfg rest s)
  case h_3 tr rest _ _ => cases h; exact present_cfg tr (withInputs rest s)
  case h_4 => cases h; rfl
  case h_5 => exact runPending_cfg h

theorem stepIdle_cfg {s t : State} (h : stepIdle s = .next t) : t.cfg = s.cfg := by
  unfold stepIdle at h
  split at h
  case h_1 => cases h; rfl
  case h_2 tr _ _ => cases h; exact perform_cfg tr _
  case h_3 tr rest _ _ => cases h; exact present_cfg tr (withInputs rest s)
  case h_4 => cases h; rfl
  case h_5 => cases h; rfl
  case h_6 => cases h; rfl

/-- Settles O57: each of the three parts of `nextStep` (reset asserted, busy, idle) keeps the parameters. -/
theorem parametersNeverChange : Obligations.ParametersNeverChange := by
  intro s t h
  unfold step nextStep at h
  split at h
  · exact stepInReset_cfg h
  · split at h
    · exact stepBusy_cfg h
    · exact stepIdle_cfg h

end Sys2Proof.Machine
end

section
/-! The invariant (10_state.md R31): it holds after a reset, and each part of a step keeps it. -/

namespace Sys2Proof.Machine

/-! ## The port and reset -/

/-- The invariant says of the port only what stands here: any port that meets it can replace the port of `s`. -/
theorem Inv.withPort {s : State} (hi : Inv s) {p : Port}
    (hreset : p.rst = true → s = { State.resetWith s.cfg s.mb with port := s.port })
    (hdrop : p.rst = true → p.held = none)
    (hheld : ∀ tr, p.held = some tr → tr.addr ≠ statusAddr)
    (hinputs : p.inputs.all (Input.wf s.cfg) = true) : Inv { s with port := p } where
  cfgLegal := hi.cfgLegal
  mbWf := hi.mbWf
  mbWithin := hi.mbWithin
  notBusyAndDone := hi.notBusyAndDone
  errClearWhileBusy := hi.errClearWhileBusy
  noBlockIndex := hi.noBlockIndex
  heldNotStatus := hheld
  resetHolds := fun h => congrArg (fun u : State => { u with port := p }) (hreset h)
  resetDropsHeld := hdrop
  inputsWf := hinputs

/-- The next input, and all those after it, are inputs of this machine. -/
theorem Inv.next_input {s : State} (hi : Inv s) {x : Input} {rest : List Input} (h : s.port.inputs = x :: rest) :
    Input.wf s.cfg x = true ∧ rest.all (Input.wf s.cfg) = true := by
  have hall := hi.inputsWf
  rwa [h, List.all_cons, Bool.and_eq_true] at hall

theorem Inv.withInputs {s : State} (hi : Inv s) {x : Input} {rest : List Input} (h : s.port.inputs = x :: rest) :
    Inv (withInputs rest s) :=
  hi.withPort hi.resetHolds hi.resetDropsHeld hi.heldNotStatus (hi.next_input h).2

theorem inv_resetWith {p : Config.Params} {init : Memory} (hp : p.legal = true) (hwf : Memory.wf init = true)
    (hwithin : Memory.within p.mbBytes init = true) : Inv (State.resetWith p init) where
  cfgLegal := hp
  mbWf := hwf
  mbWithin := hwithin
  notBusyAndDone := rfl
  errClearWhileBusy := fun _ => rfl
  noBlockIndex := rfl
  heldNotStatus := fun _ h => by cases h
  resetHolds := fun _ => rfl
  resetDropsHeld := fun _ => rfl
  inputsWf := rfl

/-- A reset that is the next input leaves the invariant, from every state that meets it. -/
theorem Inv.assertReset {s : State} (hi : Inv s) {init : Memory} {rest : List Input}
    (h : s.port.inputs = .reset init :: rest) : Inv (assertReset init (Machine.withInputs rest s)) := by
  obtain ⟨hinit, hrest⟩ := hi.next_input h
  obtain ⟨hwf, hwithin⟩ := (Bool.and_eq_true _ _).mp hinit
  exact (inv_resetWith hi.cfgLegal hwf hwithin).withPort (fun _ => rfl) (fun _ => rfl) (fun _ h => by cases h) hrest

/-- Settles O55: the reset state has every flag low and nothing held, and MB is the content given. -/
theorem resetMeetsTheInvariant : Obligations.ResetMeetsTheInvariant :=
  ⟨inv_resetWith (by decide) rfl rfl, fun _ _ => inv_resetWith⟩

/-! ## What the invariant asks of MB and the block index -/

/-- MB in canonical form and inside `MB[0..n-1]`, and no block index: the part of the invariant that the data path can
reach. -/
structure BufferOk (n : Nat) (s : State) : Prop where
  mbWf : Memory.wf s.mb = true
  mbWithin : Memory.within n s.mb = true
  noBlockIndex : s.seq.bi = none

/-- A change that reaches neither MB nor the block index. -/
theorem BufferOk.congr {n : Nat} {s t : State} (h : BufferOk n s) (hmb : t.mb = s.mb) (hbi : t.seq.bi = s.seq.bi) :
    BufferOk n t :=
  ⟨hmb ▸ h.mbWf, hmb ▸ h.mbWithin, hbi.trans h.noBlockIndex⟩

theorem Inv.bufferOk {s : State} (hi : Inv s) : BufferOk s.cfg.mbBytes s := ⟨hi.mbWf, hi.mbWithin, hi.noBlockIndex⟩

/-- With `rst` not asserted and the port as it was, the invariant is what it says of MB, the block index and the flags. -/
theorem Inv.of_port_eq {s t : State} (hi : Inv s) (hrst : s.port.rst = false) (hport : t.port = s.port)
    (hcfg : t.cfg = s.cfg) (hbuf : BufferOk s.cfg.mbBytes t) (hflags : (busy t && t.done) = false)
    (herr : busy t = true → t.err = 0) : Inv t where
  cfgLegal := hcfg ▸ hi.cfgLegal
  mbWf := hbuf.mbWf
  mbWithin := hcfg ▸ hbuf.mbWithin
  notBusyAndDone := hflags
  errClearWhileBusy := herr
  noBlockIndex := hbuf.noBlockIndex
  heldNotStatus := hport ▸ hi.heldNotStatus
  resetHolds := fun h => by simp [hport, hrst] at h
  resetDropsHeld := fun h => by simp [hport, hrst] at h
  inputsWf := by rw [hport, hcfg]; exact hi.inputsWf

/-! ## What a command that passes its checks may rely on -/

/-- A check whose bit is not in the mask did not fail. -/
theorem not_of_or_bitIf_eq_zero {p : Prop} [Decidable p] {x m : BitVec 5} (hm : m ≠ 0) (h : x ||| bitIf p m = 0) :
    ¬p := by
  intro hp
  rw [bitIf, if_pos hp] at h
  exact hm (BitVec.or_eq_zero_iff.mp h).2

theorem msglen_le_of_ecb_passes {i : Instr} (hi : i ∈ [Instr.encEcb, .decEcb]) {s : State}
    (h : errmask (encode i) s = 0) : s.msglen.toNat ≤ s.cfg.mbBytes :=
  Nat.le_of_not_lt (not_of_or_bitIf_eq_zero (by decide) ((errmask_ecb hi s).symm.trans h))

theorem msglen_le_of_chain_passes {i : Instr} (hi : i ∈ [Instr.encCbc, .decCbc, .encOfb, .decOfb, .encCfb, .decCfb])
    {s : State} (h : errmask (encode i) s = 0) : s.msglen.toNat ≤ s.cfg.mbBytes :=
  Nat.le_of_not_lt (not_of_or_bitIf_eq_zero (by decide) ((errmask_chain hi s).symm.trans h))

theorem blk_inside_of_block_passes {i : Instr} (hi : i ∈ [Instr.encb, .decb]) {s : State}
    (h : errmask (encode i) s = 0) : 16 * s.blk.toNat + 16 ≤ s.cfg.mbBytes :=
  Nat.le_of_not_lt (not_of_or_bitIf_eq_zero (by decide) ((errmask_block hi s).symm.trans h))

/-- A message inside a legal MB is inside it after padding too: MB_BYTES is a multiple of 16 (00_scope.md R6). -/
theorem blocks_inside {s : State} (hcfg : s.cfg.legal = true) (h : s.msglen.toNat ≤ s.cfg.mbBytes) :
    16 * blockCount s ≤ s.cfg.mbBytes := by
  have hlegal := legal_bounds hcfg
  unfold blockCount
  omega

/-! ## Commands -/

theorem BufferOk.ecbFrame {n : Nat} {s : State} (h : BufferOk n s) {body : Nat → State → State}
    (hbody : StoresItsBlock body) {order : Nat → List Nat} (horder : ∀ i ∈ order (blockCount s), i < blockCount s)
    (hn : 16 * blockCount s ≤ n) : BufferOk n (ecbFrame order body s) := by
  obtain ⟨hwf, _, _, hwithin, hbi⟩ := ecbFrame_frame hbody horder h.mbWf
  exact ⟨hwf, hwithin n hn h.mbWithin, hbi⟩

theorem BufferOk.chainFrame {n : Nat} {s : State} (h : BufferOk n s) {body : Nat → State → State}
    (hbody : StoresItsBlock body) {order : Nat → List Nat} (horder : ∀ i ∈ order (blockCount s), i < blockCount s)
    (hn : 16 * blockCount s ≤ n) : BufferOk n (chainFrame order body s) :=
  (h.ecbFrame hbody horder hn).congr rfl rfl

/-- A block stored at `base` stays inside MB when the 16 bytes from `base` are. -/
theorem BufferOk.storeBlock {n : Nat} {s t : State} (h : BufferOk n s) {base : Nat} (hn : base + 16 ≤ n) {b : Block}
    (ht : t = { s with mb := storeBlock s.mb base b }) : BufferOk n t := by
  subst ht
  constructor <;> dsimp only
  case mbWf => exact storeBlock_wf h.mbWf base b
  case mbWithin => exact storeBlock_within h.mbWithin hn b
  case noBlockIndex => exact h.noBlockIndex

/-- The execute step of a command that passed its checks keeps MB in form and in bounds, and ends with no block index. -/
theorem bufferOk_work {i : Instr} {s : State} (hcfg : s.cfg.legal = true) (hs : BufferOk s.cfg.mbBytes s)
    (hpass : errmask (encode i) s = 0) : BufferOk s.cfg.mbBytes (work i s) := by
  have hecb (hi : i ∈ [Instr.encEcb, .decEcb]) := blocks_inside hcfg (msglen_le_of_ecb_passes hi hpass)
  have hchain (hi : i ∈ [Instr.encCbc, .decCbc, .encOfb, .decOfb, .encCfb, .decCfb]) :=
    blocks_inside hcfg (msglen_le_of_chain_passes hi hpass)
  have hblock (hi : i ∈ [Instr.encb, .decb]) := blk_inside_of_block_passes hi hpass
  have hkexp : BufferOk s.cfg.mbBytes (expandKey s) :=
    hs.congr (expandKey_mb s) (congrArg Sequencer.bi (expandKey_seq s))
  cases i with
  | encEcb => exact hs.ecbFrame storesItsBlock_encEcb (mem_ascending_lt _) (hecb (by simp))
  | decEcb => exact hs.ecbFrame storesItsBlock_decEcb (mem_ascending_lt _) (hecb (by simp))
  | encCbc => exact hs.chainFrame storesItsBlock_encCbc (mem_ascending_lt _) (hchain (by simp))
  | decCbc => exact hs.chainFrame storesItsBlock_decCbc (mem_descending_lt _) (hchain (by simp))
  | encOfb | decOfb => exact hs.chainFrame storesItsBlock_ofb (mem_ascending_lt _) (hchain (by simp))
  | encCfb => exact hs.chainFrame storesItsBlock_encCfb (mem_ascending_lt _) (hchain (by simp))
  | decCfb => exact hs.chainFrame storesItsBlock_decCfb (mem_ascending_lt _) (hchain (by simp))
  | encb => exact hkexp.storeBlock (hblock (by simp)) (encryptView_blockView s.blk.toNat (expandKey s))
  | decb => exact hkexp.storeBlock (hblock (by simp)) (decryptView_blockView s.blk.toNat (expandKey s))
  | clone =>
    show BufferOk _ (cloneFrom (blockView s.blk.toNat) s)
    rw [cloneFrom_blockView]
    exact hs.congr rfl rfl
  | kexp => exact hkexp
  | gfmul | xtime | sbox | isbox => exact hs.congr (setResult_mb _ s) (congrArg Sequencer.bi (setResult_seq _ s))

theorem bufferOk_exec {i : Instr} {s t : State} (hcfg : s.cfg.legal = true) (hs : BufferOk s.cfg.mbBytes s)
    (h : exec i s = .next t) : BufferOk s.cfg.mbBytes t := by
  by_cases hpass : errmask (encode i) s = 0
  · cases (exec_pass hpass).symm.trans h
    exact (bufferOk_work hcfg hs hpass).congr (completeCommand_mb _) rfl
  · cases (exec_fail hpass).symm.trans h
    exact hs.congr (failCommand_mb _ s) rfl

theorem bufferOk_runPending {s t : State} (hcfg : s.cfg.legal = true) (hs : BufferOk s.cfg.mbBytes s)
    (h : runPending s = .next t) : BufferOk s.cfg.mbBytes t := by
  unfold runPending at h
  cases hdecode : decode s.cmd with
  | ok i => rw [hdecode] at h; exact bufferOk_exec hcfg hs h
  | error r => rw [hdecode] at h; cases h; exact hs.congr (failCommand_mb _ s) rfl

/-- The completion of the command in flight, whatever byte CMD holds, keeps the invariant. -/
theorem Inv.runPending {s t : State} (hi : Inv s) (hrst : s.port.rst = false) (h : runPending s = .next t) : Inv t := by
  obtain ⟨u, hu, hbusy, -, -, hport, hcfg⟩ := runPending_next s
  cases hu.symm.trans h
  exact hi.of_port_eq hrst hport hcfg (bufferOk_runPending hi.cfgLegal hi.bufferOk h) (by simp [hbusy]) (by simp [hbusy])

/-! ## Bus transactions -/

/-- A write to BVDATA writes MB, IV or CLONE, and nothing else. -/
theorem bvWrite_frame (x : Byte) (s : State) : bvWrite x s =
    { s with mb := (bvWrite x s).mb, iv := (bvWrite x s).iv, clone := (bvWrite x s).clone } := by
  unfold bvWrite
  cases bvView s with
  | none => rfl
  | some V =>
    obtain ⟨S, base⟩ := V
    cases S <;> rfl

/-- The sequencer and the flags after a bus write: those of `accept`, or as they were with DONE perhaps cleared. -/
theorem busWrite_control (a : Half) (v : Byte) (s : State) :
    ((busWrite a v s).seq = { s.seq with pending := true } ∧ (busWrite a v s).done = false ∧ (busWrite a v s).err = 0) ∨
    ((busWrite a v s).seq = s.seq ∧ (s.done = false → (busWrite a v s).done = false) ∧ (busWrite a v s).err = s.err) := by
  unfold busWrite
  cases locate s.cfg a
  case cmd => exact .inl ⟨rfl, rfl, rfl⟩
  case status =>
    right
    simp only [writeLocation, writeStatus]
    split <;> simp
  case bvdata =>
    simp only [writeLocation]
    rw [bvWrite_frame]
    exact .inr ⟨rfl, id, rfl⟩
  all_goals exact .inr ⟨rfl, id, rfl⟩

theorem busWrite_port (a : Half) (v : Byte) (s : State) : (busWrite a v s).port = s.port := by
  have h := congrArg State.port (busWrite_withPort a v s s.port)
  exact h

/-- A view the BV port selects over MB lies inside MB (43_blockview.md R116). -/
theorem bvView_inside {s : State} {base : Nat} (h : bvView s = some ⟨.mb, base⟩) : base + 16 ≤ s.cfg.mbBytes := by
  unfold bvView at h
  split at h
  case h_1 =>
    split at h
    · cases h
    case isFalse hin =>
      cases h
      simpa [blockOutside] using hin
  case h_2 => cases h
  case h_3 => cases h
  case h_4 => cases h

/-- A write to BVDATA leaves MB as it was or stores one byte inside it. -/
theorem bvWrite_mb (x : Byte) (s : State) :
    (bvWrite x s).mb = s.mb ∨ ∃ k < s.cfg.mbBytes, (bvWrite x s).mb = Memory.write s.mb k x := by
  unfold bvWrite
  cases hview : bvView s with
  | none => exact .inl rfl
  | some V =>
    obtain ⟨S, base⟩ := V
    cases S with
    | iv | clone => exact .inl rfl
    | mb =>
      have hbase := bvView_inside hview
      refine .inr ⟨index ⟨.mb, base⟩ (bvCol s) (bvRow s), ?_, rfl⟩
      simp only [index]
      omega

theorem registerAt_ne_mb (n k : Nat) : registerAt n ≠ .mb k := by
  unfold registerAt
  split <;> simp

/-- An address that stands for a byte of MB stands for one inside it. -/
theorem locate_mb_lt {p : Config.Params} {a : Half} {k : Nat} (h : locate p a = .mb k) : k < p.mbBytes := by
  rcases locate_cases p a with ⟨_, e⟩ | ⟨_, _, e⟩ | ⟨_, _, e⟩ | ⟨_, _, e⟩ | ⟨hlo, hhi, e⟩ | ⟨_, e⟩ <;> rw [e] at h
  case inr.inr.inr.inr.inl =>
    have hk := Location.mb.inj h
    omega
  case inl => exact absurd h (registerAt_ne_mb _ k)
  all_goals cases h

/-- A bus write leaves MB as it was or stores one byte inside it. -/
theorem busWrite_mb (a : Half) (v : Byte) (s : State) :
    (busWrite a v s).mb = s.mb ∨ ∃ k < s.cfg.mbBytes, (busWrite a v s).mb = Memory.write s.mb k v := by
  unfold busWrite
  cases hloc : locate s.cfg a
  case mb k => exact .inr ⟨k, locate_mb_lt hloc, rfl⟩
  case bvdata => exact bvWrite_mb v s
  case status =>
    left
    simp only [writeLocation, writeStatus]
    split <;> rfl
  all_goals exact .inl rfl

/-- A bus write keeps the invariant at every address, CMD included: `accept` sets BUSY, and clears DONE and ERR. -/
theorem Inv.busWrite {s : State} (hi : Inv s) (hrst : s.port.rst = false) (a : Half) (v : Byte) :
    Inv (busWrite a v s) := by
  have hmb : Memory.wf (Machine.busWrite a v s).mb = true ∧
      Memory.within s.cfg.mbBytes (Machine.busWrite a v s).mb = true := by
    rcases busWrite_mb a v s with h | ⟨k, hk, h⟩ <;> rw [h]
    · exact ⟨hi.mbWf, hi.mbWithin⟩
    · exact ⟨Memory.write_wf hi.mbWf k v, Memory.write_within hi.mbWithin hk v⟩
  have hport := busWrite_port a v s
  have hcfg := busWrite_cfg a v s
  rcases busWrite_control a v s with ⟨hseq, hdone, herr⟩ | ⟨hseq, hdone, herr⟩
  · exact hi.of_port_eq hrst hport hcfg ⟨hmb.1, hmb.2, by rw [hseq]; exact hi.noBlockIndex⟩ (by simp [hdone])
      fun _ => herr
  · have hbusy : busy (Machine.busWrite a v s) = busy s := congrArg Sequencer.pending hseq
    refine hi.of_port_eq hrst hport hcfg ⟨hmb.1, hmb.2, hseq ▸ hi.noBlockIndex⟩ ?_
      fun h => herr.trans (hi.errClearWhileBusy (hbusy ▸ h))
    rw [hbusy, Bool.and_eq_false_imp]
    exact fun h => hdone (Bool.and_eq_false_imp.mp hi.notBusyAndDone h)

theorem Inv.perform {s : State} (hi : Inv s) (hrst : s.port.rst = false) (tr : Transaction) : Inv (perform tr s) := by
  cases tr with
  | read a => exact hi.withPort hi.resetHolds hi.resetDropsHeld hi.heldNotStatus hi.inputsWf
  | write a v =>
    have hw := hi.busWrite hrst a v
    have hcfg := busWrite_cfg a v s
    refine hw.withPort ?_ hi.resetDropsHeld hi.heldNotStatus (by rw [hcfg]; exact hi.inputsWf)
    intro h
    exact absurd h (by simp [hrst])

/-- A transaction presented is performed, or held, and held only away from STATUS. -/
theorem Inv.present {s : State} (hi : Inv s) (hrst : s.port.rst = false) (tr : Transaction) : Inv (present tr s) := by
  unfold Machine.present
  split
  case isTrue hheld =>
    obtain ⟨-, haddr⟩ := (Bool.and_eq_true _ _).mp hheld
    refine hi.withPort hi.resetHolds (fun h => ?_) (fun u hu => ?_) hi.inputsWf
    · simp [hrst] at h
    · cases hu
      exact bne_iff_ne.mp haddr
  case isFalse => exact hi.perform hrst tr

/-! ## Steps -/

theorem Inv.stepInReset {s t : State} (hi : Inv s) (h : stepInReset s = .next t) : Inv t := by
  unfold Machine.stepInReset at h
  split at h
  case h_1 => cases h; exact hi
  case h_2 hin =>
    cases h
    exact hi.withPort (fun h => by cases h) (fun h => by cases h) hi.heldNotStatus (hi.next_input hin).2
  case h_3 hin => cases h; exact hi.assertReset hin
  case h_4 hin => cases h; exact hi.withInputs hin
  case h_5 hin => cases h; exact hi.withInputs hin

theorem Inv.stepBusy {s t : State} (hi : Inv s) (hrst : s.port.rst = false) (h : stepBusy s = .next t) : Inv t := by
  unfold Machine.stepBusy at h
  split at h
  case h_1 hin => cases h; exact hi.assertReset hin
  case h_2 hin => exact (hi.withInputs hin).runPending hrst h
  case h_3 tr _ _ hin => cases h; exact (hi.withInputs hin).present hrst tr
  case h_4 hin => cases h; exact hi.withInputs hin
  case h_5 => exact hi.runPending hrst h

theorem Inv.stepIdle {s t : State} (hi : Inv s) (hrst : s.port.rst = false) (h : stepIdle s = .next t) : Inv t := by
  unfold Machine.stepIdle at h
  split at h
  case h_1 hin => cases h; exact hi.assertReset hin
  case h_2 tr _ _ =>
    cases h
    have hfree : Inv { s with port := { s.port with held := none } } :=
      hi.withPort hi.resetHolds (fun _ => rfl) (fun _ h => by cases h) hi.inputsWf
    exact hfree.perform hrst tr
  case h_3 tr _ _ hin => cases h; exact (hi.withInputs hin).present hrst tr
  case h_4 hin => cases h; exact hi.withInputs hin
  case h_5 hin => cases h; exact hi.withInputs hin
  case h_6 => cases h; exact hi

/-- Settles O56: each of the three parts of `nextStep` keeps the invariant. -/
theorem everyStepKeepsTheInvariant : Obligations.EveryStepKeepsTheInvariant := by
  intro s t hi h
  unfold step nextStep at h
  split at h
  case isTrue => exact hi.stepInReset h
  case isFalse hrst =>
    have hrst := Bool.eq_false_iff.mpr hrst
    split at h
    · exact hi.stepBusy hrst h
    · exact hi.stepIdle hrst h

end Sys2Proof.Machine
end

section
/-! The bus (20_memory.md R41 to R52): what a read of a location returns after a write to it or to another one, and what
doing a write again does. -/

namespace Sys2Proof.Machine

/-! ## One byte written, then read or written again -/

/-- Storing the same byte again at the same index changes nothing. -/
theorem Memory.write_write_same {m : Memory} (hm : Memory.wf m = true) (a : Nat) (v : Byte) :
    Memory.write (Memory.write m a v) a v = Memory.write m a v := by
  have hw := Memory.write_wf hm a v
  refine Memory.ext_of_wf (Memory.write_wf hw a v) hw fun a' => ?_
  rw [Memory.read_write hw]
  split
  case isTrue h => rw [h, Memory.read_write_same hm]
  case isFalse => rfl

theorem byteAt_setIfInBounds_same (b : Block) {k : Nat} (hk : k < 16) (v : Byte) :
    byteAt (b.setIfInBounds k v) k = v := by
  rw [byteAt, Vector.getElem?_setIfInBounds_self_of_lt hk, Option.getD_some]

theorem byteAt_setIfInBounds_other (b : Block) {k k' : Nat} (h : k ≠ k') (v : Byte) :
    byteAt (b.setIfInBounds k v) k' = byteAt b k' := by
  rw [byteAt, Vector.getElem?_setIfInBounds_ne h, byteAt]

/-- For an index of the block, the bounds check of `setIfInBounds` plays no part. -/
theorem setIfInBounds_eq_set (b : Block) {k : Nat} (hk : k < 16) (v : Byte) : b.setIfInBounds k v = b.set k v := by
  ext i hi
  rw [Vector.getElem_setIfInBounds, Vector.getElem_set]

@[simp] theorem lowByte_withHighByte (w : Half) (v : Byte) : lowByte (withHighByte w v) = lowByte w := lowByte_append ..

@[simp] theorem highByte_withLowByte (w : Half) (v : Byte) : highByte (withLowByte w v) = highByte w := highByte_append ..

@[simp] theorem lowByte_withLowByte (w : Half) (v : Byte) : lowByte (withLowByte w v) = v := lowByte_append ..

@[simp] theorem highByte_withHighByte (w : Half) (v : Byte) : highByte (withHighByte w v) = v := highByte_append ..

@[simp] theorem withLowByte_withLowByte (w : Half) (v v' : Byte) : withLowByte (withLowByte w v) v' = withLowByte w v' := by
  rw [withLowByte, highByte_withLowByte, withLowByte]

@[simp] theorem withHighByte_withHighByte (w : Half) (v v' : Byte) : withHighByte (withHighByte w v) v' = withHighByte w v' := by
  rw [withHighByte, lowByte_withHighByte, withHighByte]

/-- The high half, then the low half: whatever the register held is gone (20_memory.md R52). -/
@[simp] theorem withLowByte_withHighByte (m w : Half) : withLowByte (withHighByte m (highByte w)) (lowByte w) = w := by
  rw [withLowByte, highByte_withHighByte, highByte_append_lowByte]

/-- The low half, then the high half. -/
@[simp] theorem withHighByte_withLowByte (m w : Half) : withHighByte (withLowByte m (lowByte w)) (highByte w) = w := by
  rw [withHighByte, lowByte_withLowByte, highByte_append_lowByte]

/-- `DONE <- DONE and not v[1]` (10_state.md R21). -/
theorem writeStatus_eq (v : Byte) (s : State) : writeStatus v s = { s with done := s.done && !v.getLsbD 1 } := by
  unfold writeStatus
  split
  case isTrue h => rw [h, Bool.not_true, Bool.and_false]
  case isFalse h => rw [Bool.eq_false_iff.mpr h, Bool.not_false, Bool.and_true]

theorem writeStatus_of_not_done {s : State} (h : s.done = false) (v : Byte) : writeStatus v s = s := by
  rw [writeStatus_eq, h, Bool.false_and, ← h]

theorem spaceWrite_spaceWrite {s : State} (hm : Memory.wf s.mb = true) (S : Space) (a : Nat) (v : Byte) :
    spaceWrite S a v (spaceWrite S a v s) = spaceWrite S a v s := by
  cases S with
  | mb => exact congrArg (fun m => { s with mb := m }) (Memory.write_write_same hm a v)
  | iv => exact congrArg (fun b => { s with iv := b }) (Vector.setIfInBounds_setIfInBounds v)
  | clone => exact congrArg (fun b => { s with clone := b }) (Vector.setIfInBounds_setIfInBounds v)

theorem bvWrite_of_bvView_none {s : State} (h : bvView s = none) (x : Byte) : bvWrite x s = s := by
  unfold bvWrite
  rw [h]

theorem bvWrite_of_bvView_some {s : State} {V : View} (h : bvView s = some V) (x : Byte) :
    bvWrite x s = viewWrite V (bvCol s) (bvRow s) x s := by
  unfold bvWrite
  rw [h]

/-- A write to BVDATA does not move the byte the port selects, so it can be done again (43_blockview.md R116). -/
theorem bvWrite_bvWrite {s : State} (hm : Memory.wf s.mb = true) (x : Byte) :
    bvWrite x (bvWrite x s) = bvWrite x s := by
  cases hview : bvView s with
  | none => rw [bvWrite_of_bvView_none hview, bvWrite_of_bvView_none hview]
  | some V =>
    have hview' : bvView (bvWrite x s) = some V := by rw [bvWrite_frame]; exact hview
    have hcol : bvCol (bvWrite x s) = bvCol s := by rw [bvWrite_frame]; rfl
    have hrow : bvRow (bvWrite x s) = bvRow s := by rw [bvWrite_frame]; rfl
    rw [bvWrite_of_bvView_some hview', hcol, hrow, bvWrite_of_bvView_some hview]
    exact spaceWrite_spaceWrite hm V.space _ x

/-! ## Locations -/

/-- A write to a location that starts no command, done again, changes nothing more. -/
theorem writeLocation_writeLocation {l : Location} (hcmd : l ≠ .cmd) {s : State} (hm : Memory.wf s.mb = true) (v : Byte) :
    writeLocation v (writeLocation v s l) l = writeLocation v s l := by
  cases l with
  | cmd => exact absurd rfl hcmd
  | status =>
    show writeStatus v (writeStatus v s) = writeStatus v s
    simp only [writeStatus_eq, Bool.and_assoc, Bool.and_self]
  | msglenL => exact congrArg (fun w => { s with msglen := w }) (withLowByte_withLowByte ..)
  | msglenH => exact congrArg (fun w => { s with msglen := w }) (withHighByte_withHighByte ..)
  | blkL => exact congrArg (fun w => { s with blk := w }) (withLowByte_withLowByte ..)
  | blkH => exact congrArg (fun w => { s with blk := w }) (withHighByte_withHighByte ..)
  | bvdata => exact bvWrite_bvWrite hm v
  | key k => exact congrArg (fun b => { s with key := b }) (Vector.setIfInBounds_setIfInBounds v)
  | iv k => exact spaceWrite_spaceWrite hm .iv k v
  | mb a => exact spaceWrite_spaceWrite hm .mb a v
  | err | ctrl | klen | ivlen | bvsel | opa | opb | result | rk _ | reserved => rfl

/-- Each location has storage of its own. CMD and STATUS show in the flags; BVDATA shows, and stores, another location's
byte. -/
theorem readLocation_writeLocation_other {l l' : Location} (hne : l ≠ l') (hcmd : l ≠ .cmd) (hstatus : l ≠ .status)
    (hbvdata : l ≠ .bvdata) (hbvdata' : l' ≠ .bvdata) (v : Byte) (s : State) :
    readLocation (writeLocation v s l) l' = readLocation s l' := by
  cases l with
  | cmd => exact absurd rfl hcmd
  | status => exact absurd rfl hstatus
  | bvdata => exact absurd rfl hbvdata
  | err | result | rk _ | reserved => rfl
  | ctrl | klen | ivlen | bvsel | opa | opb =>
    cases l' <;> try contradiction
    all_goals rfl
  | msglenL =>
    cases l' <;> try contradiction
    case msglenH => exact highByte_withLowByte ..
    all_goals rfl
  | msglenH =>
    cases l' <;> try contradiction
    case msglenL => exact lowByte_withHighByte ..
    all_goals rfl
  | blkL =>
    cases l' <;> try contradiction
    case blkH => exact highByte_withLowByte ..
    all_goals rfl
  | blkH =>
    cases l' <;> try contradiction
    case blkL => exact lowByte_withHighByte ..
    all_goals rfl
  | key k =>
    cases l' <;> try contradiction
    case key k' => exact byteAt_setIfInBounds_other _ (fun h => hne (congrArg _ h)) v
    all_goals rfl
  | iv k =>
    cases l' <;> try contradiction
    case iv k' => exact byteAt_setIfInBounds_other _ (fun h => hne (congrArg _ h)) v
    all_goals rfl
  | mb a =>
    cases l' <;> try contradiction
    case mb a' => exact Memory.read_write_other (fun h => hne (congrArg _ h.symm)) s.mb v
    all_goals rfl

/-- The locations that keep all eight bits of what is written to them. -/
def Location.keepsByte : Location → Bool
  | .cmd | .klen | .ivlen | .msglenL | .msglenH | .blkL | .blkH | .opa | .opb | .mb _ => true
  | .key k | .iv k => decide (k < 16)
  | .status | .err | .ctrl | .bvsel | .bvdata | .result | .rk _ | .reserved => false

theorem readLocation_writeLocation_same {l : Location} (h : l.keepsByte = true) {s : State}
    (hm : Memory.wf s.mb = true) (v : Byte) : readLocation (writeLocation v s l) l = v := by
  cases l with
  | cmd | klen | ivlen | opa | opb => rfl
  | msglenL | blkL => exact lowByte_withLowByte ..
  | msglenH | blkH => exact highByte_withHighByte ..
  | key k | iv k => exact byteAt_setIfInBounds_same _ (of_decide_eq_true h) v
  | mb a => exact Memory.read_write_same hm a v
  | status | err | ctrl | bvsel | bvdata | result | rk _ | reserved => cases h

/-- The addresses of the locations that keep a byte (20_memory.md R41). -/
theorem locate_keepsByte {p : Config.Params} {a : Half}
    (h : a.toNat = 0x0000 ∨ (0x0004 ≤ a.toNat ∧ a.toNat ≤ 0x0009) ∨ a.toNat = 0x000C ∨ a.toNat = 0x000D ∨
      (0x0020 ≤ a.toNat ∧ a.toNat ≤ 0x003F) ∨ (0x1000 ≤ a.toNat ∧ a.toNat < 0x1000 + p.mbBytes)) :
    (locate p a).keepsByte = true := by
  have hregister : ∀ n < 0x20, n = 0 ∨ (4 ≤ n ∧ n ≤ 9) ∨ n = 12 ∨ n = 13 → (registerAt n).keepsByte = true := by decide
  rcases locate_cases p a with ⟨hlt, e⟩ | ⟨hlo, hhi, e⟩ | ⟨hlo, hhi, e⟩ | ⟨hlo, hhi, e⟩ | ⟨hlo, hhi, e⟩ | ⟨hgap, e⟩ <;> rw [e]
  · exact hregister _ hlt (by omega)
  · exact decide_eq_true (by omega)
  · exact decide_eq_true (by omega)
  · omega
  · rfl
  · omega

/-! ## Addresses -/

theorem busRead_of_locate {s : State} {a : Half} {l : Location} (h : locate s.cfg a = l) :
    busRead a s = readLocation s l := by
  rw [busRead, h]

theorem busWrite_of_locate {s : State} {a : Half} {l : Location} (h : locate s.cfg a = l) (v : Byte) :
    busWrite a v s = writeLocation v s l := by
  rw [busWrite, h]

theorem busRead_busWrite (a b : Half) (v : Byte) (s : State) :
    busRead b (busWrite a v s) = readLocation (writeLocation v s (locate s.cfg a)) (locate s.cfg b) := by
  rw [busRead, busWrite_cfg, busWrite]

/-- A read does not see the outside world. -/
theorem busRead_withPort (a : Half) (s : State) (p : Port) : busRead a { s with port := p } = busRead a s := by
  show readLocation { s with port := p } (locate s.cfg a) = readLocation s (locate s.cfg a)
  cases locate s.cfg a <;> rfl

/-- The reserved addresses of 20_memory.md R42. -/
theorem busRead_busWrite_reserved {s : State} {addr : Half}
    (h : (0x000F ≤ addr.toNat ∧ addr.toNat ≤ 0x001F) ∨ (0x0040 ≤ addr.toNat ∧ addr.toNat ≤ 0x00FF) ∨
      (0x01B0 ≤ addr.toNat ∧ addr.toNat ≤ 0x0FFF) ∨ 0x1000 + s.cfg.mbBytes ≤ addr.toNat) (v : Byte) :
    busRead addr s = 0x00 ∧ busWrite addr v s = s :=
  have hloc := locate_reserved s.cfg addr h
  ⟨busRead_of_locate hloc, busWrite_of_locate hloc v⟩

theorem busRead_busWrite_key (k : Fin 16) (v : Byte) (s : State) :
    busRead (BitVec.ofNat 16 (0x0020 + k.val)) s = s.key[k.val] ∧
      busWrite (BitVec.ofNat 16 (0x0020 + k.val)) v s = { s with key := s.key.set k.val v } := by
  have hloc := locate_key s.cfg k.val k.isLt
  rw [busRead_of_locate hloc, busWrite_of_locate hloc]
  exact ⟨byteAt_lt s.key k.isLt, congrArg (fun b => { s with key := b }) (setIfInBounds_eq_set s.key k.isLt v)⟩

theorem busRead_busWrite_iv (k : Fin 16) (v : Byte) (s : State) :
    busRead (BitVec.ofNat 16 (0x0030 + k.val)) s = s.iv[k.val] ∧
      busWrite (BitVec.ofNat 16 (0x0030 + k.val)) v s = { s with iv := s.iv.set k.val v } := by
  have hloc := locate_iv s.cfg k.val k.isLt
  rw [busRead_of_locate hloc, busWrite_of_locate hloc]
  exact ⟨byteAt_lt s.iv k.isLt, congrArg (fun b => { s with iv := b }) (setIfInBounds_eq_set s.iv k.isLt v)⟩

theorem busRead_busWrite_rk (j : Fin 176) (v : Byte) (s : State) :
    busRead (BitVec.ofNat 16 (0x0100 + j.val)) s = s.rk[j.val] ∧
      busWrite (BitVec.ofNat 16 (0x0100 + j.val)) v s = s := by
  have hloc := locate_rk s.cfg j.val j.isLt
  rw [busRead_of_locate hloc, busWrite_of_locate hloc]
  refine ⟨?_, rfl⟩
  show s.rk[j.val]?.getD 0 = s.rk[j.val]
  rw [Vector.getElem?_eq_getElem j.isLt, Option.getD_some]

theorem busRead_busWrite_mb {s : State} (hcfg : s.cfg.legal = true) {a : Nat} (ha : a < s.cfg.mbBytes) (v : Byte) :
    busRead (BitVec.ofNat 16 (0x1000 + a)) s = mbByte s a ∧
      busWrite (BitVec.ofNat 16 (0x1000 + a)) v s = { s with mb := Memory.write s.mb a v } :=
  have hloc := locate_mb s.cfg hcfg a ha
  ⟨busRead_of_locate hloc, busWrite_of_locate hloc v⟩

/-- Settles O11: the control registers row by row, then the ranges, each by where `locate` puts it. -/
theorem busAddressMap : Obligations.BusAddressMap := by
  intro s v hcfg
  refine ⟨⟨rfl, rfl⟩, ⟨rfl, writeStatus_eq v s⟩, ⟨rfl, rfl⟩, ⟨rfl, rfl⟩, ⟨rfl, rfl⟩, ⟨rfl, rfl⟩, ⟨rfl, rfl⟩, ⟨rfl, rfl⟩,
    ⟨rfl, rfl⟩, ⟨rfl, rfl⟩, ⟨rfl, rfl⟩, ⟨rfl, rfl⟩, ⟨rfl, rfl⟩, ⟨rfl, rfl⟩, ⟨rfl, rfl⟩, ?_⟩
  exact ⟨fun k => busRead_busWrite_key k v s, fun k => busRead_busWrite_iv k v s, fun j => busRead_busWrite_rk j v s,
    fun _ ha => busRead_busWrite_mb hcfg ha v, fun _ h => busRead_busWrite_reserved h v⟩

/-- A field read below `n` reserved bits is less than its own range. -/
theorem toNat_zero_append_lt {n w : Nat} (x : BitVec w) : ((0 : BitVec n) ++ x).toNat < 2 ^ w := by
  have hx := x.isLt
  simpa [BitVec.toNat_append] using hx

theorem statusByte_lt (s : State) : (statusByte s).toNat < 8 := by
  have hbits : ∀ e d b : Bool,
      ((0 : BitVec 5) ++ BitVec.ofBool e ++ BitVec.ofBool d ++ BitVec.ofBool b).toNat < 8 := by decide
  exact hbits (errorFlag s) s.done (busy s)

/-- ERR, RESULT and RK are read-only (20_memory.md R42). -/
theorem busWrite_readOnly {addr : Half}
    (h : addr = 0x0002 ∨ addr = 0x000E ∨ (0x0100 ≤ addr.toNat ∧ addr.toNat ≤ 0x01AF)) (v : Byte) (s : State) :
    busWrite addr v s = s := by
  rcases h with rfl | rfl | ⟨hlo, hhi⟩
  · rfl
  · rfl
  · have hrk := (busRead_busWrite_rk ⟨addr.toNat - 0x0100, by omega⟩ v s).2
    rwa [Nat.add_sub_cancel' hlo, BitVec.ofNat_toNat, BitVec.setWidth_eq] at hrk

/-- Settles O12: reserved and read-only addresses, then the reserved bits of the four registers that have some. -/
theorem reservedAndReadOnlyLocations : Obligations.ReservedAndReadOnlyLocations := by
  intro s v
  refine ⟨fun _ h => busRead_busWrite_reserved h v, fun _ h => busWrite_readOnly h v s, statusByte_lt s,
    toNat_zero_append_lt s.err, toNat_zero_append_lt (BitVec.ofBool s.ie), toNat_zero_append_lt s.bvsel, ?_, ?_, ?_⟩
  · show writeStatus v s = writeStatus (v &&& 0x02) s
    have hbit : (v &&& 0x02).getLsbD 1 = v.getLsbD 1 := by simp
    rw [writeStatus_eq, writeStatus_eq, hbit]
  · have hbit : v.getLsbD 0 = (v &&& 0x01).getLsbD 0 := by simp
    exact congrArg (fun b => { s with ie := b }) hbit
  · have hmask : (0x3F : Byte).extractLsb' 0 6 = BitVec.allOnes 6 := by decide
    have hbits : v.extractLsb' 0 6 = (v &&& 0x3F).extractLsb' 0 6 := by
      rw [BitVec.extractLsb'_and, hmask, BitVec.and_allOnes]
    exact congrArg (fun x => { s with bvsel := x }) hbits

/-- Settles O13: the trace is no part of what a read sees; a repeated write is one at every location but CMD. -/
theorem busAccessesRepeatHarmlessly : Obligations.BusAccessesRepeatHarmlessly := by
  constructor
  · intro s addr addr'
    exact ⟨rfl, busRead_withPort addr' s _⟩
  · intro s addr v haddr hm
    have hcmd : locate s.cfg addr ≠ .cmd := fun h => haddr (locate_eq_cmd h)
    have hloc : locate (busWrite addr v s).cfg addr = locate s.cfg addr := by rw [busWrite_cfg]
    rw [busWrite_of_locate hloc]
    exact writeLocation_writeLocation hcmd hm v

/-- Settles O14: two addresses stand for two locations, or the written one is reserved (`locate_inj`). -/
theorem busWriteChangesOneAddress : Obligations.BusWriteChangesOneAddress := by
  constructor
  · intro s a b v hab hcmd hstatus hbvdata hbvdata'
    rcases locate_inj s.cfg hab with hne | hreserved
    · rw [busRead_busWrite]
      exact readLocation_writeLocation_other hne (fun h => hcmd (locate_eq_cmd h)) (fun h => hstatus (locate_eq_status h))
        (fun h => hbvdata (locate_eq_bvdata h)) (fun h => hbvdata' (locate_eq_bvdata h)) v s
    · exact congrArg (busRead b) (busWrite_of_locate hreserved v)
  · intro s a v hm ha
    rw [busRead_busWrite]
    exact readLocation_writeLocation_same (locate_keepsByte ha) hm v

/-- Settles O15: each half keeps the other, so the second write completes the value of the first. -/
theorem sixteenBitRegistersAreTwoBytes : Obligations.SixteenBitRegistersAreTwoBytes := by
  intro s v
  refine ⟨rfl, rfl, rfl, rfl, fun w => ⟨?_, ?_, ?_, ?_⟩⟩
  · exact congrArg (fun x => { s with msglen := x }) (withLowByte_withHighByte s.msglen w)
  · exact congrArg (fun x => { s with msglen := x }) (withHighByte_withLowByte s.msglen w)
  · exact congrArg (fun x => { s with blk := x }) (withLowByte_withHighByte s.blk w)
  · exact congrArg (fun x => { s with blk := x }) (withHighByte_withLowByte s.blk w)

end Sys2Proof.Machine
end

section
/-! A command in flight (20_memory.md R46): what each thing the host does next makes of the step. -/

namespace Sys2Proof.Machine

/-- The LATENCY has passed: the command runs, whether or not a transaction is held. -/
theorem step_busy_run {s : State} {rest : List Input} (h : InFlight s) (hin : s.port.inputs = .run :: rest) :
    step s = runPending (withInputs rest s) := by
  rw [step_busy h, stepBusy, hin]

theorem step_busy_no_input {s : State} (h : InFlight s) (hin : s.port.inputs = []) : step s = runPending s := by
  rw [step_busy h, stepBusy, hin]

/-- With nothing held, a transaction is presented to the busy core. -/
theorem step_busy_bus {s : State} {t : Transaction} {rest : List Input} (h : InFlight s) (hheld : s.port.held = none)
    (hin : s.port.inputs = .bus t :: rest) : step s = .next (present t (withInputs rest s)) := by
  rw [step_busy h, stepBusy, hheld, hin]

/-- With a transaction held, the host presents no other one: the command runs. -/
theorem step_busy_bus_held {s : State} {held t : Transaction} {rest : List Input} (h : InFlight s)
    (hheld : s.port.held = some held) (hin : s.port.inputs = .bus t :: rest) : step s = runPending s := by
  rw [step_busy h, stepBusy, hheld, hin]

theorem step_busy_release_held {s : State} {held : Transaction} {rest : List Input} (h : InFlight s)
    (hheld : s.port.held = some held) (hin : s.port.inputs = .release :: rest) : step s = runPending s := by
  rw [step_busy h, stepBusy, hheld, hin]

/-- With a transaction held, whatever comes next but a reset, the step runs the command. -/
theorem step_busy_held {s : State} {t : Transaction} (h : InFlight s) (hheld : s.port.held = some t)
    (hreset : ∀ init rest, s.port.inputs ≠ .reset init :: rest) :
    ∃ inputs, step s = runPending (withInputs inputs s) := by
  cases hin : s.port.inputs with
  | nil => exact ⟨s.port.inputs, step_busy_no_input h hin⟩
  | cons x rest =>
    cases x with
    | reset init => exact absurd hin (hreset init rest)
    | run => exact ⟨rest, step_busy_run h hin⟩
    | bus t' => exact ⟨s.port.inputs, step_busy_bus_held h hheld hin⟩
    | release => exact ⟨s.port.inputs, step_busy_release_held h hheld hin⟩

/-- BUSY = 0: the held transaction is performed before the host's next input, unless that is a reset. -/
theorem step_idle_held {s : State} {t : Transaction} (hrst : s.port.rst = false) (hbusy : busy s = false)
    (hheld : s.port.held = some t) (hreset : ∀ init rest, s.port.inputs ≠ .reset init :: rest) :
    step s = .next (perform t { s with port := { s.port with held := none } }) := by
  have hstep : step s = stepIdle s := by simp [step, nextStep, hrst, hbusy]
  rw [hstep, stepIdle, hheld]
  cases hin : s.port.inputs with
  | nil => rfl
  | cons x rest =>
    cases x with
    | reset init => exact absurd hin (hreset init rest)
    | bus _ | run | release => rfl

theorem present_status {t : Transaction} (h : t.addr = statusAddr) (s : State) : present t s = perform t s := by
  simp [present, h]

theorem present_held {t : Transaction} (h : t.addr ≠ statusAddr) {s : State} (hbusy : busy s = true) :
    present t s = { s with port := { s.port with held := some t } } := by
  simp [present, h, hbusy]

/-- While a command is in flight DONE is 0 (10_state.md R21). -/
theorem Inv.not_done {s : State} (hi : Inv s) (hbusy : busy s = true) : s.done = false :=
  Bool.and_eq_false_imp.mp hi.notBusyAndDone hbusy

/-- STATUS reads BUSY = 1, DONE = 0, ERROR = 0 while a command is in flight (20_memory.md R46). -/
theorem Inv.statusByte_busy {s : State} (hi : Inv s) (hbusy : busy s = true) : statusByte s = 0x01 := by
  simp [statusByte, errorFlag, hi.errClearWhileBusy hbusy, hi.not_done hbusy, hbusy]

/-- Settles O3: the three ways the LATENCY of a command can have passed. -/
theorem stepRunsTheCommandInFlight : Obligations.StepRunsTheCommandInFlight := by
  intro s i h hdecode
  refine ⟨fun rest hin => ?_, fun hin => ?_, fun held t rest hheld hin => ?_⟩
  · exact (step_busy_run h hin).trans (runPending_of_decode hdecode)
  · exact (step_busy_no_input h hin).trans (runPending_of_decode hdecode)
  · exact (step_busy_bus_held h hheld hin).trans (runPending_of_decode hdecode)

/-- Settles O7: STATUS read, STATUS write, any other transaction, and a transaction already held. -/
theorem busyServesStatusAndHoldsTheRest : Obligations.BusyServesStatusAndHoldsTheRest := by
  refine ⟨fun s rest hi h hheld hin => ?_, fun s v rest hi h hheld hin => ?_, fun s t rest h hheld haddr hin => ?_,
    fun s t h hheld hreset => ?_⟩
  · have hread : busRead 0x0001 (withInputs rest s) = 0x01 := (hi.withInputs hin).statusByte_busy h.2
    rw [step_busy_bus h hheld hin, present_status rfl, perform, hread]
    rfl
  · have hdone : (withInputs rest s).done = false := hi.not_done h.2
    have hwrite : busWrite 0x0001 v (withInputs rest s) = withInputs rest s := writeStatus_of_not_done hdone v
    rw [step_busy_bus h hheld hin, present_status rfl, perform, hwrite]
    rfl
  · rw [step_busy_bus h hheld hin, present_held haddr (s := withInputs rest s) h.2]
    rfl
  · obtain ⟨inputs, hstep⟩ := step_busy_held h hheld hreset
    obtain ⟨u, hu, hbusy, -, -, hport, -⟩ := runPending_next (withInputs inputs s)
    have hrst : u.port.rst = false := by rw [hport]; exact h.1
    have hheld' : u.port.held = some t := by rw [hport]; exact hheld
    exact ⟨u, hstep.trans hu, hbusy, hheld', step_idle_held hrst hbusy hheld'⟩

end Sys2Proof.Machine
end

section
/-! The command byte (30_encoding.md R60 to R64): the decoder by inversion, and the mask of a byte it rejects. -/

namespace Sys2Proof.Machine

/-- A byte is its two fields (30_encoding.md R60). -/
theorem byte_eq_of_fields {v w : Byte} (hopc : opcOf v = opcOf w) (hmode : modeOf v = modeOf w) : v = w := by
  unfold opcOf at hopc
  unfold modeOf at hmode
  exact BitVec.eq_of_toNat_eq (by omega)

/-- `Laws.CommandByte.Statement` for every command at once. -/
theorem commandByte_statement (i : Instr) : Laws.CommandByte.Statement i := by
  cases i
  exacts [Laws.CommandByte.encEcb, Laws.CommandByte.encCbc, Laws.CommandByte.encOfb, Laws.CommandByte.encCfb,
    Laws.CommandByte.decEcb, Laws.CommandByte.decCbc, Laws.CommandByte.decOfb, Laws.CommandByte.decCfb,
    Laws.CommandByte.kexp, Laws.CommandByte.encb, Laws.CommandByte.decb, Laws.CommandByte.gfmul,
    Laws.CommandByte.xtime, Laws.CommandByte.sbox, Laws.CommandByte.isbox, Laws.CommandByte.clone]

@[simp] theorem decode_encode (i : Instr) : decode (encode i) = .ok i := by
  obtain ⟨-, -, -, -, -, hdecode, -⟩ := commandByte_statement i
  exact hdecode

/-- What the decoder answers for a byte `v`, with the fields of `v` that make it answer so (30_encoding.md R63, R64). -/
inductive DecodeCase (v : Byte) : Except Reject Instr → Prop where
  | command (i : Instr) (byte : v = encode i) : DecodeCase v (.ok i)
  | unsupported (opc : opcOf v = 1 ∨ opcOf v = 2) (mode : 4 ≤ modeOf v) : DecodeCase v (.error .unsupportedMode)
  | illegal (fields : opcOf v = 0 ∨ 0xB ≤ opcOf v ∨ (3 ≤ opcOf v ∧ modeOf v ≠ 0)) :
      DecodeCase v (.error .illegalCommand)

theorem decodeCase_enc {v : Byte} (h : opcOf v = 1) : DecodeCase v (decodeEnc (modeOf v)) :=
  match hmode : modeOf v with
  | 0 => .command .encEcb (byte_eq_of_fields h hmode)
  | 1 => .command .encCbc (byte_eq_of_fields h hmode)
  | 2 => .command .encOfb (byte_eq_of_fields h hmode)
  | 3 => .command .encCfb (byte_eq_of_fields h hmode)
  | _ + 4 => .unsupported (.inl h) (by omega)

theorem decodeCase_dec {v : Byte} (h : opcOf v = 2) : DecodeCase v (decodeDec (modeOf v)) :=
  match hmode : modeOf v with
  | 0 => .command .decEcb (byte_eq_of_fields h hmode)
  | 1 => .command .decCbc (byte_eq_of_fields h hmode)
  | 2 => .command .decOfb (byte_eq_of_fields h hmode)
  | 3 => .command .decCfb (byte_eq_of_fields h hmode)
  | _ + 4 => .unsupported (.inr h) (by omega)

theorem decodeCase_unit {v : Byte} {i : Instr} (h : opcOf v = opcOf (encode i)) (hi : 3 ≤ opcOf (encode i)) :
    DecodeCase v (decodeUnit i (modeOf v)) := by
  obtain ⟨-, -, -, -, hunit, -, -⟩ := commandByte_statement i
  unfold decodeUnit
  split
  case isTrue hmode => exact .command i (byte_eq_of_fields h (hmode.trans (hunit hi).symm))
  case isFalse hmode => exact .illegal (.inr (.inr ⟨h ▸ hi, hmode⟩))

/-- The decoder by inversion: one case per opcode. -/
theorem decodeCase (v : Byte) : DecodeCase v (decode v) := by
  unfold decode
  match h : opcOf v with
  | 0x0 => exact .illegal (.inl h)
  | 0x1 => exact decodeCase_enc h
  | 0x2 => exact decodeCase_dec h
  | 0x3 => exact decodeCase_unit (i := .kexp) h (by decide)
  | 0x4 => exact decodeCase_unit (i := .encb) h (by decide)
  | 0x5 => exact decodeCase_unit (i := .decb) h (by decide)
  | 0x6 => exact decodeCase_unit (i := .gfmul) h (by decide)
  | 0x7 => exact decodeCase_unit (i := .xtime) h (by decide)
  | 0x8 => exact decodeCase_unit (i := .sbox) h (by decide)
  | 0x9 => exact decodeCase_unit (i := .isbox) h (by decide)
  | 0xA => exact decodeCase_unit (i := .clone) h (by decide)
  | n + 0xB => exact .illegal (.inr (.inl (by omega)))

theorem decode_eq_ok_iff {v : Byte} {i : Instr} : decode v = .ok i ↔ v = encode i := by
  constructor
  · intro h
    cases h ▸ decodeCase v with
    | command _ byte => exact byte
  · rintro rfl
    exact decode_encode i

theorem decode_eq_unsupported_iff {v : Byte} :
    decode v = .error .unsupportedMode ↔ (opcOf v = 1 ∨ opcOf v = 2) ∧ 4 ≤ modeOf v := by
  constructor
  · intro h
    cases h ▸ decodeCase v with
    | unsupported opc mode => exact ⟨opc, mode⟩
  · rintro ⟨hopc, hmode⟩
    have hcase := decodeCase v
    generalize decode v = answer at hcase ⊢
    cases hcase with
    | command i byte =>
      obtain ⟨-, -, -, hlt, -, -, -⟩ := commandByte_statement i
      subst byte
      omega
    | unsupported => rfl
    | illegal fields => omega

theorem decode_eq_illegal_iff {v : Byte} :
    decode v = .error .illegalCommand ↔ opcOf v = 0 ∨ 0xB ≤ opcOf v ∨ (3 ≤ opcOf v ∧ modeOf v ≠ 0) := by
  constructor
  · intro h
    cases h ▸ decodeCase v with
    | illegal fields => exact fields
  · intro hfields
    have hcase := decodeCase v
    generalize decode v = answer at hcase ⊢
    cases hcase with
    | command i byte =>
      obtain ⟨-, hlo, hhi, -, hunit, -, -⟩ := commandByte_statement i
      subst byte
      omega
    | unsupported opc => omega
    | illegal => rfl

/-- Settles O1: the three equivalences are the three cases of `decodeCase`; the census counts the 256 bytes. -/
theorem commandBytesDecodeExactly : Obligations.CommandBytesDecodeExactly := by
  refine ⟨⟨rfl, rfl, rfl, rfl, rfl, rfl, rfl, rfl, rfl, rfl, rfl, rfl, rfl, rfl, rfl, rfl⟩, fun _ _ => decode_eq_ok_iff,
    fun v => ?_, fun v => ?_, by decide +kernel, by decide +kernel, by decide +kernel⟩
  · rw [decode_eq_unsupported_iff, opcOf, modeOf]
    omega
  · have hv := v.isLt
    rw [decode_eq_illegal_iff, opcOf, modeOf]
    omega

/-- Settles O2: `Laws.CommandByte` has the table word; a stream is decoded from its first byte. -/
theorem everyCommandDecodesFromItsTableWord : Obligations.EveryCommandDecodesFromItsTableWord := by
  intro i
  obtain ⟨hwf, -, -, -, -, -, hword⟩ := commandByte_statement i
  refine ⟨hwf, hword, fun rest => ?_⟩
  rw [decodeBytes, decode_encode]

/-- An illegal byte has IllegalCommand and no other bit (30_encoding.md R64 (a)). -/
theorem errmask_of_decode_illegal {v : Byte} (h : decode v = .error .illegalCommand) (s : State) :
    errmask v s = 0x08 := by
  have hfields := decode_eq_illegal_iff.mp h
  rw [errmask, if_neg (by omega)]
  split
  · rw [if_neg (by omega)]
    rfl
  · rfl

/-- An unsupported mode keeps the key and range bits and drops the IV bit (30_encoding.md R64 (b)). -/
theorem errmask_of_decode_unsupported {v : Byte} (h : decode v = .error .unsupportedMode) (s : State) :
    errmask v s = 0x04 ||| bitIf (s.klen ≠ 16) 0x01 ||| bitIf (s.cfg.mbBytes < s.msglen.toNat) 0x10 := by
  obtain ⟨hopc, hmode⟩ := decode_eq_unsupported_iff.mp h
  have hmode' : ¬modeOf v < 4 := by omega
  rw [errmask, if_pos hopc, cipherMask, decide_eq_true hmode, decide_eq_false hmode', Bool.false_and, Bool.false_and,
    maskIf_false, mask_or_zero, keyLengthBad_eq, messageTooLong, maskIf_eq, maskIf_eq,
    BitVec.or_comm (bitIf (s.klen ≠ 16) invalidKeyLength)]
  rfl

theorem errmask_ne_zero_of_decode_error {v : Byte} {r : Reject} (h : decode v = .error r) (s : State) :
    errmask v s ≠ 0 := by
  cases r with
  | illegalCommand =>
    rw [errmask_of_decode_illegal h]
    decide
  | unsupportedMode =>
    rw [errmask_of_decode_unsupported h, BitVec.or_assoc]
    exact fun hzero => absurd (BitVec.or_eq_zero_iff.mp hzero).1 (by decide)

/-- Only a command passes the checks. -/
theorem decode_ok_of_errmask_eq_zero {v : Byte} {s : State} (h : errmask v s = 0) : ∃ i, decode v = .ok i := by
  cases hdecode : decode v with
  | ok i => exact ⟨i, rfl⟩
  | error r => exact absurd h (errmask_ne_zero_of_decode_error hdecode s)

end Sys2Proof.Machine
end

section
/-! The life cycle of a command (30_encoding.md R69): accepted, checked, executed, completed. -/

namespace Sys2Proof.Machine

theorem runPending_of_decode_error {s : State} {r : Reject} (h : decode s.cmd = .error r) :
    runPending s = .next (failCommand (errmask s.cmd s) s) := by
  rw [runPending, h]

/-- A byte in flight that fails a check takes the failure path, whether or not it is a command. -/
theorem runPending_fail {s : State} (h : errmask s.cmd s ≠ 0) :
    runPending s = .next (failCommand (errmask s.cmd s) s) := by
  cases hdecode : decode s.cmd with
  | ok i =>
    have hcmd := decode_eq_ok_iff.mp hdecode
    rw [runPending_of_decode hdecode, exec_fail (hcmd ▸ h), hcmd]
  | error r => exact runPending_of_decode_error hdecode

/-- A byte in flight that passes the checks is a command, and runs; ERR stays as it was. -/
theorem runPending_pass {s t : State} (h : errmask s.cmd s = 0) (ht : runPending s = .next t) :
    ∃ i, decode s.cmd = .ok i ∧ exec i s = .next t ∧ t.err = s.err := by
  obtain ⟨i, hdecode⟩ := decode_ok_of_errmask_eq_zero h
  rw [runPending_of_decode hdecode] at ht
  obtain ⟨u, hu, -, -, -, -, -, herr⟩ := exec_next i s
  cases hu.symm.trans ht
  exact ⟨i, hdecode, hu, herr (decode_eq_ok_iff.mp hdecode ▸ h)⟩

theorem decode_of_decodeTableWord {nbits w : Nat} {i : Instr} (h : decodeTableWord nbits w = some i) :
    decode (BitVec.ofNat 8 (w % 2 ^ nbits)) = .ok i := by
  rw [decodeTableWord, decodeBytes] at h
  split at h
  case h_1 j rest hj =>
    cases h
    exact congrArg Prod.fst (Option.some.inj hj)
  case h_2 => cases h

/-- Settles O4: `withFetchWord` is a command in flight whose LATENCY has passed. -/
theorem fetchWordStepIsExec : Obligations.FetchWordStepIsExec := by
  intro s nbits w i h
  have hdecode := decode_of_decodeTableWord h
  have hflight : InFlight (s.withFetchWord nbits w) := ⟨rfl, rfl⟩
  rw [step_busy_run hflight (rest := s.port.inputs) rfl, runPending_of_decode (i := i) hdecode,
    ← decode_eq_ok_iff.mp hdecode]
  rfl

/-- Settles O5: the write is acceptance; then the byte in flight fails a check or is a command that runs. -/
theorem cmdWriteAcceptsChecksExecutesCompletes : Obligations.CmdWriteAcceptsChecksExecutesCompletes := by
  constructor
  · intro s v rest hidle hin
    have haccept := step_idle_bus hidle hin
    have hrun := step_busy_run (s := perform (.write 0x0000 v) (withInputs (.run :: rest) s)) ⟨hidle.1, rfl⟩ rfl
    obtain ⟨t, ht, hbusy, hdone, -, -, -⟩ := runPending_next
      (withInputs rest (perform (.write 0x0000 v) (withInputs (.run :: rest) s)))
    have hirq : irq t = t.ie := by rw [irq, hdone, Bool.and_true]
    refine ⟨_, t, haccept, rfl, hrun.trans ht, fun hfail => ?_, fun hpass => runPending_pass hpass ht, hbusy, hdone, hirq⟩
    exact Host.Outcome.next.inj (ht.symm.trans (runPending_fail hfail))
  · intro s v hrst hbusy hheld hreset
    exact step_idle_held hrst hbusy hheld hreset

/-- Settles O6: both rejects take the failure path with the mask of their byte. -/
theorem rejectedBytesFailWithTheirMask : Obligations.RejectedBytesFailWithTheirMask := by
  refine ⟨fun s rest h hin hdecode => ?_, fun s rest h hin hdecode => ?_, fun v => ?_, rfl⟩
  · rw [step_busy_run h hin, runPending_of_decode_error (s := withInputs rest s) hdecode,
      withInputs_cmd, errmask_of_decode_illegal hdecode]
    rfl
  · rw [step_busy_run h hin, runPending_of_decode_error (s := withInputs rest s) hdecode,
      withInputs_cmd, errmask_of_decode_unsupported hdecode]
    rfl
  · cases hdecode : decode v with
    | ok i => exact .inl ⟨i, rfl⟩
    | error r => exact .inr (errmask_ne_zero_of_decode_error hdecode)

end Sys2Proof.Machine
end

section
/-! Scripts (30_encoding.md R67, R68): a run of the core over a list of transactions, and what each pseudo-instruction
leaves. -/

namespace Sys2Proof.Machine

/-! ## Runs -/

/-- A run of `m + n` steps is a run of `m`, then of `n`. -/
theorem core_run_add (M : Host.Core) {m : Nat} (n : Nat) {s t : M.State} (h : M.run m s = .next t) :
    M.run (m + n) s = M.run n t := by
  induction m generalizing s with
  | zero =>
    cases h
    rw [Nat.zero_add]
  | succ m ih =>
    cases hstep : M.step s with
    | next u =>
      rw [core_run_succ M hstep] at h
      rw [Nat.add_right_comm, core_run_succ M hstep, ih h]
    | fault r => rw [Host.Core.run, hstep] at h; cases h
    | refused r => rw [Host.Core.run, hstep] at h; cases h

/-- The state `s` after STATUS has been read `polls` times, each time as 0x01, with the inputs `rest` left. -/
def polled (polls : Nat) (rest : List Input) (s : State) : State :=
  { s with port := { s.port with
    inputs := rest
    trace := List.replicate polls (.read 0x0001 0x01) ++ s.port.trace } }

/-- Polls of a command in flight change the record of transactions alone (20_memory.md R46). -/
theorem run_polls (polls : Nat) {s : State} {rest : List Input} (hi : Inv s) (h : InFlight s) (hheld : s.port.held = none)
    (hin : s.port.inputs = List.replicate polls (scriptRead 0x0001) ++ rest) :
    Sys2Proof.core.run polls s = .next (polled polls rest s) := by
  induction polls generalizing s with
  | zero =>
    rw [List.replicate_zero, List.nil_append] at hin
    subst hin
    rfl
  | succ n ih =>
    have hnext : s.port.inputs = scriptRead 0x0001 :: (List.replicate n (scriptRead 0x0001) ++ rest) := hin
    have hstep := busyServesStatusAndHoldsTheRest.1 s _ hi h hheld hnext
    rw [core_run_succ Sys2Proof.core hstep, ih (everyStepKeepsTheInvariant _ _ hi hstep) h hheld rfl]
    simp [polled, List.replicate_succ']

theorem statusByte_bits (s : State) : (statusByte s).getLsbD 0 = busy s ∧ (statusByte s).getLsbD 1 = s.done := by
  have hbits : ∀ e d b : Bool,
      ((0 : BitVec 5) ++ BitVec.ofBool e ++ BitVec.ofBool d ++ BitVec.ofBool b).getLsbD 0 = b ∧
      ((0 : BitVec 5) ++ BitVec.ofBool e ++ BitVec.ofBool d ++ BitVec.ofBool b).getLsbD 1 = d := by decide
  exact hbits (errorFlag s) s.done (busy s)

/-- The command in flight completes, and STATUS is read by the core that is idle again. -/
theorem run_completion_then_status {s : State} {rest : List Input} (h : InFlight s) (hheld : s.port.held = none)
    (hin : s.port.inputs = .run :: scriptRead 0x0001 :: rest) :
    ∃ t : State, Sys2Proof.core.run 2 s = .next t ∧ t.port.trace = .read 0x0001 (statusByte t) :: s.port.trace ∧
      t.port.inputs = rest ∧ busy t = false ∧ t.done = true := by
  obtain ⟨w, hw, hbusy, hdone, -, hport, -⟩ := runPending_next (withInputs (scriptRead 0x0001 :: rest) s)
  have hidle : Idle w := ⟨by rw [hport]; exact h.1, hbusy, by rw [hport]; exact hheld⟩
  have hread := step_idle_bus hidle (t := .read 0x0001) (rest := rest) (by rw [hport]; rfl)
  refine ⟨perform (.read 0x0001) (withInputs rest w), ?_, ?_, rfl, hbusy, hdone⟩
  · rw [core_run_succ Sys2Proof.core ((step_busy_run h hin).trans hw), core_run_succ Sys2Proof.core hread]
    rfl
  · show .read 0x0001 (statusByte w) :: w.port.trace = _
    rw [hport]
    rfl

/-- Settles O8: the polls, then the completion of the command and the last read. -/
theorem waitPollsUntilDone : Obligations.WaitPollsUntilDone := by
  intro s polls rest hi h hheld hin
  have hpolls : Sys2Proof.core.run polls s = .next (polled polls (.run :: scriptRead 0x0001 :: rest) s) :=
    run_polls polls hi h hheld (by rw [hin, wait, List.append_assoc]; rfl)
  obtain ⟨t, hrun, htrace, hinputs, hbusy, hdone⟩ :=
    run_completion_then_status (s := polled polls (.run :: scriptRead 0x0001 :: rest) s) h hheld rfl
  obtain ⟨hbit0, hbit1⟩ := statusByte_bits t
  exact ⟨t, _, hpolls, rfl, (core_run_add Sys2Proof.core 2 hpolls).trans hrun, htrace, hinputs, hbit0.trans hbusy,
    hbit1.trans hdone⟩

/-! ## Lists of writes -/

/-- The input that presents the write of a byte to an address. -/
def writeInput (w : Half × Byte) : Input := .bus (.write w.1 w.2)

/-- The effect of a list of bus writes on all but the port. -/
def busWrites (ws : List (Half × Byte)) (s : State) : State := ws.foldl (fun t w => busWrite w.1 w.2 t) s

theorem busWrites_withPort (ws : List (Half × Byte)) (s : State) (p : Port) :
    busWrites ws { s with port := p } = { busWrites ws s with port := p } := by
  induction ws generalizing s with
  | nil => rfl
  | cons w ws ih =>
    show busWrites ws (busWrite w.1 w.2 { s with port := p }) = _
    rw [busWrite_withPort, ih]
    rfl

/-- An idle core performs writes away from CMD one a step, and stays idle. -/
theorem run_writes {ws : List (Half × Byte)} (hcmd : ∀ w ∈ ws, w.1 ≠ 0x0000) {s : State} {rest : List Input}
    (h : Idle s) (hin : s.port.inputs = ws.map writeInput ++ rest) :
    ∃ p : Port, Sys2Proof.core.run ws.length s = .next { busWrites ws s with port := p } ∧ p.inputs = rest ∧
      Idle { busWrites ws s with port := p } := by
  induction ws generalizing s with
  | nil => exact ⟨s.port, rfl, hin, h⟩
  | cons w ws ih =>
    obtain ⟨hw, hws⟩ := List.forall_mem_cons.mp hcmd
    obtain ⟨p, hstep, hp, hidle⟩ := step_idle_write hw h hin
    obtain ⟨q, hrun, hq, hidle'⟩ := ih hws hidle hp
    rw [busWrites_withPort] at hrun hidle'
    exact ⟨q, (core_run_succ Sys2Proof.core hstep).trans hrun, hq, hidle'⟩

/-- A script of `n` writes that has the effect `u` leaves `u`, but for the port, and the inputs after it. -/
theorem run_script {ws : List (Half × Byte)} {n : Nat} (hn : ws.length = n) (hcmd : ∀ w ∈ ws, w.1 ≠ 0x0000) {s u : State}
    {rest : List Input} (h : Idle s) (hin : s.port.inputs = ws.map writeInput ++ rest) (hu : busWrites ws s = u) :
    ∃ t : State, Sys2Proof.core.run n s = .next t ∧ t = { u with port := t.port } ∧ t.port.inputs = rest ∧ Idle t := by
  subst hn hu
  obtain ⟨p, hrun, hp, hidle⟩ := run_writes hcmd h hin
  exact ⟨_, hrun, rfl, hp, hidle⟩

/-- The writes of `scriptBytes`: the bytes of `m` to the addresses from `base`. -/
def byteWrites (base : Nat) (m : List Byte) : List (Half × Byte) :=
  (List.range m.length).map fun k => (BitVec.ofNat 16 (base + k), m.getD k 0)

@[simp] theorem length_byteWrites (base : Nat) (m : List Byte) : (byteWrites base m).length = m.length := by
  simp [byteWrites]

theorem scriptBytes_eq (base k : Nat) (m : List Byte) :
    scriptBytes base k m = (byteWrites (base + k) m).map writeInput := by
  induction m generalizing k with
  | nil => rfl
  | cons b m ih =>
    rw [scriptBytes, ih, byteWrites, byteWrites, List.length_cons, List.range_succ_eq_map]
    simp only [List.map_cons, List.map_map]
    congr 1
    refine List.map_congr_left fun j _ => ?_
    simp [Nat.add_assoc, Nat.add_comm 1 j]

/-- Addresses of a range that starts above CMD and stays in the address space. -/
theorem byteWrites_ne_cmd {base : Nat} {m : List Byte} (hlo : 0 < base) (hhi : base + m.length ≤ 0x10000) :
    ∀ w ∈ byteWrites base m, w.1 ≠ 0x0000 := by
  intro w hw
  obtain ⟨k, hk, rfl⟩ := List.mem_map.mp hw
  have hk := List.mem_range.mp hk
  intro hzero
  have haddr := congrArg BitVec.toNat hzero
  rw [BitVec.toNat_ofNat, Nat.mod_eq_of_lt (by omega)] at haddr
  simp at haddr
  omega

theorem busWrites_byteWrites (base : Nat) (m : List Byte) (s : State) :
    busWrites (byteWrites base m) s =
      (List.range m.length).foldl (fun t k => busWrite (BitVec.ofNat 16 (base + k)) (m.getD k 0) t) s := by
  rw [busWrites, byteWrites, List.foldl_map]

theorem busWrites_append (ws ws' : List (Half × Byte)) (s : State) :
    busWrites (ws ++ ws') s = busWrites ws' (busWrites ws s) :=
  List.foldl_append

/-! ## LOADKEY, LOADIV and LOADMSG -/

/-- The bytes of a block written one after another to the addresses of KEY. -/
theorem foldl_busWrite_key (f : Nat → Byte) {l : List Nat} (hl : ∀ k ∈ l, k < 16) (s : State) :
    l.foldl (fun t k => busWrite (BitVec.ofNat 16 (0x0020 + k)) (f k) t) s =
      { s with key := l.foldl (fun (b : Block) k => b.setIfInBounds (0 + k) (f k)) s.key } := by
  induction l generalizing s with
  | nil => rfl
  | cons k l ih =>
    obtain ⟨hk, hl⟩ := List.forall_mem_cons.mp hl
    rw [List.foldl_cons, busWrite_of_locate (locate_key s.cfg k hk), ih hl, List.foldl_cons, Nat.zero_add]
    rfl

/-- Writes to the addresses of IV are byte writes to the space IV. -/
theorem foldl_busWrite_iv (f : Nat → Byte) {l : List Nat} (hl : ∀ k ∈ l, k < 16) (s : State) :
    l.foldl (fun t k => busWrite (BitVec.ofNat 16 (0x0030 + k)) (f k) t) s =
      l.foldl (fun t k => spaceWrite .iv (0 + k) (f k) t) s := by
  refine List.foldl_ext _ _ s fun t k hk => ?_
  rw [busWrite_of_locate (locate_iv t.cfg k (hl k hk)), Nat.zero_add]
  rfl

/-- Writes to the addresses of MB are byte writes to MB, which keep MB_BYTES. -/
theorem foldl_busWrite_mb (f : Nat → Byte) {l : List Nat} {s : State} (hcfg : s.cfg.legal = true)
    (hl : ∀ k ∈ l, k < s.cfg.mbBytes) :
    l.foldl (fun t k => busWrite (BitVec.ofNat 16 (0x1000 + k)) (f k) t) s =
      l.foldl (fun t k => spaceWrite .mb (0 + k) (f k) t) s := by
  induction l generalizing s with
  | nil => rfl
  | cons k l ih =>
    obtain ⟨hk, hl⟩ := List.forall_mem_cons.mp hl
    rw [List.foldl_cons, busWrite_of_locate (locate_mb s.cfg hcfg k hk), List.foldl_cons, Nat.zero_add]
    exact ih hcfg hl

theorem getD_toList (b : Block) (k : Nat) : b.toList.getD k 0 = byteAt b k := by
  simp [byteAt, List.getD_eq_getElem?_getD]

theorem busWrites_key (b : Block) (s : State) : busWrites (byteWrites 0x0020 b.toList) s = { s with key := b } := by
  rw [busWrites_byteWrites, foldl_busWrite_key _ (by simp), Vector.length_toList]
  simp only [getD_toList, foldl_setAll]

theorem busWrites_iv (b : Block) (s : State) : busWrites (byteWrites 0x0030 b.toList) s = { s with iv := b } := by
  rw [busWrites_byteWrites, foldl_busWrite_iv _ (by simp), foldl_writeIv, Vector.length_toList]
  simp only [getD_toList, foldl_setAll]

/-- `mb` after the bytes of `m` have been written to it from index 0. -/
def storeBytes (m : List Byte) (mb : Memory) : Memory :=
  (List.range m.length).foldl (fun mb k => Memory.write mb (0 + k) (m.getD k 0)) mb

theorem read_storeBytes (m : List Byte) {mb : Memory} (hmb : Memory.wf mb = true) (a : Nat) :
    Memory.read (storeBytes m mb) a = if a < m.length then m.getD a 0 else Memory.read mb a := by
  rw [storeBytes, (writes_spec hmb 0 (fun k => m.getD k 0) m.length).2]
  simp

theorem busWrites_mb {m : List Byte} {s : State} (hcfg : s.cfg.legal = true) (hlen : m.length ≤ s.cfg.mbBytes) :
    busWrites (byteWrites 0x1000 m) s = { s with mb := storeBytes m s.mb } := by
  have hin : ∀ k ∈ List.range m.length, k < s.cfg.mbBytes := fun k hk => (List.mem_range.mp hk).trans_le hlen
  rw [busWrites_byteWrites, foldl_busWrite_mb _ hcfg hin, foldl_writeMb, storeBytes]

theorem lowByte_ofNat (n : Nat) : lowByte (BitVec.ofNat 16 n) = BitVec.ofNat 8 (n % 256) := by
  refine BitVec.eq_of_toNat_eq ?_
  simp [lowByte]

theorem highByte_ofNat (n : Nat) : highByte (BitVec.ofNat 16 n) = BitVec.ofNat 8 (n / 256) := by
  refine BitVec.eq_of_toNat_eq ?_
  simp [highByte, Nat.shiftRight_eq_div_pow]
  omega

/-- A number written low half first, then high half (20_memory.md R52); it is kept modulo 2^16. -/
theorem withHighByte_withLowByte_ofNat (w : Half) (n : Nat) :
    withHighByte (withLowByte w (BitVec.ofNat 8 (n % 256))) (BitVec.ofNat 8 (n / 256)) = BitVec.ofNat 16 n := by
  rw [← lowByte_ofNat, ← highByte_ofNat, withHighByte_withLowByte]

/-- MSGLEN from its two halves. -/
theorem busWrites_msglen (n : Nat) (s : State) :
    busWrites [(0x0006, BitVec.ofNat 8 (n % 256)), (0x0007, BitVec.ofNat 8 (n / 256))] s =
      { s with msglen := BitVec.ofNat 16 n } :=
  congrArg (fun w => { s with msglen := w }) (withHighByte_withLowByte_ofNat s.msglen n)

/-- BLK from its two halves. -/
theorem busWrites_blk (n : Nat) (s : State) :
    busWrites [(0x0008, BitVec.ofNat 8 (n % 256)), (0x0009, BitVec.ofNat 8 (n / 256))] s =
      { s with blk := BitVec.ofNat 16 n } :=
  congrArg (fun w => { s with blk := w }) (withHighByte_withLowByte_ofNat s.blk n)

theorem loadKey_eq (b : Block) : loadKey b = (byteWrites 0x0020 b.toList ++ [(0x0004, 0x10)]).map writeInput := by
  rw [loadKey, scriptBytes_eq, List.map_append]
  rfl

theorem loadIv_eq (b : Block) : loadIv b = (byteWrites 0x0030 b.toList ++ [(0x0005, 0x10)]).map writeInput := by
  rw [loadIv, scriptBytes_eq, List.map_append]
  rfl

theorem loadMsg_eq (m : List Byte) :
    loadMsg m = (byteWrites 0x1000 m ++ [(0x0006, BitVec.ofNat 8 (m.length % 256)),
      (0x0007, BitVec.ofNat 8 (m.length / 256))]).map writeInput := by
  rw [loadMsg, scriptBytes_eq, List.map_append]
  rfl

/-- Settles O19: each script is a list of writes; the range of KEY, IV or MB is filled, then the length is set. -/
theorem loadScriptsFillTheRegisters : Obligations.LoadScriptsFillTheRegisters := by
  refine ⟨fun s b rest h hin => ?_, fun s b rest h hin => ?_, fun s m rest h hcfg hm hlen hin => ?_⟩
  · have hcmd := byteWrites_ne_cmd (base := 0x0020) (m := b.toList) (by decide) (by simp)
    refine run_script (n := 17) (u := { s with key := b, klen := 16 }) (by simp)
      (List.forall_mem_append.mpr ⟨hcmd, by simp⟩) h (loadKey_eq b ▸ hin) ?_
    rw [busWrites_append, busWrites_key]
    rfl
  · have hcmd := byteWrites_ne_cmd (base := 0x0030) (m := b.toList) (by decide) (by simp)
    refine run_script (n := 17) (u := { s with iv := b, ivlen := 16 }) (by simp)
      (List.forall_mem_append.mpr ⟨hcmd, by simp⟩) h (loadIv_eq b ▸ hin) ?_
    rw [busWrites_append, busWrites_iv]
    rfl
  · have hbounds := legal_bounds hcfg
    have hcmd := byteWrites_ne_cmd (base := 0x1000) (m := m) (by decide) (by omega)
    obtain ⟨t, hrun, ht, hinputs, hidle⟩ := run_script (n := m.length + 2) (by simp)
      (List.forall_mem_append.mpr ⟨hcmd, by simp⟩) h (loadMsg_eq m ▸ hin)
      (by rw [busWrites_append, busWrites_mb hcfg hlen, busWrites_msglen])
    have hmb : t.mb = storeBytes m s.mb := congrArg State.mb ht
    refine ⟨t, hrun, hmb ▸ ht, fun a => ?_, hinputs, hidle⟩
    rw [mbByte, hmb, read_storeBytes m hm, mbByte]

/-! ## NOIV, SETBLK, PEEK and POKE -/

/-- BVSEL keeps the low six bits of what is written to it (20_memory.md R41). -/
theorem extractLsb'_ofNat_six (n : Nat) : (BitVec.ofNat 8 n).extractLsb' 0 6 = BitVec.ofNat 6 n := by
  refine BitVec.eq_of_toNat_eq ?_
  simp

/-- The writes by which PEEK and POKE select a byte: SETBLK, then BVSEL. -/
def selectWrites (n sel : Nat) : List (Half × Byte) :=
  [(0x0008, BitVec.ofNat 8 (n % 256)), (0x0009, BitVec.ofNat 8 (n / 256))] ++ [(0x000A, BitVec.ofNat 8 sel)]

theorem busWrites_selectWrites (n sel : Nat) (s : State) :
    busWrites (selectWrites n sel) s = { s with blk := BitVec.ofNat 16 n, bvsel := BitVec.ofNat 6 sel } := by
  rw [selectWrites, busWrites_append, busWrites_blk]
  exact congrArg (fun x => { s with blk := BitVec.ofNat 16 n, bvsel := x }) (extractLsb'_ofNat_six sel)

theorem selectWrites_ne_cmd (n sel : Nat) : ∀ w ∈ selectWrites n sel, w.1 ≠ 0x0000 := by simp [selectWrites]

/-- Settles O58: NOIV, SETBLK and POKE are lists of writes; PEEK is one followed by a read. -/
theorem scriptLinesReachTheirRegisters : Obligations.ScriptLinesReachTheirRegisters := by
  refine ⟨fun s rest h hin => ?_, fun s n rest h hin => ?_, fun s space n col row rest h hin => ?_,
    fun s space n col row v rest h hin => ?_⟩
  · exact run_script (ws := [(0x0005, 0x00)]) rfl (by simp) h hin rfl
  · exact run_script rfl (by simp) h hin (busWrites_blk n s)
  · obtain ⟨t, hrun, ht, hinputs, hidle⟩ := run_script (rest := scriptRead 0x000B :: rest) rfl
      (selectWrites_ne_cmd n _) h hin (busWrites_selectWrites n _ s)
    have hread := step_idle_bus hidle hinputs
    refine ⟨_, (core_run_add Sys2Proof.core 1 hrun).trans (core_run_succ Sys2Proof.core hread), ?_, rfl, rfl, hidle⟩
    exact congrArg (fun u : State => { u with port := (perform (.read 0x000B) (withInputs rest t)).port }) ht
  · refine run_script rfl (List.forall_mem_append.mpr ⟨selectWrites_ne_cmd n _, by simp⟩) h
      (ws := selectWrites n (16 * space + 4 * col + row) ++ [(0x000B, v)]) hin ?_
    rw [busWrites_append, busWrites_selectWrites]
    rfl

end Sys2Proof.Machine
end

section
/-! What a command writes (30_encoding.md R65): the execute step of each class of commands in one equation, then one lemma
per column of what the execute step leaves as it was. -/

namespace Sys2Proof.Machine

/-! ## Block loops -/

/-- A block-loop body that writes MB, IV and CLONE at most. -/
def WritesViewsOnly (body : Nat → State → State) : Prop :=
  ∀ i s, body i s = { s with mb := (body i s).mb, iv := (body i s).iv, clone := (body i s).clone }

/-- The frame of a cipher command, as one update: what the loop writes is MB, IV and CLONE (45_modes.md R140). -/
theorem ecbFrame_eq {body : Nat → State → State} (hbody : WritesViewsOnly body) (order : Nat → List Nat) (s : State) :
    ecbFrame order body s = { expandKey (padMessage s) with
      mb := (ecbFrame order body s).mb, iv := (ecbFrame order body s).iv, clone := (ecbFrame order body s).clone
      seq := { s.seq with bi := none } } := by
  have hloop := foldl_atBlock_induction (body := body) (order := order (blockCount s)) (s := expandKey (padMessage s))
    (P := fun t => t = { expandKey (padMessage s) with
      mb := t.mb, iv := t.iv, clone := t.clone, seq := { s.seq with bi := t.seq.bi } })
    rfl fun i _ t ht => by
      have hi := hbody i { t with seq := { t.seq with bi := some i } }
      rw [atBlock, hi, ht]
  unfold ecbFrame blockLoop
  rw [hloop]

theorem ecbFrame_iv {body : Nat → State → State} (hbody : ∀ i s, (body i s).iv = s.iv) (order : Nat → List Nat)
    (s : State) : (ecbFrame order body s).iv = s.iv :=
  foldl_atBlock_induction (P := fun t => t.iv = s.iv) rfl fun i _ _ ht => (hbody i _).trans ht

theorem ecbFrame_clone {body : Nat → State → State} (hbody : ∀ i s, (body i s).clone = s.clone)
    (order : Nat → List Nat) (s : State) : (ecbFrame order body s).clone = s.clone :=
  foldl_atBlock_induction (P := fun t => t.clone = s.clone) rfl fun i _ _ ht => (hbody i _).trans ht

/-! ## Cipher commands -/

/-- The commands with a block loop (45_modes.md R140). -/
def cipherCommands : List Instr := [.encEcb, .encCbc, .encOfb, .encCfb, .decEcb, .decCbc, .decOfb, .decCfb]

/-- The body of a cipher command's block loop; no other command has one. -/
def cipherBody : Instr → Nat → State → State
  | .encEcb => encEcbBlock
  | .encCbc => encCbcBlock
  | .encOfb | .decOfb => ofbBlock
  | .encCfb => encCfbBlock
  | .decEcb => decEcbBlock
  | .decCbc => decCbcBlock
  | .decCfb => decCfbBlock
  | .kexp | .encb | .decb | .gfmul | .xtime | .sbox | .isbox | .clone => fun _ s => s

/-- The order of the blocks: descending in DEC.CBC alone (45_modes.md R151). -/
def cipherOrder : Instr → Nat → List Nat
  | .decCbc => descending
  | _ => ascending

theorem cipherOrder_lt (i : Instr) (n : Nat) : ∀ j ∈ cipherOrder i n, j < n := by
  unfold cipherOrder
  split
  · exact mem_descending_lt n
  · exact mem_ascending_lt n

theorem encEcbBlock_frame (k : Nat) (s : State) : encEcbBlock k s = { s with mb := (encEcbBlock k s).mb } := by
  rw [encEcbBlock, encryptView_blockView]

theorem decEcbBlock_frame (k : Nat) (s : State) : decEcbBlock k s = { s with mb := (decEcbBlock k s).mb } := by
  rw [decEcbBlock, decryptView_blockView]

theorem encCbcBlock_frame (k : Nat) (s : State) : encCbcBlock k s = { s with mb := (encCbcBlock k s).mb } := by
  rw [encCbcBlock, blockXor_cbcSource, encryptView_blockView]

theorem decCbcBlock_frame (k : Nat) (s : State) : decCbcBlock k s = { s with mb := (decCbcBlock k s).mb } := by
  rw [decCbcBlock, decryptView_blockView, blockXor_cbcSource]

theorem encCfbBlock_frame (k : Nat) (s : State) :
    encCfbBlock k s = { s with mb := (encCfbBlock k s).mb, iv := (encCfbBlock k s).iv } := by
  rw [encCfbBlock, encryptView_ivView, blockXor_iv, blockCopy_iv_block]

theorem writesViewsOnly_cipherBody (i : Instr) : WritesViewsOnly (cipherBody i) := by
  intro k s
  cases i <;> simp only [cipherBody]
  case encEcb => rw [encEcbBlock_frame]
  case decEcb => rw [decEcbBlock_frame]
  case encCbc => rw [encCbcBlock_frame]
  case decCbc => rw [decCbcBlock_frame]
  case encOfb | decOfb => rw [ofbBlock_eq]
  case encCfb => rw [encCfbBlock_frame]
  case decCfb => rw [decCfbBlock_eq]

/-- Only OFB and CFB feed IV back inside the loop (45_modes.md R147 to R150). -/
theorem cipherBody_iv {i : Instr} (hi : i ∉ [Instr.encOfb, .encCfb, .decOfb, .decCfb]) (k : Nat) (s : State) :
    (cipherBody i k s).iv = s.iv := by
  cases i <;> simp only [cipherBody]
  case encEcb => rw [encEcbBlock_frame]
  case decEcb => rw [decEcbBlock_frame]
  case encCbc => rw [encCbcBlock_frame]
  case decCbc => rw [decCbcBlock_frame]
  case encOfb | encCfb | decOfb | decCfb => exact absurd (by decide) hi

/-- Only DEC.CFB uses the clone buffer (45_modes.md R150). -/
theorem cipherBody_clone {i : Instr} (hi : i ≠ .decCfb) (k : Nat) (s : State) :
    (cipherBody i k s).clone = s.clone := by
  cases i <;> simp only [cipherBody]
  case encEcb => rw [encEcbBlock_frame]
  case decEcb => rw [decEcbBlock_frame]
  case encCbc => rw [encCbcBlock_frame]
  case decCbc => rw [decCbcBlock_frame]
  case encOfb | decOfb => rw [ofbBlock_eq]
  case encCfb => rw [encCfbBlock_frame]
  case decCfb => exact absurd rfl hi

theorem storesItsBlock_cipherBody {i : Instr} (hi : i ∈ cipherCommands) : StoresItsBlock (cipherBody i) := by
  cases i with
  | encEcb => exact storesItsBlock_encEcb
  | encCbc => exact storesItsBlock_encCbc
  | encOfb | decOfb => exact storesItsBlock_ofb
  | encCfb => exact storesItsBlock_encCfb
  | decEcb => exact storesItsBlock_decEcb
  | decCbc => exact storesItsBlock_decCbc
  | decCfb => exact storesItsBlock_decCfb
  | kexp | encb | decb | gfmul | xtime | sbox | isbox | clone => simp [cipherCommands] at hi

/-- A cipher command is its frame; IVLEN, which a chaining command clears, is apart. -/
theorem work_cipher {i : Instr} (hi : i ∈ cipherCommands) (s : State) :
    work i s = { ecbFrame (cipherOrder i) (cipherBody i) s with ivlen := (work i s).ivlen } := by
  cases i with
  | encEcb | encCbc | encOfb | encCfb | decEcb | decCbc | decOfb | decCfb => rfl
  | kexp | encb | decb | gfmul | xtime | sbox | isbox | clone => simp [cipherCommands] at hi

/-- A cipher command as one update of the padded state with the key expanded. -/
theorem work_cipher_eq {i : Instr} (hi : i ∈ cipherCommands) (s : State) :
    work i s = { expandKey (padMessage s) with
      mb := (work i s).mb, iv := (work i s).iv, ivlen := (work i s).ivlen, clone := (work i s).clone
      seq := { s.seq with bi := none } } := by
  rw [work_cipher hi, ecbFrame_eq (writesViewsOnly_cipherBody i)]

/-! ## The other commands -/

/-- ENCB and DECB on a block's value. -/
def blockCipher : Instr → RoundKeys → Block → Block
  | .decb => decryptBlock
  | _ => encryptBlock

theorem work_block {i : Instr} (hi : i ∈ [Instr.encb, .decb]) (s : State) :
    work i s = { expandKey s with
      mb := storeBlock s.mb (16 * s.blk.toNat)
        (blockCipher i (expand s.key) (loadBlock s.mb (16 * s.blk.toNat))) } := by
  simp only [List.mem_cons, List.not_mem_nil, or_false] at hi
  rcases hi with rfl | rfl
  · simp only [work, blkView, encryptView_blockView, expandKey_mb, expandKey_rk, blockCipher]
  · simp only [work, blkView, decryptView_blockView, expandKey_mb, expandKey_rk, blockCipher]

theorem work_clone (s : State) : work .clone s = { s with clone := loadBlock s.mb (16 * s.blk.toNat) } :=
  cloneFrom_blockView s.blk.toNat s

/-- The commands over OPA and OPB on the operands' values. -/
def resultOf : Instr → Byte → Byte → Byte
  | .gfmul, a, b => gmul a b
  | .xtime, a, _ => xtime a
  | .sbox, a, _ => sbox a
  | .isbox, a, _ => invSbox a
  | _, _, _ => 0

theorem work_result {i : Instr} (hi : i ∈ [Instr.gfmul, .xtime, .sbox, .isbox]) (s : State) :
    work i s = setResult (resultOf i s.opa s.opb) s := by
  simp only [List.mem_cons, List.not_mem_nil, or_false] at hi
  rcases hi with rfl | rfl | rfl | rfl <;> rfl

/-- The classes of commands by what their execute step is. -/
theorem command_class (i : Instr) :
    i ∈ cipherCommands ∨ i ∈ [Instr.encb, .decb] ∨ i ∈ [Instr.gfmul, .xtime, .sbox, .isbox] ∨ i = .kexp ∨ i = .clone := by
  cases i <;> decide

/-! ## The columns of what a command writes -/

theorem work_mb {i : Instr} (hi : i ∈ [Instr.gfmul, .xtime, .sbox, .isbox, .kexp, .clone]) (s : State) :
    (work i s).mb = s.mb := by
  simp only [List.mem_cons, List.not_mem_nil, or_false] at hi
  rcases hi with rfl | rfl | rfl | rfl | rfl | rfl
  case inr.inr.inr.inr.inl => exact expandKey_mb s
  case inr.inr.inr.inr.inr => rw [work_clone]
  all_goals rfl

theorem work_msglen {i : Instr} (hi : i ∉ cipherCommands) (s : State) : (work i s).msglen = s.msglen := by
  rcases command_class i with hc | hc | hc | rfl | rfl
  · exact absurd hc hi
  · rw [work_block hc, expandKey_msglen]
  · rw [work_result hc, setResult_msglen]
  · exact expandKey_msglen s
  · rw [work_clone]

/-- RK is the expansion of KEY after every command that uses the key (42_key_schedule.md R107). -/
theorem work_rk {i : Instr} (hi : i ∉ [Instr.gfmul, .xtime, .sbox, .isbox, .clone]) (s : State) :
    (work i s).rk = expand s.key := by
  rcases command_class i with hc | hc | hc | rfl | rfl
  · rw [work_cipher_eq hc, expandKey_rk, padMessage_key]
  · rw [work_block hc, expandKey_rk]
  · exact absurd (List.mem_append_left [Instr.clone] hc) hi
  · exact expandKey_rk s
  · exact absurd (by decide) hi

theorem work_rk_kept {i : Instr} (hi : i ∈ [Instr.gfmul, .xtime, .sbox, .isbox, .clone]) (s : State) :
    (work i s).rk = s.rk := by
  simp only [List.mem_cons, List.not_mem_nil, or_false] at hi
  rcases hi with rfl | rfl | rfl | rfl | rfl
  case inr.inr.inr.inr => rw [work_clone]
  all_goals rfl

theorem work_iv {i : Instr} (hi : i ∉ [Instr.encOfb, .encCfb, .decOfb, .decCfb]) (s : State) :
    (work i s).iv = s.iv := by
  rcases command_class i with hc | hc | hc | rfl | rfl
  · rw [work_cipher hc]
    exact ecbFrame_iv (cipherBody_iv hi) (cipherOrder i) s
  · rw [work_block hc, expandKey_iv]
  · rw [work_result hc, setResult_iv]
  · exact expandKey_iv s
  · rw [work_clone]

/-- The commands that use and consume the IV (45_modes.md R140 step 6). -/
theorem work_ivlen_chain {i : Instr} (hi : i ∈ [Instr.encCbc, .encOfb, .encCfb, .decCbc, .decOfb, .decCfb]) (s : State) :
    (work i s).ivlen = 0 := by
  simp only [List.mem_cons, List.not_mem_nil, or_false] at hi
  rcases hi with rfl | rfl | rfl | rfl | rfl | rfl <;> rfl

theorem work_ivlen {i : Instr} (hi : i ∉ [Instr.encCbc, .encOfb, .encCfb, .decCbc, .decOfb, .decCfb]) (s : State) :
    (work i s).ivlen = s.ivlen := by
  cases i with
  | encEcb =>
    show (ecbFrame ascending (cipherBody .encEcb) s).ivlen = s.ivlen
    rw [ecbFrame_eq (writesViewsOnly_cipherBody .encEcb), expandKey_ivlen, padMessage_ivlen]
  | decEcb =>
    show (ecbFrame ascending (cipherBody .decEcb) s).ivlen = s.ivlen
    rw [ecbFrame_eq (writesViewsOnly_cipherBody .decEcb), expandKey_ivlen, padMessage_ivlen]
  | encb | decb => rw [work_block (by decide), expandKey_ivlen]
  | clone => rw [work_clone]
  | kexp => exact expandKey_ivlen s
  | gfmul | xtime | sbox | isbox => rfl
  | encCbc | encOfb | encCfb | decCbc | decOfb | decCfb => exact absurd (by decide) hi

theorem work_clone_kept {i : Instr} (hi : i ∉ [Instr.decCfb, .clone]) (s : State) : (work i s).clone = s.clone := by
  rcases command_class i with hc | hc | hc | rfl | rfl
  · have hne : i ≠ .decCfb := fun h => hi (by simp [h])
    rw [work_cipher hc]
    exact ecbFrame_clone (cipherBody_clone hne) (cipherOrder i) s
  · rw [work_block hc, expandKey_clone]
  · rw [work_result hc, setResult_clone]
  · exact expandKey_clone s
  · exact absurd (by decide) hi

theorem work_result_kept {i : Instr} (hi : i ∉ [Instr.gfmul, .xtime, .sbox, .isbox]) (s : State) :
    (work i s).result = s.result := by
  rcases command_class i with hc | hc | hc | rfl | rfl
  · rw [work_cipher_eq hc, expandKey_result, padMessage_result]
  · rw [work_block hc, expandKey_result]
  · exact absurd hc hi
  · exact expandKey_result s
  · rw [work_clone]

/-- No command leaves a block index (10_state.md R29). -/
theorem work_bi (i : Instr) {s : State} (h : s.seq.bi = none) : (work i s).seq.bi = none := by
  rcases command_class i with hc | hc | hc | rfl | rfl
  · rw [work_cipher_eq hc]
  · rw [work_block hc, expandKey_seq, h]
  · rw [work_result hc, setResult_seq, h]
  · rw [work, expandKey_seq, h]
  · rw [work_clone, h]

/-- A cipher command keeps the bytes of MB at and above `16*N`. -/
theorem mbByte_work_cipher {i : Instr} (hi : i ∈ cipherCommands) {s : State} (hm : Memory.wf s.mb = true) {a : Nat}
    (ha : 16 * blockCount s ≤ a) : mbByte (work i s) a = mbByte s a := by
  obtain ⟨-, -, hbeyond, -, -⟩ :=
    ecbFrame_frame (storesItsBlock_cipherBody hi) (cipherOrder_lt i (blockCount s)) hm
  rw [mbByte, work_cipher hi]
  exact hbeyond a ha

/-- ENCB and DECB keep the bytes of MB outside block BLK. -/
theorem mbByte_work_block {i : Instr} (hi : i ∈ [Instr.encb, .decb]) {s : State} (hm : Memory.wf s.mb = true) {a : Nat}
    (ha : a < (blkView s).base ∨ (blkView s).base + 16 ≤ a) : mbByte (work i s) a = mbByte s a := by
  have hout : ¬(16 * s.blk.toNat ≤ a ∧ a < 16 * s.blk.toNat + 16) := by
    simp only [blkView, blockView] at ha
    omega
  rw [mbByte, work_block hi, read_storeBlock hm, if_neg hout, mbByte]

/-- A command that passed its checks, with no block index before it, leaves its data path's writes and is complete. -/
theorem DataPathOnly.completeCommand_eq {s w : State} (h : DataPathOnly s w) (hbi : w.seq.bi = none) :
    completeCommand w = { s with
      mb := w.mb, msglen := w.msglen, rk := w.rk, iv := w.iv, ivlen := w.ivlen, clone := w.clone, result := w.result
      done := true, seq := { pending := false, bi := none } } := by
  unfold DataPathOnly at h
  rw [hbi] at h
  rw [h]
  rfl

/-- Settles O51: the failure path, or the execute step column by column. -/
theorem commandsWriteOnlyWhatTheyList : Obligations.CommandsWriteOnlyWhatTheyList := by
  intro i s t hbi h
  refine ⟨fun hfail => ?_, fun hpass => ?_⟩
  · cases (exec_fail hfail).symm.trans h
    rfl
  · cases (exec_pass hpass).symm.trans h
    refine ⟨?_, fun hm a => ⟨fun hi ha => mbByte_work_cipher hi hm.mbWf ha, fun hi ha => mbByte_work_block hi hm.mbWf ha⟩⟩
    have hmb := ite_eq_right_iff.mpr fun hi => (work_mb (i := i) hi s).symm
    have hmsglen := ite_eq_left_iff.mpr fun hi => (work_msglen (i := i) hi s).symm
    have hrk := ite_eq_right_iff.mpr fun hi => (work_rk_kept (i := i) hi s).symm
    have hiv := ite_eq_left_iff.mpr fun hi => (work_iv (i := i) hi s).symm
    have hivlen := ite_eq_left_iff.mpr fun hi => (work_ivlen (i := i) hi s).symm
    have hclone := ite_eq_left_iff.mpr fun hi => (work_clone_kept (i := i) hi s).symm
    have hresult := ite_eq_left_iff.mpr fun hi => (work_result_kept (i := i) hi s).symm
    have hframe := (dataPathOnly_work i s).completeCommand_eq (work_bi i hbi)
    rw [← hmb, ← hmsglen, ← hrk, ← hiv, ← hivlen, ← hclone, ← hresult] at hframe
    exact hframe

end Sys2Proof.Machine
end

section
/-! What a command reads (30_encoding.md R65, R70): two runs of one command on states that agree on what it reads. -/

namespace Sys2Proof.Machine

/-- `s` and `s'` agree on what the row of command `i` lists as read (30_encoding.md R65). -/
structure SameReads (i : Instr) (s s' : State) : Prop where
  cfg : s.cfg = s'.cfg
  key : i ∉ [.gfmul, .xtime, .sbox, .isbox, .clone] → s.klen = s'.klen ∧ s.key = s'.key
  iv : i ∈ [.encCbc, .encOfb, .encCfb, .decCbc, .decOfb, .decCfb] → s.ivlen = s'.ivlen ∧ s.iv = s'.iv
  message : i ∈ [.encEcb, .encCbc, .encOfb, .encCfb, .decEcb, .decCbc, .decOfb, .decCfb] →
    s.msglen = s'.msglen ∧ ∀ a < s.msglen.toNat, mbByte s a = mbByte s' a
  block : i ∈ [.encb, .decb, .clone] →
    s.blk = s'.blk ∧ ∀ k < 16, mbByte s (16 * s.blk.toNat + k) = mbByte s' (16 * s.blk.toNat + k)
  opa : i ∈ [.gfmul, .xtime, .sbox, .isbox] → s.opa = s'.opa
  opb : i = .gfmul → s.opb = s'.opb

/-- What a command checks is among what it reads. -/
theorem SameReads.errmask_eq {i : Instr} {s s' : State} (h : SameReads i s s') :
    errmask (encode i) s = errmask (encode i) s' := by
  cases i with
  | encEcb | decEcb =>
    obtain ⟨hklen, -⟩ := h.key (by decide)
    obtain ⟨hmsglen, -⟩ := h.message (by decide)
    rw [errmask_ecb (by decide), errmask_ecb (by decide), hklen, hmsglen, h.cfg]
  | encCbc | decCbc | encOfb | decOfb | encCfb | decCfb =>
    obtain ⟨hklen, -⟩ := h.key (by decide)
    obtain ⟨hivlen, -⟩ := h.iv (by decide)
    obtain ⟨hmsglen, -⟩ := h.message (by decide)
    rw [errmask_chain (by decide), errmask_chain (by decide), hklen, hivlen, hmsglen, h.cfg]
  | encb | decb =>
    obtain ⟨hklen, -⟩ := h.key (by decide)
    obtain ⟨hblk, -⟩ := h.block (by decide)
    rw [errmask_block (by decide), errmask_block (by decide), hklen, hblk, h.cfg]
  | kexp => rw [errmask_kexp, errmask_kexp, (h.key (by decide)).1]
  | clone => rw [errmask_clone, errmask_clone, (h.block (by decide)).1, h.cfg]
  | gfmul | xtime | sbox | isbox => rw [errmask_resultOnly (by decide), errmask_resultOnly (by decide)]

/-! ## The commands without a block loop -/

theorem SameReads.loadBlock_eq {i : Instr} {s s' : State} (h : SameReads i s s') (hi : i ∈ [Instr.encb, .decb, .clone]) :
    s.blk = s'.blk ∧ loadBlock s.mb (16 * s.blk.toNat) = loadBlock s'.mb (16 * s.blk.toNat) := by
  obtain ⟨hblk, hbytes⟩ := h.block hi
  refine ⟨hblk, block_ext fun k hk => ?_⟩
  rw [byteAt_loadBlock _ _ hk, byteAt_loadBlock _ _ hk]
  exact hbytes k hk

theorem SameReads.clone_eq {s s' : State} (h : SameReads .clone s s') : (work .clone s).clone = (work .clone s').clone := by
  obtain ⟨hblk, hload⟩ := h.loadBlock_eq (by decide)
  rw [work_clone, work_clone, ← hblk, hload]

/-- Both runs of ENCB or DECB store the same block at the same place. -/
theorem SameReads.block_eq {i : Instr} {s s' : State} (h : SameReads i s s') (hm : Memory.wf s.mb = true)
    (hm' : Memory.wf s'.mb = true) (hi : i ∈ [Instr.encb, .decb]) {k : Nat} (hk : k < 16) :
    mbByte (work i s) (16 * s.blk.toNat + k) = mbByte (work i s') (16 * s.blk.toNat + k) := by
  have hkey : s.key = s'.key := by
    simp only [List.mem_cons, List.not_mem_nil, or_false] at hi
    rcases hi with rfl | rfl <;> exact (h.key (by decide)).2
  obtain ⟨hblk, hload⟩ := h.loadBlock_eq (List.mem_append_left [Instr.clone] hi)
  have hin : 16 * s.blk.toNat ≤ 16 * s.blk.toNat + k ∧ 16 * s.blk.toNat + k < 16 * s.blk.toNat + 16 := by omega
  rw [mbByte, mbByte, work_block hi, work_block hi, ← hblk, hkey, hload, read_storeBlock hm, read_storeBlock hm',
    if_pos hin, if_pos hin]

theorem SameReads.result_eq {i : Instr} {s s' : State} (h : SameReads i s s')
    (hi : i ∈ [Instr.gfmul, .xtime, .sbox, .isbox]) : (work i s).result = (work i s').result := by
  rw [work_result hi, work_result hi, setResult_result, setResult_result, h.opa hi]
  cases i with
  | gfmul => rw [h.opb rfl]
  | xtime | sbox | isbox => rfl
  | encEcb | encCbc | encOfb | encCfb | decEcb | decCbc | decOfb | decCfb | kexp | encb | decb | clone => simp at hi

/-- A cipher command leaves MSGLEN rounded up to whole blocks (45_modes.md R140 step 3). -/
theorem work_msglen_cipher {i : Instr} (hi : i ∈ cipherCommands) (s : State) :
    (work i s).msglen = BitVec.ofNat 16 (16 * blockCount s) := by
  rw [work_cipher_eq hi, expandKey_msglen]
  rfl

/-! ## The block loop on two states -/

/-- What the loop body of a cipher command stores in block `k`, from RK, IV, block `k` and block `k - 1`. -/
def blockOut (i : Instr) (k : Nat) (rk : RoundKeys) (iv own prev : Block) : Block :=
  match i with
  | .encEcb => encryptBlock rk own
  | .decEcb => decryptBlock rk own
  | .encCbc => encryptBlock rk (xorBlock own (if k = 0 then iv else prev))
  | .decCbc => xorBlock (decryptBlock rk own) (if k = 0 then iv else prev)
  | _ => xorBlock own (encryptBlock rk iv)

/-- What the loop body of a cipher command leaves in IV. -/
def ivOut (i : Instr) (rk : RoundKeys) (iv own : Block) : Block :=
  match i with
  | .encOfb | .decOfb => encryptBlock rk iv
  | .encCfb => xorBlock own (encryptBlock rk iv)
  | .decCfb => own
  | _ => iv

/-- The bodies of the eight block loops in one closed form. -/
theorem cipherBody_eq {i : Instr} (hi : i ∈ cipherCommands) {s : State} (hm : Memory.wf s.mb = true) (k : Nat) :
    cipherBody i k s = { s with
      mb := storeBlock s.mb (16 * k)
        (blockOut i k s.rk s.iv (loadBlock s.mb (16 * k)) (loadBlock s.mb (16 * (k - 1))))
      iv := ivOut i s.rk s.iv (loadBlock s.mb (16 * k))
      clone := if i = .decCfb then loadBlock s.mb (16 * k) else s.clone } := by
  cases i with
  | encEcb => exact encryptView_blockView k s
  | decEcb => exact decryptView_blockView k s
  | encCbc => exact encCbcBlock_eq hm k
  | decCbc => exact decCbcBlock_eq hm k
  | encOfb | decOfb => exact ofbBlock_eq k s
  | encCfb => exact encCfbBlock_eq hm k
  | decCfb => exact decCfbBlock_eq k s
  | kexp | encb | decb | gfmul | xtime | sbox | isbox | clone => simp [cipherCommands] at hi

/-- Two states inside the block loop of a cipher command of `N` blocks, as far as the loop reads them. -/
structure SameMessage (i : Instr) (N : Nat) (u u' : State) : Prop where
  mbWf : Memory.wf u.mb = true
  mbWf' : Memory.wf u'.mb = true
  rk : u.rk = u'.rk
  block : ∀ j < N, loadBlock u.mb (16 * j) = loadBlock u'.mb (16 * j)
  iv : i ∈ [.encCbc, .encOfb, .encCfb, .decCbc, .decOfb, .decCfb] → u.iv = u'.iv

theorem SameMessage.blockOut_eq {i : Instr} {N : Nat} {u u' : State} (h : SameMessage i N u u') {k : Nat} (hk : k < N)
    (hi : i ∈ cipherCommands) :
    blockOut i k u.rk u.iv (loadBlock u.mb (16 * k)) (loadBlock u.mb (16 * (k - 1))) =
      blockOut i k u'.rk u'.iv (loadBlock u'.mb (16 * k)) (loadBlock u'.mb (16 * (k - 1))) := by
  rw [h.rk, h.block k hk, h.block (k - 1) (by omega)]
  cases i with
  | encEcb | decEcb => rfl
  | encCbc | encOfb | encCfb | decCbc | decOfb | decCfb => rw [h.iv (by decide)]
  | kexp | encb | decb | gfmul | xtime | sbox | isbox | clone => simp [cipherCommands] at hi

/-- The same block stored at the same place on both sides keeps the agreement. -/
theorem SameMessage.store {i : Instr} {N : Nat} {u u' : State} (h : SameMessage i N u u') (k : Nat)
    {x iv iv' clone clone' : Block}
    (hiv : i ∈ [.encCbc, .encOfb, .encCfb, .decCbc, .decOfb, .decCfb] → iv = iv') :
    SameMessage i N { u with mb := storeBlock u.mb (16 * k) x, iv := iv, clone := clone }
      { u' with mb := storeBlock u'.mb (16 * k) x, iv := iv', clone := clone' } := by
  constructor <;> dsimp only
  case mbWf => exact storeBlock_wf h.mbWf _ _
  case mbWf' => exact storeBlock_wf h.mbWf' _ _
  case rk => exact h.rk
  case block =>
    intro j hj
    rw [loadBlock_storeBlock h.mbWf, loadBlock_storeBlock h.mbWf', h.block j hj]
  case iv => exact hiv

/-- The body at one block keeps the agreement. -/
theorem SameMessage.body {i : Instr} {N : Nat} {u u' : State} (h : SameMessage i N u u') {k : Nat} (hk : k < N)
    (hi : i ∈ cipherCommands) : SameMessage i N (cipherBody i k u) (cipherBody i k u') := by
  rw [cipherBody_eq hi h.mbWf, cipherBody_eq hi h.mbWf', h.blockOut_eq hk hi]
  refine h.store k fun hchain => ?_
  rw [h.rk, h.iv hchain, h.block k hk]

/-- A loop over blocks of the message keeps the agreement. -/
theorem SameMessage.loop {i : Instr} {N : Nat} (hi : i ∈ cipherCommands) {order : List Nat} (horder : ∀ k ∈ order, k < N)
    {u u' : State} (h : SameMessage i N u u') :
    SameMessage i N (order.foldl (atBlock (cipherBody i)) u)
      (order.foldl (atBlock (cipherBody i)) u') := by
  induction order generalizing u u' with
  | nil => exact h
  | cons k order ih =>
    obtain ⟨hk, horder⟩ := List.forall_mem_cons.mp horder
    have hseq : SameMessage i N { u with seq := { u.seq with bi := some k } }
        { u' with seq := { u'.seq with bi := some k } } := ⟨h.mbWf, h.mbWf', h.rk, h.block, h.iv⟩
    exact ih horder (hseq.body hk hi)

section
variable {i : Instr} {s s' : State} (h : SameReads i s s') (hi : i ∈ cipherCommands)
include h hi

theorem SameReads.blockCount_eq : blockCount s = blockCount s' := by
  rw [blockCount, blockCount, (h.message hi).1]

theorem SameReads.paddedBlock_eq (j : Nat) : paddedBlock s j = paddedBlock s' j := by
  obtain ⟨hmsglen, hbytes⟩ := h.message hi
  refine block_ext fun k hk => ?_
  rw [paddedBlock, paddedBlock, byteAt_ofFn _ hk, byteAt_ofFn _ hk, ← hmsglen]
  dsimp only
  split
  case isTrue hlt => exact hbytes _ hlt
  case isFalse => rfl

theorem SameReads.key_eq : s.key = s'.key := by
  refine (h.key fun hmem => ?_).2
  cases i <;> simp [cipherCommands] at hi hmem

/-- The padded messages with the key expanded agree as the loop needs it. -/
theorem SameReads.padded (hm : Memory.wf s.mb = true) (hm' : Memory.wf s'.mb = true) :
    SameMessage i (blockCount s) (expandKey (padMessage s)) (expandKey (padMessage s')) where
  mbWf := by rw [expandKey_mb]; exact padMessage_wf hm
  mbWf' := by rw [expandKey_mb]; exact padMessage_wf hm'
  rk := by rw [expandKey_rk, expandKey_rk, padMessage_key, padMessage_key, h.key_eq hi]
  block := fun j hj => by
    rw [expandKey_mb, expandKey_mb, loadBlock_padMessage hm hj,
      loadBlock_padMessage hm' (h.blockCount_eq hi ▸ hj), h.paddedBlock_eq hi]
  iv := fun hchain => by rw [expandKey_iv, expandKey_iv, padMessage_iv, padMessage_iv, (h.iv hchain).2]

/-- Both runs of a cipher command leave the same message, and the same IV if they chain. -/
theorem SameReads.sameMessage_work (hm : Memory.wf s.mb = true) (hm' : Memory.wf s'.mb = true) :
    SameMessage i (blockCount s) (work i s) (work i s') := by
  have hloop := (h.padded hi hm hm').loop hi (cipherOrder_lt i (blockCount s))
  rw [work_cipher hi s, work_cipher hi s', ecbFrame, ecbFrame, ← h.blockCount_eq hi]
  exact ⟨hloop.mbWf, hloop.mbWf', hloop.rk, hloop.block, hloop.iv⟩

theorem SameReads.msglen_eq : (work i s).msglen = (work i s').msglen := by
  rw [work_msglen_cipher hi, work_msglen_cipher hi, h.blockCount_eq hi]

end

theorem SameMessage.mbByte_eq {i : Instr} {N : Nat} {u u' : State} (h : SameMessage i N u u') {a : Nat}
    (ha : a < 16 * N) : mbByte u a = mbByte u' a := by
  rw [mbByte, mbByte, read_eq_loadBlock, read_eq_loadBlock u'.mb, h.block (a / 16) (by omega)]

/-- CLONE after DEC.CFB is the last block as the loop found it (45_modes.md R150). -/
theorem work_decCfb_clone {s : State} {n : Nat} (hn : blockCount s = n + 1) :
    (work .decCfb s).clone =
      loadBlock ((ascending n).foldl (atBlock (cipherBody .decCfb)) (expandKey (padMessage s))).mb (16 * n) := by
  show ((ascending (blockCount s)).foldl (atBlock decCfbBlock) (expandKey (padMessage s))).clone = _
  rw [hn, ascending_succ, atBlock, decCfbBlock_eq]
  rfl

/-- Both runs of DEC.CFB come to the last block with the same ciphertext in it. -/
theorem SameReads.decCfb_clone_eq {s s' : State} (h : SameReads .decCfb s s') (hm : Memory.wf s.mb = true)
    (hm' : Memory.wf s'.mb = true) (hN : 0 < blockCount s) :
    (work .decCfb s).clone = (work .decCfb s').clone := by
  obtain ⟨n, hn⟩ := Nat.exists_eq_succ_of_ne_zero hN.ne'
  have hn' := (h.blockCount_eq (by decide)).symm.trans hn
  have hlt : ∀ k ∈ ascending n, k < blockCount s := fun k hk =>
    (mem_ascending_lt n k hk).trans (hn ▸ Nat.lt_succ_self n)
  have hloop := (h.padded (by decide) hm hm').loop (by decide) hlt
  rw [work_decCfb_clone hn, work_decCfb_clone hn', hloop.block n (hn ▸ Nat.lt_succ_self n)]

theorem chain_subset_cipherCommands :
    [Instr.encCbc, .encOfb, .encCfb, .decCbc, .decOfb, .decCfb] ⊆ cipherCommands := by decide

/-- Settles O52: the masks agree, and each thing a command writes comes from what it reads. -/
theorem commandsDependOnlyOnWhatTheyRead : Obligations.CommandsDependOnlyOnWhatTheyRead := by
  intro i s s' t t' hs hs' hcfg hkey hiv hmessage hblock hopa hopb ht ht'
  have h : SameReads i s s' := ⟨hcfg, hkey, hiv, hmessage, hblock, hopa, hopb⟩
  refine ⟨h.errmask_eq, fun hpass => ?_⟩
  cases (exec_pass hpass).symm.trans ht
  cases (exec_pass (h.errmask_eq ▸ hpass)).symm.trans ht'
  refine ⟨fun hi => ?_, fun hi => h.result_eq hi, fun hi => ⟨h.msglen_eq hi, fun a ha => ?_⟩, fun hi => ⟨?_, ?_⟩,
    fun hi k hk => h.block_eq hs.mbWf hs'.mbWf hi hk, ?_⟩
  · rw [completeCommand_rk, completeCommand_rk, work_rk hi, work_rk hi, (hkey hi).2]
  · exact (h.sameMessage_work hi hs.mbWf hs'.mbWf).mbByte_eq ha
  · exact (h.sameMessage_work (chain_subset_cipherCommands hi) hs.mbWf hs'.mbWf).iv hi
  · rw [completeCommand_ivlen, completeCommand_ivlen, work_ivlen_chain hi, work_ivlen_chain hi]
  · rintro (rfl | ⟨rfl, hN⟩)
    · exact h.clone_eq
    · exact h.decCfb_clone_eq hs.mbWf hs'.mbWf hN

end Sys2Proof.Machine
end

section
/-! The Galois field (40_galois_field.md R80 to R84). A byte is the sum (XOR) of its bits' powers of x, so a XOR-linear
function is known by its values there; `gmul` is linear on both sides and commutes with `xtime`, which gives the laws of a
ring. It is a field because no byte but 0 and 1 is idempotent, and `a^255` is idempotent for every `a`. -/

namespace Sys2Proof.Machine

/-! ## The commands -/

/-- A byte with the opcode of a unit command and another MODE than 0 is illegal (30_encoding.md R64 (a)). -/
theorem decode_unit_mode {opc m : Nat} (hopc : 3 ≤ opc) (hbyte : opc < 16) (hm : 1 ≤ m) (hlt : m < 16) :
    decode (BitVec.ofNat 8 (16 * opc + m)) = .error .illegalCommand := by
  rw [decode_eq_illegal_iff, opcOf, modeOf, BitVec.toNat_ofNat]
  omega

/-- The commands over OPA and OPB complete and write their value to RESULT. -/
theorem exec_resultOnly {i : Instr} (hi : i ∈ [Instr.gfmul, .xtime, .sbox, .isbox]) (s : State) :
    exec i s = .next (completed { s with result := resultOf i s.opa s.opb }) := by
  rw [exec_pass (errmask_resultOnly hi s), work_result hi]
  rfl

/-- `xtime` by arithmetic: the dropped bit of the shift is what is reduced modulo 256. -/
theorem xtime_eq_double (a : Byte) :
    xtime a = BitVec.ofNat 8 (2 * a.toNat) ^^^ (if 128 ≤ a.toNat then 0x1B else 0x00) := by
  have hshift : a <<< 1 = BitVec.ofNat 8 (2 * a.toNat) := by
    apply BitVec.eq_of_toNat_eq
    rw [BitVec.toNat_shiftLeft, BitVec.toNat_ofNat, Nat.shiftLeft_eq, Nat.pow_one, Nat.mul_comm]
  have hbit : a.getLsbD 7 = decide (128 ≤ a.toNat) := BitVec.msb_eq_decide a
  rw [xtime, hbit, hshift]
  by_cases h : 128 ≤ a.toNat
  · rw [if_pos (decide_eq_true h), if_pos h]
  · rw [if_neg (by simpa using h), if_neg h]
    exact BitVec.xor_zero.symm

/-- Settles O20: a unit command without checks, and `xtime` by arithmetic. -/
theorem xtimeCommand : Obligations.XtimeCommand := by
  refine ⟨rfl, fun m hm hlt => decode_unit_mode (opc := 7) (by decide) (by decide) hm hlt, fun s => ?_⟩
  rw [exec_resultOnly (by decide), resultOf, xtime_eq_double]

/-! ## XOR-linear functions and sums over the bits of a byte -/

/-- `f` distributes over XOR. -/
def XorLinear (f : Byte → Byte) : Prop := ∀ x y : Byte, f (x ^^^ y) = f x ^^^ f y

theorem XorLinear.map_zero {f : Byte → Byte} (h : XorLinear f) : f 0 = 0 := by
  have hzero := h 0 0
  rwa [BitVec.xor_self, BitVec.xor_self] at hzero

theorem XorLinear.iterate {f : Byte → Byte} (h : XorLinear f) (n : Nat) : XorLinear f^[n] := by
  induction n with
  | zero => exact fun _ _ => rfl
  | succ n ih => intro x y; rw [Function.iterate_succ_apply, h, ih]; rfl

theorem xorLinear_xtime_iterate (n : Nat) : XorLinear xtime^[n] := XorLinear.iterate xtime_xor n

/-- The XOR of `v i` over the bits `i < n` set in `b`. -/
def bitSum (n : Nat) (b : Byte) (v : Nat → Byte) : Byte :=
  match n with
  | 0 => 0
  | n + 1 => bitSum n b v ^^^ (if b.getLsbD n then v n else 0)

theorem foldl_eq_bitSum (n : Nat) (b : Byte) (v : Nat → Byte) :
    (List.range n).foldl (fun acc i => if b.getLsbD i then acc ^^^ v i else acc) 0 = bitSum n b v := by
  induction n with
  | zero => rfl
  | succ n ih =>
    rw [List.range_succ, List.foldl_append, ih, bitSum]
    cases h : b.getLsbD n <;> simp [h]

theorem bitSum_congr {n : Nat} {v w : Nat → Byte} (h : ∀ i < n, v i = w i) (b : Byte) :
    bitSum n b v = bitSum n b w := by
  induction n with
  | zero => rfl
  | succ n ih => rw [bitSum, bitSum, ih fun i hi => h i (by omega), h n (by omega)]

theorem bitSum_xor_left (n : Nat) (b c : Byte) (v : Nat → Byte) :
    bitSum n (b ^^^ c) v = bitSum n b v ^^^ bitSum n c v := by
  induction n with
  | zero => exact BitVec.xor_self.symm
  | succ n ih =>
    have hbit : (if (b ^^^ c).getLsbD n then v n else 0) =
        (if b.getLsbD n then v n else 0) ^^^ (if c.getLsbD n then v n else 0) := by
      rw [BitVec.getLsbD_xor]
      cases b.getLsbD n <;> cases c.getLsbD n <;> simp
    rw [bitSum, bitSum, bitSum, ih, hbit]
    ac_rfl

theorem bitSum_xor_right (n : Nat) (b : Byte) (v w : Nat → Byte) :
    bitSum n b (fun i => v i ^^^ w i) = bitSum n b v ^^^ bitSum n b w := by
  induction n with
  | zero => exact BitVec.xor_self.symm
  | succ n ih =>
    have hbit : (if b.getLsbD n then v n ^^^ w n else 0) =
        (if b.getLsbD n then v n else 0) ^^^ (if b.getLsbD n then w n else 0) := by
      cases b.getLsbD n <;> simp
    rw [bitSum, bitSum, bitSum, ih, hbit]
    ac_rfl

theorem XorLinear.map_bitSum {f : Byte → Byte} (h : XorLinear f) (n : Nat) (b : Byte) (v : Nat → Byte) :
    f (bitSum n b v) = bitSum n b (fun i => f (v i)) := by
  induction n with
  | zero => exact h.map_zero
  | succ n ih => rw [bitSum, bitSum, h, ih, apply_ite f, h.map_zero]

/-- The powers of x below x^8 are the single bits. -/
theorem xtime_iterate_one_eq_twoPow : ∀ i < 8, xtime^[i] 1 = BitVec.twoPow 8 i := by decide

/-- The bits below `n` of a sum of single bits are those of `b`, the others are 0. -/
theorem getLsbD_bitSum_twoPow {n : Nat} (hn : n ≤ 8) (b : Byte) (j : Nat) :
    (bitSum n b (BitVec.twoPow 8)).getLsbD j = (decide (j < n) && b.getLsbD j) := by
  induction n with
  | zero => rw [bitSum]; simp
  | succ n ih =>
    have hbit : (if b.getLsbD n then BitVec.twoPow 8 n else 0).getLsbD j = (decide (j = n) && b.getLsbD j) := by
      by_cases hj : j = n
      · subst hj
        have hj8 : j < 8 := by omega
        cases b.getLsbD j <;> simp [hj8]
      · cases b.getLsbD n <;> simp [hj, Ne.symm hj]
    rw [bitSum, BitVec.getLsbD_xor, ih (by omega), hbit]
    by_cases hj : j = n
    · simp [hj]
    · have hsucc : j < n + 1 ↔ j < n := by omega
      simp [hj, hsucc]

/-- A byte is the sum of the powers of x at its bits. -/
theorem bitSum_powers (b : Byte) : bitSum 8 b (fun i => xtime^[i] 1) = b := by
  rw [bitSum_congr xtime_iterate_one_eq_twoPow]
  refine BitVec.eq_of_getLsbD_eq fun j hj => ?_
  rw [getLsbD_bitSum_twoPow le_rfl, decide_eq_true hj, Bool.true_and]

/-- Two XOR-linear functions that agree on the powers of x below x^8 are equal. -/
theorem XorLinear.ext {f g : Byte → Byte} (hf : XorLinear f) (hg : XorLinear g)
    (h : ∀ i < 8, f (xtime^[i] 1) = g (xtime^[i] 1)) (b : Byte) : f b = g b := by
  rw [← bitSum_powers b, hf.map_bitSum, hg.map_bitSum]
  exact bitSum_congr h b

/-! ## The laws of a commutative ring -/

theorem gmul_eq_bitSum (a b : Byte) : gmul a b = bitSum 8 b (fun i => xtime^[i] a) :=
  (gmul_bits a b).trans (foldl_eq_bitSum 8 b _)

theorem gmul_xor (a : Byte) : XorLinear (gmul a) := fun b c => by
  simp only [gmul_eq_bitSum, bitSum_xor_left]

theorem xor_gmul (x y b : Byte) : gmul (x ^^^ y) b = gmul x b ^^^ gmul y b := by
  simp only [gmul_eq_bitSum, xorLinear_xtime_iterate _ x y, bitSum_xor_right]

theorem xorLinear_gmul_left (b : Byte) : XorLinear (gmul · b) := fun x y => xor_gmul x y b

@[simp] theorem gmul_zero (a : Byte) : gmul a 0 = 0 := (gmul_xor a).map_zero

@[simp] theorem zero_gmul (b : Byte) : gmul 0 b = 0 := (xorLinear_gmul_left b).map_zero

@[simp] theorem one_gmul (b : Byte) : gmul 1 b = b := (gmul_eq_bitSum 1 b).trans (bitSum_powers b)

/-- `gmul` commutes with multiplication by a power of x on the left. -/
theorem xtime_iterate_gmul (n : Nat) (a b : Byte) : gmul (xtime^[n] a) b = xtime^[n] (gmul a b) := by
  rw [gmul_eq_bitSum, gmul_eq_bitSum, (xorLinear_xtime_iterate n).map_bitSum]
  exact bitSum_congr (fun i _ => by rw [← Function.iterate_add_apply, ← Function.iterate_add_apply, Nat.add_comm]) b

/-- `xtime` applied `n` times is multiplication by x^n. -/
theorem power_gmul (n : Nat) (b : Byte) : gmul (xtime^[n] 1) b = xtime^[n] b := by
  rw [xtime_iterate_gmul, one_gmul]

theorem bitSum_twoPow (n i : Nat) (hi : i < 8) (v : Nat → Byte) :
    bitSum n (BitVec.twoPow 8 i) v = if i < n then v i else 0 := by
  induction n with
  | zero => rfl
  | succ n ih =>
    have hbit : (BitVec.twoPow 8 i).getLsbD n = decide (i = n) := by simp [hi]
    rw [bitSum, ih, hbit]
    by_cases h : i = n
    · simp [h]
    · have hsucc : i < n + 1 ↔ i < n := by omega
      simp [h, hsucc]

theorem gmul_comm (a b : Byte) : gmul a b = gmul b a := by
  refine (xorLinear_gmul_left b).ext (gmul_xor b) (fun i hi => ?_) a
  have hright : gmul b (xtime^[i] 1) = xtime^[i] b := by
    rw [gmul_eq_bitSum, xtime_iterate_one_eq_twoPow i hi, bitSum_twoPow 8 i hi, if_pos hi]
  rw [power_gmul, hright]

@[simp] theorem gmul_one (a : Byte) : gmul a 1 = a := by
  rw [gmul_comm, one_gmul]

theorem gmul_assoc (a b c : Byte) : gmul (gmul a b) c = gmul a (gmul b c) := by
  have hleft : XorLinear fun a => gmul (gmul a b) c := fun x y => by
    simp only [xor_gmul]
  refine hleft.ext (xorLinear_gmul_left (gmul b c)) (fun i _ => ?_) a
  simp only [power_gmul, xtime_iterate_gmul i b c]

/-- Settles O21: a unit command without checks, `gmul` by its bits, and its corner products by powers of x. -/
theorem gfmulCommand : Obligations.GfmulCommand := by
  refine ⟨rfl, fun m hm hlt => decode_unit_mode (opc := 6) (by decide) (by decide) hm hlt, fun s => ?_, fun a b => ?_⟩
  · rw [exec_resultOnly (by decide), resultOf, gmul_bits]
  · have hthree : gmul (xtime 1 ^^^ 1) b = xtime b ^^^ b := by
      rw [xor_gmul, one_gmul]
      exact congrArg (· ^^^ b) (power_gmul 1 b)
    exact ⟨zero_gmul b, gmul_zero a, one_gmul b, gmul_one a, power_gmul 1 b, hthree⟩

/-! ## Doubling has order 51 -/

/-- `xtime` has period 51 at every byte, since it has at 1. -/
theorem isPeriodicPt_xtime (a : Byte) : Function.IsPeriodicPt xtime 51 a := by
  have hone : xtime^[51] 1 = 1 := by decide +kernel
  show xtime^[51] a = a
  rw [← power_gmul, hone, one_gmul]

theorem bijective_xtime : Function.Bijective xtime :=
  Function.bijective_iff_has_inverse.mpr ⟨xtime^[50], isPeriodicPt_xtime, fun a =>
    (Function.iterate_succ_apply' xtime 50 a).symm.trans (isPeriodicPt_xtime a)⟩

/-! ## Powers and inverses -/

/-- The `n`th power of `a`. -/
def gpow (a : Byte) (n : Nat) : Byte := (gmul a)^[n] 1

theorem gpow_succ (a : Byte) (n : Nat) : gpow a (n + 1) = gmul a (gpow a n) :=
  Function.iterate_succ_apply' _ _ _

theorem gpow_add (a : Byte) (m n : Nat) : gpow a (m + n) = gmul (gpow a m) (gpow a n) := by
  induction m with
  | zero => rw [Nat.zero_add]; exact (one_gmul _).symm
  | succ m ih => rw [Nat.succ_add, gpow_succ, gpow_succ, ih, gmul_assoc]

theorem gpow_power (i n : Nat) : gpow (xtime^[i] 1) n = xtime^[i * n] 1 := by
  induction n with
  | zero => rfl
  | succ n ih => rw [gpow_succ, ih, power_gmul, ← Function.iterate_add_apply, Nat.mul_succ, Nat.add_comm]

/-- Squaring is linear: the two mixed products cancel. -/
theorem xorLinear_square : XorLinear fun a => gmul a a := fun x y => by
  have hcross : gmul x y ^^^ gmul y x = 0 := by rw [gmul_comm y x]; exact BitVec.xor_self
  calc gmul (x ^^^ y) (x ^^^ y)
      = gmul x x ^^^ (gmul x y ^^^ gmul y x) ^^^ gmul y y := by
        rw [xor_gmul, gmul_xor x, gmul_xor y]; ac_rfl
    _ = gmul x x ^^^ gmul y y := by rw [hcross]; exact congrArg (· ^^^ gmul y y) BitVec.xor_zero

theorem xorLinear_gpow_two_pow (k : Nat) : XorLinear (gpow · (2 ^ k)) := by
  induction k with
  | zero => intro x y; simp only [Nat.pow_zero, gpow, Function.iterate_one, gmul_one]
  | succ k ih =>
    intro x y
    simp only [Nat.pow_succ, Nat.mul_two, gpow_add]
    exact (congrArg (fun a => gmul a a) (ih x y)).trans (xorLinear_square _ _)

/-- The 256th power is linear and keeps every power of x, so it keeps every byte. -/
theorem gpow_256 (a : Byte) : gpow a 256 = a := by
  refine (xorLinear_gpow_two_pow 8).ext (g := id) (fun _ _ => rfl) (fun i _ => ?_) a
  have hmod : i * 2 ^ 8 % 51 = i % 51 := by omega
  rw [gpow_power, ← (isPeriodicPt_xtime 1).iterate_mod_apply, hmod, (isPeriodicPt_xtime 1).iterate_mod_apply, id]

/-- That x^8+x^4+x^3+x+1 is irreducible, in the form used here: 0 and 1 are the only idempotents. -/
theorem idempotent_eq_zero_or_one : ∀ e : Byte, gmul e e = e → e = 0 ∨ e = 1 := by decide +kernel

/-- The 255th power of a nonzero byte is an idempotent, and not 0. -/
theorem gpow_255 {a : Byte} (ha : a ≠ 0) : gpow a 255 = 1 := by
  have hfix : gmul a (gpow a 255) = a := by rw [← gpow_succ, gpow_256]
  have hidem : gmul (gpow a 255) (gpow a 255) = gpow a 255 :=
    calc gmul (gpow a 255) (gpow a 255)
        = gpow a (256 + 254) := (gpow_add a 255 255).symm
      _ = gmul a (gpow a 254) := by rw [gpow_add, gpow_256]
      _ = gpow a 255 := (gpow_succ a 254).symm
  rcases idempotent_eq_zero_or_one _ hidem with hzero | hone
  · rw [hzero, gmul_zero] at hfix
    exact absurd hfix.symm ha
  · exact hone

/-- The 254th power of a nonzero byte is its inverse. -/
theorem gpow_254_gmul_gmul {a : Byte} (ha : a ≠ 0) (b : Byte) : gmul (gpow a 254) (gmul a b) = b := by
  rw [← gmul_assoc, gmul_comm _ a, ← gpow_succ, gpow_255 ha, one_gmul]

theorem gmul_left_cancel {a b c : Byte} (ha : a ≠ 0) (h : gmul a b = gmul a c) : b = c := by
  rw [← gpow_254_gmul_gmul ha b, h, gpow_254_gmul_gmul ha]

/-- No shorter period than 51 at a nonzero byte, since there is none at 1. -/
theorem xtime_iterate_ne_self {a : Byte} {n : Nat} (ha : a ≠ 0) (hn : 0 < n) (hlt : n < 51) : xtime^[n] a ≠ a := by
  have hone : ∀ n < 51, 0 < n → xtime^[n] 1 ≠ 1 := by decide
  intro h
  refine hone n hlt hn (gmul_left_cancel ha ?_)
  rw [gmul_comm, power_gmul, h, gmul_one]

/-- Settles O22: the ring laws, the cancellation law that the inverse `a^254` gives, and the period of `xtime`. -/
theorem galoisFieldLaws : Obligations.GaloisFieldLaws := by
  refine ⟨one_gmul, gmul_comm, gmul_assoc, gmul_xor, fun a b h => ?_, fun a ha => ?_, fun a => ?_, rfl, bijective_xtime,
    rfl, isPeriodicPt_xtime, fun a n ha hn hlt => xtime_iterate_ne_self ha hn hlt⟩
  · refine or_iff_not_imp_left.mpr fun ha => gmul_left_cancel ha ?_
    rw [h, gmul_zero]
  · have hinv : gmul a (gpow a 254) = 1 := by rw [← gpow_succ, gpow_255 ha]
    exact ⟨gpow a 254, hinv, fun c hc => gmul_left_cancel ha (hc.trans hinv.symm)⟩
  · rw [gmul_comm]
    exact (power_gmul 8 a).symm

end Sys2Proof.Machine
end

section
/-! The substitution tables (41_sbox.md R90 to R95). The tables are data, so three facts about them are evaluated at all 256
bytes: INVSBOX undoes SBOX and SBOX undoes INVSBOX, INVSBOX takes the affine map of `b` to the inverse of `b`, and SBOX
fixes or complements no byte. The formula of R91 follows for every pair of inverses. -/

namespace Sys2Proof.Machine

/-! ## The tables undo each other -/

@[simp] theorem invSbox_sbox : ∀ x : Byte, invSbox (sbox x) = x := by decide +kernel

@[simp] theorem sbox_invSbox : ∀ x : Byte, sbox (invSbox x) = x := by decide +kernel

theorem sbox_ne_self_and_ne_complement : ∀ x : Byte, sbox x ≠ x ∧ sbox x ≠ x ^^^ 0xFF := by decide +kernel

/-! ## The commands -/

/-- Settles O23: a unit command without checks. -/
theorem sboxCommand : Obligations.SboxCommand :=
  ⟨rfl, fun _ hm hlt => decode_unit_mode (opc := 8) (by decide) (by decide) hm hlt, exec_resultOnly (by decide)⟩

/-- Settles O24: a unit command without checks; the round trip is INVSBOX undoing SBOX. -/
theorem isboxCommand : Obligations.IsboxCommand := by
  refine ⟨rfl, fun m hm hlt => decode_unit_mode (opc := 9) (by decide) (by decide) hm hlt, exec_resultOnly (by decide),
    fun s t u ht hu => ?_⟩
  cases (exec_resultOnly (by decide) s).symm.trans ht
  cases (exec_resultOnly (by decide) _).symm.trans hu
  exact invSbox_sbox s.opa

/-! ## The formula of SBOX -/

/-- The affine map of 41_sbox.md R91, by rotations: bit `i` of `b` rotated left by `8 - k` is bit `(i + k) mod 8` of `b`. -/
def affineMap (b : Byte) : Byte :=
  b ^^^ b.rotateLeft 4 ^^^ b.rotateLeft 3 ^^^ b.rotateLeft 2 ^^^ b.rotateLeft 1 ^^^ 0x63

theorem getLsbD_rotateLeft_sub (b : Byte) {k i : Nat} (hk : 0 < k) (hlt : k < 8) (hi : i < 8) :
    (b.rotateLeft (8 - k)).getLsbD i = b.getLsbD ((i + k) % 8) := by
  rw [BitVec.getLsbD_rotateLeft, Nat.mod_eq_of_lt (show 8 - k < 8 by omega)]
  by_cases h : i < 8 - k
  · rw [decide_eq_true h, cond_true]
    congr 1
    omega
  · rw [decide_eq_false h, cond_false, decide_eq_true hi, Bool.true_and]
    congr 1
    omega

theorem getLsbD_affineMap (b : Byte) {i : Nat} (hi : i < 8) :
    (affineMap b).getLsbD i =
      (b.getLsbD i ^^ b.getLsbD ((i + 4) % 8) ^^ b.getLsbD ((i + 5) % 8) ^^ b.getLsbD ((i + 6) % 8) ^^
        b.getLsbD ((i + 7) % 8) ^^ (0x63 : Byte).getLsbD i) := by
  have hrot {k : Nat} (hk : 0 < k ∧ k < 8) := getLsbD_rotateLeft_sub b hk.1 hk.2 hi
  rw [← hrot (k := 4) (by decide), ← hrot (k := 5) (by decide), ← hrot (k := 6) (by decide), ← hrot (k := 7) (by decide)]
  simp only [affineMap, BitVec.getLsbD_xor]

/-- `b` is the multiplicative inverse of `x`, where 0 stands for its own. -/
def IsInverse (x b : Byte) : Prop := (x = 0 ∧ b = 0) ∨ gmul x b = 1

theorem invSbox_affineMap_isInverse : ∀ b : Byte, IsInverse (invSbox (affineMap b)) b := by
  unfold IsInverse
  decide +kernel

theorem gmul_zero_ne_one (a : Byte) : gmul a 0 ≠ 1 := by
  rw [gmul_zero]
  decide

/-- Only one byte has the inverse `b`. -/
theorem IsInverse.left_unique {x y b : Byte} (hx : IsInverse x b) (hy : IsInverse y b) : x = y := by
  by_cases hb : b = 0
  · subst hb
    have hzero {z : Byte} (hz : IsInverse z 0) : z = 0 := (hz.resolve_right (gmul_zero_ne_one z)).1
    rw [hzero hx, hzero hy]
  · have hone {z : Byte} (hz : IsInverse z b) : gmul b z = 1 := by
      rw [gmul_comm]
      exact hz.resolve_left fun h => hb h.2
    exact gmul_left_cancel hb ((hone hx).trans (hone hy).symm)

/-- SBOX is the affine map of the multiplicative inverse (41_sbox.md R91). -/
theorem sbox_eq_affineMap {x b : Byte} (h : IsInverse x b) : sbox x = affineMap b := by
  rw [h.left_unique (invSbox_affineMap_isInverse b), sbox_invSbox]

/-- Settles O25: the affine formula bit by bit, and the three facts evaluated on the tables. -/
theorem substitutionTables : Obligations.SubstitutionTables := by
  refine ⟨fun x b h i hi => ?_, fun x => ⟨invSbox_sbox x, sbox_invSbox x⟩, sbox_ne_self_and_ne_complement⟩
  rw [sbox_eq_affineMap h, getLsbD_affineMap b hi]

end Sys2Proof.Machine
end

section
/-! The key schedule (42_key_schedule.md R100 to R107). RK is spoken of byte by byte: the three branches of the recurrence of
R103 are stated on `expand key` itself, and the commands then leave it or keep what RK held. -/

namespace Sys2Proof.Machine

/-! ## Round constants -/

theorem roundConstantByte_succ {i : Nat} (hi : 1 ≤ i) : roundConstantByte (i + 1) = xtime (roundConstantByte i) := by
  obtain ⟨j, rfl⟩ := Nat.exists_eq_add_of_le' hi
  rfl

/-- Settles O26: the doubling is the recursion of `roundConstantByte`, and the ten values are evaluated. -/
theorem roundConstants : Obligations.RoundConstants :=
  ⟨fun _ hi => ⟨rfl, roundConstantByte_succ hi⟩, by decide⟩

/-! ## Bytes of a word -/

@[simp] theorem getElem_xorWord (x y : KeyWord) {k : Nat} (hk : k < 4) : (xorWord x y)[k] = x[k] ^^^ y[k] := by
  simp [xorWord]

theorem getElem_roundConstant (i : Nat) {k : Nat} (hk : k < 4) :
    (roundConstant i)[k] = if k = 0 then roundConstantByte i else 0x00 := by
  obtain rfl | rfl | rfl | rfl : k = 0 ∨ k = 1 ∨ k = 2 ∨ k = 3 := by omega
  all_goals rfl

theorem getElem_rotateWord (w : KeyWord) {k : Nat} (hk : k < 4) : (rotateWord w)[k] = w[(k + 1) % 4] := by
  obtain rfl | rfl | rfl | rfl : k = 0 ∨ k = 1 ∨ k = 2 ∨ k = 3 := by omega
  all_goals rfl

theorem getElem_substituteWord (w : KeyWord) {k : Nat} (hk : k < 4) : (substituteWord w)[k] = sbox w[k] := by
  obtain rfl | rfl | rfl | rfl : k = 0 ∨ k = 1 ∨ k = 2 ∨ k = 3 := by omega
  all_goals rfl

theorem getElem_wordOfKey (key : Block) {n k : Nat} (hn : n < 4) (hk : k < 4) :
    (wordOfKey key n)[k] = key[4 * n + k] := by
  rw [wordOfKey, Vector.getElem_ofFn, byteAt_lt]

/-! ## The recurrence on RK (R103, R104) -/

theorem expand_get_keyWord (key : Block) {n k : Nat} (hn : n < 4) (hk : k < 4) :
    (expand key)[4 * n + k] = key[4 * n + k] := by
  rw [expand_get key n k (by omega) hk, scheduleWord_eq key (by omega), if_pos hn, getElem_wordOfKey key hn hk]

theorem expand_get_plainWord (key : Block) {n k : Nat} (hn : n < 44) (hk : k < 4) (h4 : 4 ≤ n) (hmod : n % 4 ≠ 0) :
    (expand key)[4 * n + k] = (expand key)[4 * (n - 4) + k] ^^^ (expand key)[4 * (n - 1) + k] := by
  rw [expand_get key n k hn hk, expand_get key (n - 4) k (by omega) hk, expand_get key (n - 1) k (by omega) hk,
    scheduleWord_eq key hn, if_neg (by omega), if_neg hmod, getElem_xorWord _ _ hk]

theorem expand_get_roundWord (key : Block) {n k : Nat} (hn : n < 44) (hk : k < 4) (h4 : 4 ≤ n) (hmod : n % 4 = 0) :
    (expand key)[4 * n + k] =
      (expand key)[4 * (n - 4) + k] ^^^ (if k = 0 then roundConstantByte (n / 4) else 0x00) ^^^
        sbox (expand key)[4 * (n - 1) + (k + 1) % 4] := by
  have hrot : (k + 1) % 4 < 4 := Nat.mod_lt _ (by decide)
  rw [expand_get key n k hn hk, expand_get key (n - 4) k (by omega) hk, expand_get key (n - 1) _ (by omega) hrot,
    scheduleWord_eq key hn, if_neg (by omega), if_pos hmod, getElem_xorWord _ _ hk, getElem_xorWord _ _ hk,
    getElem_roundConstant _ hk, getElem_substituteWord _ hk, getElem_rotateWord _ hk]

/-- Round key 0 is the key (R105). -/
theorem expand_get_roundKey_zero (key : Block) (k : Fin 16) : (expand key)[k.val] = key[k.val] := by
  have h := expand_get_keyWord key (n := k.val / 4) (k := k.val % 4) (by omega) (by omega)
  simpa only [Nat.div_add_mod] using h

/-! ## The commands -/

/-- Settles O27: KEXP's one check, and the three branches of the recurrence. -/
theorem kexpExpandsTheKey : Obligations.KexpExpandsTheKey := by
  refine ⟨rfl, fun m hm hlt => decode_unit_mode (opc := 3) (by decide) (by decide) hm hlt, fun s hklen => ?_,
    fun s hklen => ⟨completed (expandKey s), ?_, rfl, fun n k hn hk => ⟨fun h4 => ?_, ?_, ?_⟩⟩⟩
  · have hmask : errmask (encode .kexp) s = 0x01 := by rw [errmask_kexp, bitIf, if_pos hklen]
    rw [exec_fail (by rw [hmask]; decide), hmask]
    rfl
  · have hmask : errmask (encode .kexp) s = 0 := by rw [errmask_kexp, bitIf, if_neg (not_not_intro hklen)]
    exact exec_pass hmask
  · have hmod : (4 * n + k) % 16 = 4 * n + k := Nat.mod_eq_of_lt (by omega)
    simp only [hmod]
    exact expand_get_keyWord s.key h4 hk
  · exact expand_get_plainWord s.key hn hk
  · exact expand_get_roundWord s.key hn hk

theorem work_key (i : Instr) (s : State) : (work i s).key = s.key := by
  have h := dataPathOnly_work i s
  unfold DataPathOnly at h
  rw [h]

/-- Settles O28: a failing command writes ERR and STATUS alone; one that passes leaves RK as its execute step does. -/
theorem keyUsingCommandsExpandFirst : Obligations.KeyUsingCommandsExpandFirst := by
  intro i s t h
  by_cases hpass : errmask (encode i) s = 0
  · cases (exec_pass hpass).symm.trans h
    have hkey : (completeCommand (work i s)).key = s.key := work_key i s
    refine ⟨fun _ hi => ?_, fun hkeep => work_rk_kept (hkeep.resolve_left (not_not_intro hpass)) s, hkey⟩
    have hrk : (completeCommand (work i s)).rk = expand s.key := work_rk hi s
    rw [hrk, hkey]
    exact ⟨rfl, expand_get_roundKey_zero s.key⟩
  · cases (exec_fail hpass).symm.trans h
    exact ⟨fun hzero => absurd hzero hpass, fun _ => rfl, rfl⟩

end Sys2Proof.Machine
end

section
/-! The block view (43_blockview.md R110 to R117). The BV port is spoken of through the view it selects: with one, BVDATA is
byte `4*COL + ROW` of that view; with none, it reads 0x00 and drops writes. -/

namespace Sys2Proof.Machine

/-! ## What BVSEL selects -/

/-- The three fields of BVSEL, from its value. -/
theorem bvsel_fields {s : State} {space col row : Nat} (h : s.bvsel.toNat = 16 * space + 4 * col + row)
    (hcol : col < 4) (hrow : row < 4) : bvSpace s = space ∧ 4 * (bvCol s).val + (bvRow s).val = 4 * col + row := by
  simp only [bvSpace, bvCol, bvRow, h]
  omega

theorem bvView_mb_inside {s : State} (h : bvSpace s = 0) (hin : 16 * s.blk.toNat + 16 ≤ s.cfg.mbBytes) :
    bvView s = some (blkView s) := by
  have hblock : blockOutside s = false := decide_eq_false (Nat.not_lt.mpr hin)
  simp [bvView, h, hblock]

theorem bvView_mb_outside {s : State} (h : bvSpace s = 0) (hout : s.cfg.mbBytes < 16 * s.blk.toNat + 16) :
    bvView s = none := by
  have hblock : blockOutside s = true := decide_eq_true hout
  simp [bvView, h, hblock]

theorem bvView_clone {s : State} (h : bvSpace s = 1) : bvView s = some cloneView := by
  simp only [bvView, h]

theorem bvView_iv {s : State} (h : bvSpace s = 2) : bvView s = some ivView := by
  simp only [bvView, h]

theorem bvView_reserved {s : State} (h : bvSpace s = 3) : bvView s = none := by
  simp only [bvView, h]

/-! ## The BV port -/

/-- No view: not an error (43_blockview.md R116). -/
theorem bvPort_of_bvView_none {s : State} (h : bvView s = none) (x : Byte) :
    busRead 0x000B s = 0x00 ∧ busWrite 0x000B x s = s := by
  refine ⟨?_, bvWrite_of_bvView_none h x⟩
  show bvRead s = 0x00
  rw [bvRead, h]

/-- A view: the byte of its space at the column and row of BVSEL (43_blockview.md R111). -/
theorem bvPort_of_bvView_some {s : State} {V : View} (h : bvView s = some V) {k : Nat}
    (hk : 4 * (bvCol s).val + (bvRow s).val = k) (x : Byte) :
    busRead 0x000B s = spaceRead V.space (V.base + k) s ∧ busWrite 0x000B x s = spaceWrite V.space (V.base + k) x s := by
  have hindex : index V (bvCol s) (bvRow s) = V.base + k := by
    rw [index, Nat.mul_comm, Nat.add_assoc, hk]
  rw [← hindex]
  refine ⟨?_, bvWrite_of_bvView_some h x⟩
  show bvRead s = viewRead V (bvCol s) (bvRow s) s
  rw [bvRead, h]

/-- Settles O16: the view BVSEL and BLK select, and the bus address, if any, of the byte it stands for. -/
theorem bvPortReachesTheSelectedByte : Obligations.BvPortReachesTheSelectedByte := by
  refine ⟨fun s x space col row hcfg hsel hcol hrow => ?_, fun s t hbusy haddr => ?_⟩
  · obtain ⟨hspace, hk⟩ := bvsel_fields hsel hcol hrow
    rw [← hspace]
    refine ⟨fun h hin => ?_, fun h hout => bvPort_of_bvView_none (bvView_mb_outside h hout) x, fun h => ?_, fun h => ?_,
      fun h => bvPort_of_bvView_none (bvView_reserved h) x⟩
    · obtain ⟨hread, hwrite⟩ := bvPort_of_bvView_some (bvView_mb_inside h hin) hk x
      obtain ⟨hread', hwrite'⟩ :=
        busRead_busWrite_mb hcfg (show 16 * s.blk.toNat + (4 * col + row) < s.cfg.mbBytes by omega) x
      simp only [Nat.add_assoc]
      exact ⟨hread, hread.trans hread'.symm, hwrite.trans hwrite'.symm⟩
    · have hport := bvPort_of_bvView_some (bvView_clone h) hk x
      rwa [cloneView, Nat.zero_add] at hport
    · obtain ⟨hread, hwrite⟩ := bvPort_of_bvView_some (bvView_iv h) hk x
      rw [ivView, Nat.zero_add] at hread hwrite
      have hloc := locate_iv s.cfg (4 * col + row) (by omega)
      rw [Nat.add_assoc, busRead_of_locate hloc, busWrite_of_locate hloc]
      exact ⟨hread, hwrite⟩
  · exact present_held (by rw [haddr]; decide) hbusy

/-! ## The command CLONE -/

/-- Settles O35: CLONE's one check, then `work_clone`; MB and CLONE are two fields of the state. -/
theorem cloneCopiesTheSelectedBlock : Obligations.CloneCopiesTheSelectedBlock := by
  refine ⟨rfl, fun m hm hlt => decode_unit_mode (opc := 10) (by decide) (by decide) hm hlt, fun s hout => ?_,
    fun s hin => ?_, fun _ _ _ => ⟨rfl, rfl⟩⟩
  · have hmask : errmask (encode .clone) s = 0x10 := by rw [errmask_clone, bitIf, if_pos hout]
    rw [exec_fail (by rw [hmask]; decide), hmask]
    rfl
  · have hmask : errmask (encode .clone) s = 0 := by rw [errmask_clone, bitIf, if_neg (Nat.not_lt.mpr hin)]
    refine ⟨completed { s with clone := loadBlock s.mb (16 * s.blk.toNat) }, ?_, rfl, fun k => ?_⟩
    · rw [exec_pass hmask, work_clone]
      rfl
    · exact Vector.getElem_ofFn k.isLt

end Sys2Proof.Machine
end

section
/-! The round transform (44_round_transform.md R120 to R131). Each step of a round is stated at a column and a row and undone by
its inverse. MixColumns and UnmixColumns are circulants: two in a row are one, of the convolution of their first rows. ENCB and
DECB apply the transform to one block of MB, which is what ECB does to a message of one block (45_modes.md R153). -/

namespace Sys2Proof.Machine

/-! ## AddRoundKey, SubBytes and ShiftRows -/

@[simp] theorem colRow_addRoundKey (rk : RoundKeys) (i : Nat) (b : Block) (c r : Fin 4) :
    colRow (addRoundKey rk i b) c r = colRow b c r ^^^ roundKeyByte rk i (4 * c.val + r.val) := colRow_blockOf _ c r

@[simp] theorem colRow_subBytes (b : Block) (c r : Fin 4) : colRow (subBytes b) c r = sbox (colRow b c r) :=
  colRow_blockOf _ c r

@[simp] theorem colRow_invSubBytes (b : Block) (c r : Fin 4) : colRow (invSubBytes b) c r = invSbox (colRow b c r) :=
  colRow_blockOf _ c r

@[simp] theorem colRow_shiftRowsLeft (b : Block) (c r : Fin 4) : colRow (shiftRowsLeft b) c r = colRow b (c + r) r :=
  colRow_blockOf _ c r

@[simp] theorem colRow_shiftRowsRight (b : Block) (c r : Fin 4) : colRow (shiftRowsRight b) c r = colRow b (c - r) r :=
  colRow_blockOf _ c r

@[simp] theorem addRoundKey_addRoundKey (rk : RoundKeys) (i : Nat) (b : Block) :
    addRoundKey rk i (addRoundKey rk i b) = b :=
  block_ext_colRow fun c r => by simp

@[simp] theorem invSubBytes_subBytes (b : Block) : invSubBytes (subBytes b) = b :=
  block_ext_colRow fun c r => by simp

@[simp] theorem subBytes_invSubBytes (b : Block) : subBytes (invSubBytes b) = b :=
  block_ext_colRow fun c r => by simp

@[simp] theorem shiftRowsRight_shiftRowsLeft (b : Block) : shiftRowsRight (shiftRowsLeft b) = b :=
  block_ext_colRow fun c r => by simp

@[simp] theorem shiftRowsLeft_shiftRowsRight (b : Block) : shiftRowsLeft (shiftRowsRight b) = b :=
  block_ext_colRow fun c r => by simp

/-! ## MixColumns -/

/-- Every column times the circulant matrix with first row `m`. -/
def circulant (m : Fin 4 → Byte) (b : Block) : Block :=
  blockOf fun c r => rowTimesColumn (m (0 - r)) (m (1 - r)) (m (2 - r)) (m (3 - r)) b c

/-- The first row of a product of circulants: the convolution of their first rows. -/
def convolve (m n : Fin 4 → Byte) (k : Fin 4) : Byte :=
  gmul (m 0) (n k) ^^^ gmul (m 1) (n (k - 1)) ^^^ gmul (m 2) (n (k - 2)) ^^^ gmul (m 3) (n (k - 3))

theorem mixColumns_eq_circulant (b : Block) : mixColumns b = circulant ![2, 3, 1, 1] b :=
  block_ext_colRow fun c r => by
    rw [mixColumns, circulant, colRow_blockOf, colRow_blockOf]
    fin_cases r <;> rfl

theorem unmixColumns_eq_circulant (b : Block) : unmixColumns b = circulant ![14, 11, 13, 9] b :=
  block_ext_colRow fun c r => by
    rw [unmixColumns, circulant, colRow_blockOf, colRow_blockOf]
    fin_cases r <;> rfl

theorem circulant_circulant (m n : Fin 4 → Byte) (b : Block) :
    circulant m (circulant n b) = circulant (convolve m n) b :=
  block_ext_colRow fun c r => by
    simp only [circulant, convolve, rowTimesColumn, colRow_blockOf, gmul_xor _ _ _, xor_gmul, gmul_assoc]
    match r with
    | 0 | 1 | 2 | 3 =>
      simp only [Fin.isValue, Fin.reduceSub]
      ac_rfl

theorem circulant_of_one {m : Fin 4 → Byte} (hm : ∀ k, m k = if k = 0 then 1 else 0) (b : Block) : circulant m b = b :=
  block_ext_colRow fun c r => by
    rw [circulant, colRow_blockOf, rowTimesColumn, hm, hm, hm, hm]
    match r with
    | 0 | 1 | 2 | 3 =>
      simp only [Fin.isValue, Fin.reduceSub, Fin.reduceEq, if_true, if_false, one_gmul, zero_gmul]
      simp

@[simp] theorem unmixColumns_mixColumns (b : Block) : unmixColumns (mixColumns b) = b := by
  rw [unmixColumns_eq_circulant, mixColumns_eq_circulant, circulant_circulant, circulant_of_one (by decide)]

@[simp] theorem mixColumns_unmixColumns (b : Block) : mixColumns (unmixColumns b) = b := by
  rw [mixColumns_eq_circulant, unmixColumns_eq_circulant, circulant_circulant, circulant_of_one (by decide)]

theorem two_gmul (b : Byte) : gmul 2 b = xtime b := power_gmul 1 b

theorem three_gmul (b : Byte) : gmul 3 b = xtime b ^^^ b := by
  have hthree : (3 : Byte) = 2 ^^^ 1 := rfl
  rw [hthree, xor_gmul, two_gmul, one_gmul]

/-- MixColumns on one column in terms of `xtime` (44_round_transform.md R125). -/
theorem colRow_mixColumns (b : Block) (c : Fin 4) :
    colRow (mixColumns b) c 0 =
      xtime (colRow b c 0) ^^^ (xtime (colRow b c 1) ^^^ colRow b c 1) ^^^ colRow b c 2 ^^^ colRow b c 3 ∧
    colRow (mixColumns b) c 1 =
      colRow b c 0 ^^^ xtime (colRow b c 1) ^^^ (xtime (colRow b c 2) ^^^ colRow b c 2) ^^^ colRow b c 3 ∧
    colRow (mixColumns b) c 2 =
      colRow b c 0 ^^^ colRow b c 1 ^^^ xtime (colRow b c 2) ^^^ (xtime (colRow b c 3) ^^^ colRow b c 3) ∧
    colRow (mixColumns b) c 3 =
      (xtime (colRow b c 0) ^^^ colRow b c 0) ^^^ colRow b c 1 ^^^ colRow b c 2 ^^^ xtime (colRow b c 3) := by
  simp only [mixColumns, colRow_blockOf, rowTimesColumn, two_gmul, three_gmul, one_gmul, and_self]

/-- UnmixColumns on one column (44_round_transform.md R126). -/
theorem colRow_unmixColumns (b : Block) (c : Fin 4) :
    colRow (unmixColumns b) c 0 = rowTimesColumn 14 11 13 9 b c ∧
    colRow (unmixColumns b) c 1 = rowTimesColumn 9 14 11 13 b c ∧
    colRow (unmixColumns b) c 2 = rowTimesColumn 13 9 14 11 b c ∧
    colRow (unmixColumns b) c 3 = rowTimesColumn 11 13 9 14 b c := by
  simp only [unmixColumns, colRow_blockOf, and_self]

/-! ## Bytes by flat index -/

theorem getElem_addRoundKey (rk : RoundKeys) (b : Block) {i k : Nat} (hi : i ≤ 10) (hk : k < 16) :
    (addRoundKey rk i b)[k] = b[k] ^^^ rk[16 * i + k] := by
  have hbyte : roundKeyByte rk i k = rk[16 * i + k] := by
    rw [roundKeyByte, Vector.getElem?_eq_getElem (by omega), Option.getD_some]
  rw [getElem_eq_colRow _ k hk, colRow_addRoundKey, ← getElem_eq_colRow b k hk, Nat.div_add_mod, hbyte]

theorem getElem_shiftRowsLeft (b : Block) {k : Nat} (hk : k < 16) :
    (shiftRowsLeft b)[k] = b[(k + 4 * (k % 4)) % 16] := by
  rw [getElem_eq_colRow _ k hk, colRow_shiftRowsLeft, colRow]
  congr 1
  simp only [Fin.val_add]
  omega

theorem getElem_shiftRowsRight (b : Block) {k : Nat} (hk : k < 16) :
    (shiftRowsRight b)[k] = b[(k + 16 - 4 * (k % 4)) % 16] := by
  rw [getElem_eq_colRow _ k hk, colRow_shiftRowsRight, colRow]
  congr 1
  simp only [Fin.val_sub]
  omega

/-- Settles O29: the steps at a column and a row, read at the flat index, and the inverse of each. -/
theorem blockStepFunctions : Obligations.BlockStepFunctions := by
  refine ⟨fun rk b i hi k hk => ⟨getElem_addRoundKey rk b hi hk, addRoundKey_addRoundKey rk i b⟩,
    fun b k hk => ⟨?_, ?_, getElem_shiftRowsLeft b hk, getElem_shiftRowsRight b hk⟩, fun b c hc => ?_,
    fun b => ⟨invSubBytes_subBytes b, shiftRowsRight_shiftRowsLeft b, unmixColumns_mixColumns b⟩⟩
  · rw [getElem_eq_colRow _ k hk, colRow_subBytes, ← getElem_eq_colRow b k hk]
  · rw [getElem_eq_colRow _ k hk, colRow_invSubBytes, ← getElem_eq_colRow b k hk]
  · obtain ⟨hm0, hm1, hm2, hm3⟩ := colRow_mixColumns b ⟨c, hc⟩
    exact ⟨hm0, hm1, hm2, hm3, colRow_unmixColumns b ⟨c, hc⟩⟩

/-! ## encryptBlock and decryptBlock -/

@[simp] theorem decryptRound_encryptRound (rk : RoundKeys) (b : Block) (i : Nat) :
    decryptRound rk (encryptRound rk b i) i = b := by
  simp [decryptRound, encryptRound]

@[simp] theorem encryptRound_decryptRound (rk : RoundKeys) (b : Block) (i : Nat) :
    encryptRound rk (decryptRound rk b i) i = b := by
  simp [decryptRound, encryptRound]

/-- Rounds undone one by one in the reverse order. -/
theorem foldl_reverse_undoes {f g : Block → Nat → Block} (h : ∀ b i, g (f b i) i = b) (rounds : List Nat) (b : Block) :
    rounds.reverse.foldl g (rounds.foldl f b) = b := by
  induction rounds generalizing b with
  | nil => rfl
  | cons i rounds ih =>
    rw [List.reverse_cons, List.foldl_append]
    exact (congrArg (g · i) (ih (f b i))).trans (h b i)

/-- `D(E(X)) = X`, whatever RK holds. -/
@[simp] theorem decryptBlock_encryptBlock (rk : RoundKeys) (b : Block) : decryptBlock rk (encryptBlock rk b) = b := by
  have hrounds (x : Block) : [9, 8, 7, 6, 5, 4, 3, 2, 1].foldl (decryptRound rk)
      ([1, 2, 3, 4, 5, 6, 7, 8, 9].foldl (encryptRound rk) x) = x :=
    foldl_reverse_undoes (decryptRound_encryptRound rk) [1, 2, 3, 4, 5, 6, 7, 8, 9] x
  rw [decryptBlock, encryptBlock, addRoundKey_addRoundKey, shiftRowsRight_shiftRowsLeft, invSubBytes_subBytes, hrounds,
    addRoundKey_addRoundKey]

/-- `E(D(X)) = X`, whatever RK holds. -/
@[simp] theorem encryptBlock_decryptBlock (rk : RoundKeys) (b : Block) : encryptBlock rk (decryptBlock rk b) = b := by
  have hrounds (x : Block) : [1, 2, 3, 4, 5, 6, 7, 8, 9].foldl (encryptRound rk)
      ([9, 8, 7, 6, 5, 4, 3, 2, 1].foldl (decryptRound rk) x) = x :=
    foldl_reverse_undoes (encryptRound_decryptRound rk) [9, 8, 7, 6, 5, 4, 3, 2, 1] x
  rw [encryptBlock, decryptBlock, addRoundKey_addRoundKey, hrounds, subBytes_invSubBytes, shiftRowsLeft_shiftRowsRight,
    addRoundKey_addRoundKey]

/-- Settles O30: both directions hold for every content of RK, so for the expansion of a key. -/
theorem decryptBlockInvertsEncryptBlock : Obligations.DecryptBlockInvertsEncryptBlock := fun key x =>
  ⟨decryptBlock_encryptBlock (expand key) x, encryptBlock_decryptBlock (expand key) x⟩

/-! ## ENCB and DECB -/

theorem mbBlock_eq (s : State) (i : Nat) : mbBlock s i = loadBlock s.mb (16 * i) := rfl

@[simp] theorem completed_mb (s : State) : (completed s).mb = s.mb := rfl

/-- ENCB or DECB past its checks: one block of MB replaced, RK expanded (44_round_transform.md R130, R131). -/
theorem exec_block_pass {i : Instr} (hi : i ∈ [Instr.encb, .decb]) {s : State} (h : errmask (encode i) s = 0) :
    exec i s = .next (completed { s with
      mb := storeBlock s.mb (16 * s.blk.toNat)
        (blockCipher i (expand s.key) (loadBlock s.mb (16 * s.blk.toNat)))
      rk := expand s.key }) := by
  rw [exec_pass h, work_block hi, expandKey]
  rfl

/-- ENCB and DECB: failure with the mask of the two checks, or block BLK transformed and the rest of MB as before. -/
theorem exec_block {i : Instr} (hi : i ∈ [Instr.encb, .decb]) {s : State} {m : BitVec 5}
    (hm : m = bitIf (s.klen ≠ 16) 0x01 ||| bitIf (s.cfg.mbBytes < 16 * s.blk.toNat + 16) 0x10) :
    (m ≠ 0 → exec i s = .next (failedWith m s)) ∧
    (m = 0 → Memory.wf s.mb = true → ∃ t : State, exec i s = .next t ∧
      t = completed { s with mb := t.mb, rk := expand s.key } ∧
      mbBlock t s.blk.toNat = blockCipher i (expand s.key) (mbBlock s s.blk.toNat) ∧
      ∀ a, a < 16 * s.blk.toNat ∨ 16 * s.blk.toNat + 16 ≤ a → mbByte t a = mbByte s a) := by
  rw [← errmask_block hi s] at hm
  subst hm
  refine ⟨exec_fail, fun hpass hwf => ⟨_, exec_block_pass hi hpass, by rw [completed_mb], ?_, fun a ha => ?_⟩⟩
  · rw [mbBlock_eq, completed_mb, loadBlock_storeBlock_same hwf, mbBlock_eq]
  · rw [mbByte, completed_mb, read_storeBlock hwf, if_neg (by omega), mbByte]

/-- Settles O32: ENCB is the command of `exec_block` whose transform is encryptBlock. -/
theorem encbEnciphersTheSelectedBlock : Obligations.EncbEnciphersTheSelectedBlock :=
  ⟨rfl, fun _ hm hlt => decode_unit_mode (opc := 4) (by decide) (by decide) hm hlt,
    fun _ _ hm => exec_block (i := .encb) (by decide) hm⟩

/-- Settles O33: DECB is the command of `exec_block` whose transform is decryptBlock. -/
theorem decbDeciphersTheSelectedBlock : Obligations.DecbDeciphersTheSelectedBlock :=
  ⟨rfl, fun _ hm hlt => decode_unit_mode (opc := 5) (by decide) (by decide) hm hlt,
    fun _ _ hm => exec_block (i := .decb) (by decide) hm⟩

theorem errmask_block_eq_zero {i : Instr} (hi : i ∈ [Instr.encb, .decb]) {s : State} (hklen : s.klen = 16)
    (hin : 16 * s.blk.toNat + 16 ≤ s.cfg.mbBytes) : errmask (encode i) s = 0 := by
  rw [errmask_block hi, bitIf, bitIf, if_neg (not_not_intro hklen), if_neg (Nat.not_lt.mpr hin)]
  rfl

/-- Storing the block that is there changes nothing. -/
theorem storeBlock_loadBlock {m : Memory} (hm : Memory.wf m = true) (base : Nat) :
    storeBlock m base (loadBlock m base) = m := by
  refine Memory.ext_of_wf (storeBlock_wf hm _ _) hm fun a => ?_
  rw [read_storeBlock hm]
  split
  · rw [byteAt_loadBlock m base (by omega), Nat.add_sub_of_le (by omega)]
  · rfl

/-- A block command, then one whose transform undoes the first's, on the same KEY and BLK. -/
theorem exec_block_undo {i j : Instr} (hi : i ∈ [Instr.encb, .decb]) (hj : j ∈ [Instr.encb, .decb])
    (hundo : ∀ rk x, blockCipher j rk (blockCipher i rk x) = x) {s : State} (hklen : s.klen = 16)
    (hin : 16 * s.blk.toNat + 16 ≤ s.cfg.mbBytes) (hwf : Memory.wf s.mb = true) :
    ∃ t u : State, exec i s = .next t ∧ exec j t = .next u ∧ u.mb = s.mb := by
  refine ⟨_, _, exec_block_pass hi (errmask_block_eq_zero hi hklen hin),
    exec_block_pass hj (errmask_block_eq_zero hj hklen hin), ?_⟩
  simp only [completed, loadBlock_storeBlock_same hwf, storeBlock_storeBlock hwf, hundo, storeBlock_loadBlock hwf]

/-- Settles O34: `D` undoes `E` and `E` undoes `D`, and MB is in canonical form. -/
theorem encbAndDecbUndoEachOther : Obligations.EncbAndDecbUndoEachOther := fun _ hklen hin hwf =>
  ⟨exec_block_undo (i := .encb) (j := .decb) (by decide) (by decide) decryptBlock_encryptBlock hklen hin hwf,
    exec_block_undo (i := .decb) (j := .encb) (by decide) (by decide) encryptBlock_decryptBlock hklen hin hwf⟩

/-! ## ECB on one block -/

/-- A message of whole blocks is not padded (45_modes.md R140). -/
theorem padMessage_eq_self {s : State} (h : 16 * blockCount s = s.msglen.toNat) : padMessage s = s := by
  rw [padMessage, h, Nat.sub_self, BitVec.ofNat_toNat, BitVec.setWidth_eq]
  rfl

theorem errmask_ecb_eq_zero {i : Instr} (hi : i ∈ [Instr.encEcb, .decEcb]) {s : State} (hklen : s.klen = 16)
    (hin : s.msglen.toNat ≤ s.cfg.mbBytes) : errmask (encode i) s = 0 := by
  rw [errmask_ecb hi, bitIf, bitIf, if_neg (not_not_intro hklen), if_neg (Nat.not_lt.mpr hin)]
  rfl

theorem ecbFrame_of_one_block {s : State} (hlen : s.msglen = 16) (body : Nat → State → State) :
    ecbFrame ascending body s = blockLoop [0] body (expandKey s) := by
  have hcount : blockCount s = 1 := by rw [blockCount, hlen]; rfl
  have hpad : padMessage s = s := padMessage_eq_self (by rw [hcount, hlen]; rfl)
  rw [ecbFrame, hcount, hpad]
  rfl

/-- The ECB commands, each with the block command of the same transform. -/
def ecbPairs : List (Instr × Instr) := [(.encEcb, .encb), (.decEcb, .decb)]

section
variable {i j : Instr} (hij : (i, j) ∈ ecbPairs)
include hij

theorem ecbPairs_cases : (i = .encEcb ∧ j = .encb) ∨ (i = .decEcb ∧ j = .decb) := by
  simpa [ecbPairs] using hij

theorem mem_of_ecbPairs : i ∈ [Instr.encEcb, .decEcb] ∧ j ∈ [Instr.encb, .decb] := by
  rcases ecbPairs_cases hij with ⟨rfl, rfl⟩ | ⟨rfl, rfl⟩ <;> decide

theorem work_ecb (s : State) : work i s = ecbFrame ascending (cipherBody i) s := by
  rcases ecbPairs_cases hij with ⟨rfl, -⟩ | ⟨rfl, -⟩ <;> rfl

theorem cipherBody_ecb (k : Nat) (s : State) : cipherBody i k s =
    { s with mb := storeBlock s.mb (16 * k) (blockCipher j s.rk (loadBlock s.mb (16 * k))) } := by
  rcases ecbPairs_cases hij with ⟨rfl, rfl⟩ | ⟨rfl, rfl⟩
  · exact encryptView_blockView k s
  · exact decryptView_blockView k s

theorem work_ecb_of_one_block {s : State} (hlen : s.msglen = 16) (hblk : s.blk = 0) (hbi : s.seq.bi = none) :
    work i s = work j s := by
  have hseq : { s.seq with bi := none } = s.seq := by rw [← hbi]
  have hbase : 16 * s.blk.toNat = 16 * 0 := by rw [hblk]; rfl
  rw [work_ecb hij, ecbFrame_of_one_block hlen, work_block (mem_of_ecbPairs hij).2, hbase]
  simp only [blockLoop, atBlock, List.foldl_cons, List.foldl_nil, cipherBody_ecb hij, expandKey, hseq]

theorem exec_ecb_of_one_block {s : State} (hklen : s.klen = 16) (hlen : s.msglen = 16) (hblk : s.blk = 0)
    (hcfg : s.cfg.legal = true) (hbi : s.seq.bi = none) : ∃ t, exec j s = .next t ∧ exec i s = .next t := by
  obtain ⟨hi, hj⟩ := mem_of_ecbPairs hij
  have hlegal := legal_bounds hcfg
  have hlenNat : s.msglen.toNat = 16 := by rw [hlen]; rfl
  have hblkNat : s.blk.toNat = 0 := by rw [hblk]; rfl
  have hpass : errmask (encode i) s = 0 := errmask_ecb_eq_zero hi hklen (by omega)
  refine ⟨_, exec_pass (errmask_block_eq_zero hj hklen (by omega)), ?_⟩
  rw [exec_pass hpass, work_ecb_of_one_block hij hlen hblk hbi]

end

/-- Settles O48: the block loop of an ECB command over the one block 0 is the work of its block command. -/
theorem singleBlockEcbIsTheBlockTransform : Obligations.SingleBlockEcbIsTheBlockTransform := by
  intro s hklen hlen hblk hm hbi
  obtain ⟨t, hencb, hencEcb⟩ :=
    exec_ecb_of_one_block (i := .encEcb) (j := .encb) (by decide) hklen hlen hblk hm.cfgLegal hbi
  obtain ⟨u, hdecb, hdecEcb⟩ :=
    exec_ecb_of_one_block (i := .decEcb) (j := .decb) (by decide) hklen hlen hblk hm.cfgLegal hbi
  exact ⟨⟨hencEcb.trans hencb.symm, hdecEcb.trans hdecb.symm⟩, ⟨t, hencb, hencEcb⟩, u, hdecb, hdecEcb⟩

end Sys2Proof.Machine
end

section
/-! The block loop of a cipher command in closed form (45_modes.md R140, R143 to R151): what each block, IV and CLONE hold
after it, from the padded message at acceptance. One structure, `CipherOutcome`, says it for all eight commands. -/

namespace Sys2Proof.Machine

/-! ## The feedback register -/

/-- IV before block `k`: the running register of the loop, from the padded message and IV at acceptance. -/
def feedback (i : Instr) (s : State) : Nat → Block
  | 0 => s.iv
  | k + 1 => ivOut i (expand s.key) (feedback i s k) (paddedBlock s k)

/-- ECB and CBC leave IV alone. -/
theorem feedback_of_not_feeding {i : Instr} (hi : i ∉ [Instr.encOfb, .encCfb, .decOfb, .decCfb]) (s : State) (k : Nat) :
    feedback i s k = s.iv := by
  induction k with
  | zero => rfl
  | succ k ih =>
    rw [feedback, ih]
    cases i with
    | encOfb | encCfb | decOfb | decCfb => exact absurd (by decide) hi
    | _ => rfl

theorem feedback_encOfb (s : State) (k : Nat) : feedback .encOfb s k = (cipherE s)^[k] s.iv := by
  induction k with
  | zero => rfl
  | succ k ih =>
    rw [Function.iterate_succ_apply', ← ih]
    rfl

/-- DEC.CFB feeds back the block it consumed. -/
theorem feedback_decCfb (s : State) (k : Nat) :
    feedback .decCfb s k = if k = 0 then s.iv else paddedBlock s (k - 1) := by
  cases k <;> rfl

/-- Block 0 has no block before it. -/
theorem blockOut_zero (i : Instr) (rk : RoundKeys) (iv own prev prev' : Block) :
    blockOut i 0 rk iv own prev = blockOut i 0 rk iv own prev' := by
  cases i <;> rfl

/-! ## The ascending loop -/

theorem cipherOrder_ascending {i : Instr} (hi : i ≠ .decCbc) : cipherOrder i = ascending := by
  cases i with
  | decCbc => exact absurd rfl hi
  | _ => rfl

/-- `t` is the state of an ascending block loop over the padded message of `s` when `n` blocks are done. -/
structure LoopAt (i : Instr) (s : State) (n : Nat) (t : State) : Prop where
  mbWf : Memory.wf t.mb = true
  rk : t.rk = expand s.key
  iv : t.iv = feedback i s n
  written : ∀ j < n, loadBlock t.mb (16 * j) =
    blockOut i j (expand s.key) (feedback i s j) (paddedBlock s j) (loadBlock t.mb (16 * (j - 1)))
  ahead : ∀ j < blockCount s, n ≤ j → loadBlock t.mb (16 * j) = paddedBlock s j

theorem loopAt_zero (i : Instr) {s : State} (hm : Memory.wf s.mb = true) : LoopAt i s 0 (expandKey (padMessage s)) where
  mbWf := by rw [expandKey_mb]; exact padMessage_wf hm
  rk := by rw [expandKey_rk, padMessage_key]
  iv := by rw [expandKey_iv, padMessage_iv, feedback]
  written := fun j hj => absurd hj (Nat.not_lt_zero j)
  ahead := fun j hj _ => by rw [expandKey_mb, loadBlock_padMessage hm hj]

/-- The body at block `n` finds the block as padded and takes the loop one block further. -/
theorem LoopAt.body {i : Instr} (hi : i ∈ cipherCommands) {s t : State} {n : Nat} (h : LoopAt i s n t)
    (hn : n < blockCount s) : LoopAt i s (n + 1) (atBlock (cipherBody i) t n) := by
  have hm := h.mbWf
  have hown := h.ahead n hn le_rfl
  rw [atBlock, cipherBody_eq hi (by exact hm)]
  constructor <;> dsimp only
  case mbWf => exact storeBlock_wf hm _ _
  case rk => exact h.rk
  case iv => rw [h.rk, h.iv, hown, feedback]
  case written =>
    intro j hj
    rw [h.rk, h.iv, hown, loadBlock_storeBlock hm, loadBlock_storeBlock hm]
    rcases Nat.lt_succ_iff_lt_or_eq.mp hj with hlt | rfl
    · rw [if_neg (by omega), if_neg (by omega), h.written j hlt]
    · rw [if_pos rfl]
      rcases Nat.eq_zero_or_pos j with rfl | hpos
      · exact blockOut_zero ..
      · rw [if_neg (by omega)]
  case ahead =>
    intro j hj hnj
    rw [loadBlock_storeBlock hm, if_neg (by omega), h.ahead j hj (by omega)]

theorem loopAt_ascending {i : Instr} (hi : i ∈ cipherCommands) {s : State} (hm : Memory.wf s.mb = true) {n : Nat}
    (hn : n ≤ blockCount s) :
    LoopAt i s n ((ascending n).foldl (atBlock (cipherBody i)) (expandKey (padMessage s))) := by
  induction n with
  | zero => exact loopAt_zero i hm
  | succ n ih =>
    rw [ascending_succ]
    exact (ih (by omega)).body hi hn

/-! ## The descending loop of DEC.CBC -/

/-- The descending loop finds block `j` and the block before it as they were before the loop (45_modes.md R146, R151). -/
theorem loadBlock_descending (n : Nat) {t : State} (hm : Memory.wf t.mb = true) (j : Nat) :
    loadBlock ((descending n).foldl (atBlock (cipherBody .decCbc)) t).mb (16 * j) =
      if j < n then
        blockOut .decCbc j t.rk t.iv (loadBlock t.mb (16 * j)) (loadBlock t.mb (16 * (j - 1)))
      else loadBlock t.mb (16 * j) := by
  induction n generalizing t with
  | zero => rw [if_neg (Nat.not_lt_zero j), descending, List.range_zero, List.reverse_nil, List.foldl_nil]
  | succ n ih =>
    rw [descending_succ, atBlock, cipherBody_eq (by decide) (by exact hm), ih] <;> dsimp only
    · rw [loadBlock_storeBlock hm, loadBlock_storeBlock hm]
      rcases Nat.lt_trichotomy j n with hlt | rfl | hgt
      · rw [if_pos hlt, if_neg (by omega), if_neg (by omega), if_pos (by omega)]
        rfl
      · rw [if_neg (by omega), if_pos rfl, if_pos (by omega)]
      · rw [if_neg (by omega), if_neg (by omega), if_neg (by omega)]
    · exact storeBlock_wf hm _ _

/-! ## What a cipher command leaves -/

/-- The block before block `j` as the loop of command `i` finds it: the descending order of DEC.CBC has not written it
yet, an ascending order has (45_modes.md R151). -/
def blockBefore (i : Instr) (s t : State) (j : Nat) : Block :=
  if i = .decCbc then paddedBlock s (j - 1) else mbBlock t (j - 1)

/-- `t` is what cipher command `i` leaves of `s` once it has passed its checks. -/
structure CipherOutcome (i : Instr) (s t : State) : Prop where
  frame : CipherDone s t
  mbWf : Memory.wf t.mb = true
  iv : t.iv = feedback i s (blockCount s)
  ivlen : t.ivlen = if i ∈ [.encEcb, .decEcb] then s.ivlen else 0
  clone : t.clone = if i ≠ .decCfb ∨ blockCount s = 0 then s.clone else paddedBlock s (blockCount s - 1)
  block : ∀ j < blockCount s, mbBlock t j =
    blockOut i j (expand s.key) (feedback i s j) (paddedBlock s j) (blockBefore i s t j)

theorem work_iv_eq_feedback {i : Instr} (hi : i ∈ cipherCommands) {s : State} (hm : Memory.wf s.mb = true) :
    (work i s).iv = feedback i s (blockCount s) := by
  by_cases hcbc : i = .decCbc
  · subst hcbc
    rw [work_iv (by decide), feedback_of_not_feeding (by decide)]
  · rw [work_cipher hi, cipherOrder_ascending hcbc]
    exact (loopAt_ascending hi hm le_rfl).iv

theorem work_ivlen_cipher {i : Instr} (hi : i ∈ cipherCommands) (s : State) :
    (work i s).ivlen = if i ∈ [.encEcb, .decEcb] then s.ivlen else 0 := by
  cases i with
  | encEcb | decEcb => exact work_ivlen (by decide) s
  | encCbc | encOfb | encCfb | decCbc | decOfb | decCfb => exact work_ivlen_chain (by decide) s
  | kexp | encb | decb | gfmul | xtime | sbox | isbox | clone => simp [cipherCommands] at hi

/-- CLONE ends as the last block DEC.CFB consumed; no other command uses it. -/
theorem work_clone_cipher {i : Instr} (hi : i ∈ cipherCommands) {s : State} (hm : Memory.wf s.mb = true) :
    (work i s).clone = if i ≠ .decCfb ∨ blockCount s = 0 then s.clone else paddedBlock s (blockCount s - 1) := by
  by_cases hcfb : i = .decCfb
  · subst hcfb
    cases hn : blockCount s with
    | zero =>
      rw [if_pos (.inr rfl)]
      show ((ascending (blockCount s)).foldl (atBlock decCfbBlock) (expandKey (padMessage s))).clone = _
      rw [hn, ascending, List.range_zero, List.foldl_nil, expandKey_clone, padMessage_clone]
    | succ n =>
      have hlast := (loopAt_ascending hi hm (n := n) (by omega)).ahead n (by omega) le_rfl
      rw [work_decCfb_clone hn, hlast, if_neg (by simp)]
      rfl
  · have hne : i ∉ [Instr.decCfb, .clone] := by
      intro h
      simp only [List.mem_cons, List.not_mem_nil, or_false] at h
      rcases h with rfl | rfl
      · exact hcfb rfl
      · simp [cipherCommands] at hi
    rw [work_clone_kept hne, if_pos (.inl hcfb)]

theorem mbBlock_work_cipher {i : Instr} (hi : i ∈ cipherCommands) {s : State} (hm : Memory.wf s.mb = true) {j : Nat}
    (hj : j < blockCount s) : mbBlock (work i s) j =
      blockOut i j (expand s.key) (feedback i s j) (paddedBlock s j) (blockBefore i s (work i s) j) := by
  have hstart := loopAt_zero i hm
  by_cases hcbc : i = .decCbc
  · subst hcbc
    have hbefore := hstart.ahead (j - 1) (by omega) (Nat.zero_le _)
    rw [mbBlock_eq, work_cipher hi, blockBefore, if_pos rfl, feedback_of_not_feeding (by decide)]
    refine (loadBlock_descending (blockCount s) hstart.mbWf j).trans ?_
    rw [if_pos hj, hstart.rk, hstart.iv, hstart.ahead j hj (Nat.zero_le _), hbefore, feedback]
  · rw [blockBefore, if_neg hcbc, mbBlock_eq, mbBlock_eq, work_cipher hi, cipherOrder_ascending hcbc]
    exact (loopAt_ascending hi hm le_rfl).written j hj

/-- A message inside a legal MB has a rounded length that fits MSGLEN (45_modes.md R140). -/
theorem toNat_msglen_work_cipher {i : Instr} (hi : i ∈ cipherCommands) {s : State} (hok : MemoryOk s)
    (hlen : s.msglen.toNat ≤ s.cfg.mbBytes) : (work i s).msglen.toNat = 16 * blockCount s := by
  have hlegal := legal_bounds hok.cfgLegal
  have hin := blocks_inside hok.cfgLegal hlen
  rw [work_msglen_cipher hi, BitVec.toNat_ofNat, Nat.mod_eq_of_lt (by omega)]

theorem cipherDone_work {i : Instr} (hi : i ∈ cipherCommands) {s : State} (hok : MemoryOk s)
    (hlen : s.msglen.toNat ≤ s.cfg.mbBytes) : CipherDone s (completeCommand (work i s)) := by
  refine ⟨?_, toNat_msglen_work_cipher hi hok hlen, fun a ha => mbByte_work_cipher hi hok.mbWf ha⟩
  rw [work_cipher_eq hi]
  rfl

theorem cipherOutcome_work {i : Instr} (hi : i ∈ cipherCommands) {s : State} (hok : MemoryOk s)
    (hlen : s.msglen.toNat ≤ s.cfg.mbBytes) : CipherOutcome i s (completeCommand (work i s)) where
  frame := cipherDone_work hi hok hlen
  mbWf := by
    rw [completeCommand_mb, work_cipher hi]
    exact (ecbFrame_frame (storesItsBlock_cipherBody hi) (cipherOrder_lt i (blockCount s)) hok.mbWf).1
  iv := work_iv_eq_feedback hi hok.mbWf
  ivlen := work_ivlen_cipher hi s
  clone := work_clone_cipher hi hok.mbWf
  block := fun _ hj => mbBlock_work_cipher hi hok.mbWf hj

end Sys2Proof.Machine
end

section
/-! The eight cipher commands (45_modes.md R143 to R152): each is `exec_cipher`, checks and outcome, read in its own mode. -/

namespace Sys2Proof.Machine

/-! ## Checks and outcome of a cipher command -/

theorem msglen_le_of_cipher_passes {i : Instr} (hi : i ∈ cipherCommands) {s : State}
    (hpass : errmask (encode i) s = 0) : s.msglen.toNat ≤ s.cfg.mbBytes := by
  cases i with
  | encEcb | decEcb => exact msglen_le_of_ecb_passes (by decide) hpass
  | encCbc | decCbc | encOfb | decOfb | encCfb | decCfb => exact msglen_le_of_chain_passes (by decide) hpass
  | kexp | encb | decb | gfmul | xtime | sbox | isbox | clone => simp [cipherCommands] at hi

theorem exec_cipher_pass {i : Instr} (hi : i ∈ cipherCommands) {s : State} (hpass : errmask (encode i) s = 0)
    (hok : MemoryOk s) : ∃ t : State, exec i s = .next t ∧ CipherOutcome i s t :=
  ⟨_, exec_pass hpass, cipherOutcome_work hi hok (msglen_le_of_cipher_passes hi hpass)⟩

theorem cipherOutcome_of_exec {i : Instr} (hi : i ∈ cipherCommands) {s t : State} (hpass : errmask (encode i) s = 0)
    (hok : MemoryOk s) (h : exec i s = .next t) : CipherOutcome i s t := by
  obtain ⟨u, hu, hout⟩ := exec_cipher_pass hi hpass hok
  cases hu.symm.trans h
  exact hout

/-- A cipher command fails with the mask of its checks, or completes with its outcome; `Q` is the outcome as the
statement about one mode puts it. -/
theorem exec_cipher {i : Instr} (hi : i ∈ cipherCommands) {s : State} {m : BitVec 5} (hm : m = errmask (encode i) s)
    {Q : State → Prop} (hQ : ∀ t, CipherOutcome i s t → Q t) :
    (m ≠ 0 → exec i s = .next (failedWith m s)) ∧
    (m = 0 → MemoryOk s → ∃ t : State, exec i s = .next t ∧ Q t) := by
  subst hm
  refine ⟨exec_fail, fun hpass hok => ?_⟩
  obtain ⟨t, ht, hout⟩ := exec_cipher_pass hi hpass hok
  exact ⟨t, ht, hQ t hout⟩

theorem errmask_cipher_eq_zero {i : Instr} (hi : i ∈ cipherCommands) {s : State} (hklen : s.klen = 16)
    (hivlen : i ∉ [Instr.encEcb, .decEcb] → s.ivlen = 16) (hlen : s.msglen.toNat ≤ s.cfg.mbBytes) :
    errmask (encode i) s = 0 := by
  cases i with
  | encEcb | decEcb => exact errmask_ecb_eq_zero (by decide) hklen hlen
  | encCbc | decCbc | encOfb | decOfb | encCfb | decCfb =>
    rw [errmask_chain (by decide), bitIf, bitIf, bitIf, if_neg (not_not_intro hklen),
      if_neg (not_not_intro (hivlen (by decide))), if_neg (Nat.not_lt.mpr hlen)]
    rfl
  | kexp | encb | decb | gfmul | xtime | sbox | isbox | clone => simp [cipherCommands] at hi

/-! ## ECB -/

/-- Settles O36: an ECB body reads its own block alone. -/
theorem encEcbEnciphersEachBlock : Obligations.EncEcbEnciphersEachBlock :=
  ⟨rfl, fun s _ hm => exec_cipher (by decide) (hm.trans (errmask_ecb (by decide) s).symm) fun _ h =>
    ⟨h.frame, h.iv.trans (feedback_of_not_feeding (by decide) s _), h.ivlen, h.clone, h.block⟩⟩

/-- Settles O37: as ENC.ECB, with the inverse transform. -/
theorem decEcbDeciphersEachBlock : Obligations.DecEcbDeciphersEachBlock :=
  ⟨rfl, fun s _ hm => exec_cipher (by decide) (hm.trans (errmask_ecb (by decide) s).symm) fun _ h =>
    ⟨h.frame, h.iv.trans (feedback_of_not_feeding (by decide) s _), h.ivlen, h.clone, h.block⟩⟩

/-! ## The chaining modes -/

/-- The cipher commands that use and consume the IV. -/
def chainingCommands : List Instr := [.encCbc, .decCbc, .encOfb, .decOfb, .encCfb, .decCfb]

theorem chainingCommands_subset : chainingCommands ⊆ cipherCommands := by decide

theorem not_ecb_of_chaining : ∀ i ∈ chainingCommands, i ∉ [Instr.encEcb, .decEcb] := by decide

/-- `exec_cipher` of a chaining command, with its three checks. -/
theorem exec_chain {i : Instr} (hi : i ∈ chainingCommands) {s : State} {m : BitVec 5}
    (hm : m = bitIf (s.klen ≠ 16) 0x01 ||| bitIf (s.ivlen ≠ 16) 0x02 |||
      bitIf (s.cfg.mbBytes < s.msglen.toNat) 0x10) {Q : State → Prop} (hQ : ∀ t, CipherOutcome i s t → Q t) :
    (m ≠ 0 → exec i s = .next (failedWith m s)) ∧
    (m = 0 → MemoryOk s → ∃ t : State, exec i s = .next t ∧ Q t) :=
  exec_cipher (chainingCommands_subset hi) (hm.trans (errmask_chain hi s).symm) hQ

/-- A ciphertext block of CBC, from the ciphertext block before it (45_modes.md R145). -/
theorem CipherOutcome.mbBlock_encCbc {s t : State} (h : CipherOutcome .encCbc s t) {j : Nat} (hj : j < blockCount s) :
    mbBlock t j = cipherE s (xorBlock (paddedBlock s j) (if j = 0 then s.iv else mbBlock t (j - 1))) := by
  rw [h.block j hj, feedback_of_not_feeding (by decide)]
  rfl

/-- Settles O38: the block before is the ciphertext already written, and IV is not fed back. -/
theorem encCbcChainsOnTheCiphertext : Obligations.EncCbcChainsOnTheCiphertext :=
  ⟨rfl, fun s _ hm => exec_chain (by decide) hm fun _ h =>
    ⟨h.frame, h.iv.trans (feedback_of_not_feeding (by decide) s _), h.ivlen, h.clone, fun _ => h.mbBlock_encCbc⟩⟩

/-- Settles O39: the descending order leaves the block before as it was at acceptance. -/
theorem decCbcUsesTheOriginalCiphertext : Obligations.DecCbcUsesTheOriginalCiphertext := by
  refine ⟨rfl, fun s _ hm => exec_chain (by decide) hm fun t h =>
    ⟨h.frame, h.iv.trans (feedback_of_not_feeding (by decide) s _), h.ivlen, h.clone, fun j hj => ?_⟩⟩
  rw [h.block j hj, feedback_of_not_feeding (by decide)]
  rfl

/-- Settles O40: block `i` is XORed with the feedback register one step on. -/
theorem encOfbXorsTheKeystream : Obligations.EncOfbXorsTheKeystream := by
  refine ⟨rfl, fun s _ hm => exec_chain (by decide) hm fun t h =>
    ⟨h.frame, h.iv.trans (feedback_encOfb s _), h.ivlen, h.clone, fun j hj => ?_⟩⟩
  rw [← feedback_encOfb]
  exact h.block j hj

/-- The register before a block of ENC.CFB holds the ciphertext block before it (45_modes.md R149). -/
theorem CipherOutcome.feedback_encCfb {s t : State} (h : CipherOutcome .encCfb s t) {k : Nat} (hk : k ≤ blockCount s) :
    feedback .encCfb s k = if k = 0 then s.iv else mbBlock t (k - 1) := by
  cases k with
  | zero => rfl
  | succ k => exact (h.block k hk).symm

/-- Settles O42: the feedback register follows the ciphertext written. -/
theorem encCfbFeedsBackTheOutput : Obligations.EncCfbFeedsBackTheOutput := by
  refine ⟨rfl, fun s _ hm => exec_chain (by decide) hm fun t h =>
    ⟨h.frame, h.iv.trans (h.feedback_encCfb le_rfl), h.ivlen, h.clone, fun j hj => ?_⟩⟩
  rw [← h.feedback_encCfb hj.le]
  exact h.block j hj

/-- Settles O43: the feedback register follows the ciphertext read, which CLONE keeps past the in-place XOR. -/
theorem decCfbFeedsBackTheInput : Obligations.DecCfbFeedsBackTheInput := by
  refine ⟨rfl, fun s _ hm => exec_chain (by decide) hm fun t h =>
    ⟨h.frame, h.iv.trans (feedback_decCfb s _), h.ivlen, ?_, fun j hj => ?_⟩⟩
  · simpa using h.clone
  · rw [← feedback_decCfb]
    exact h.block j hj

/-! ## DEC.OFB is ENC.OFB -/

theorem exec_decOfb_eq_exec_encOfb (s : State) : exec .decOfb s = exec .encOfb s := by
  have hmask : errmask (encode .decOfb) s = errmask (encode .encOfb) s := by
    rw [errmask_chain (by decide), errmask_chain (by decide)]
  rw [exec_eq, exec_eq, runCommand, runCommand, hmask]
  rfl

/-- An OFB loop does not look at CMD. -/
theorem ofbLoop_withCmd (v : Byte) (order : List Nat) (s : State) :
    order.foldl (atBlock ofbBlock) { s with cmd := v } = { order.foldl (atBlock ofbBlock) s with cmd := v } := by
  induction order generalizing s with
  | nil => rfl
  | cons k order ih =>
    rw [List.foldl_cons, List.foldl_cons, ← ih, atBlock, atBlock, ofbBlock_eq, ofbBlock_eq]

/-- ENC.OFB does not look at CMD. -/
theorem exec_encOfb_withCmd (v : Byte) {s t : State} (h : exec .encOfb s = .next t) :
    exec .encOfb { s with cmd := v } = .next { t with cmd := v } := by
  have hmask : errmask (encode .encOfb) { s with cmd := v } = errmask (encode .encOfb) s :=
    errmask_congr rfl rfl rfl rfl rfl _
  by_cases hpass : errmask (encode .encOfb) s = 0
  · cases (exec_pass hpass).symm.trans h
    have hloop := ofbLoop_withCmd v (ascending (blockCount s)) (expandKey (padMessage s))
    have hwork : work .encOfb { s with cmd := v } = { work .encOfb s with cmd := v } :=
      congrArg (fun u : State => { u with seq := { u.seq with bi := none }, ivlen := 0 }) hloop
    rw [exec_pass (hmask.trans hpass), hwork]
    rfl
  · cases (exec_fail hpass).symm.trans h
    rw [exec_fail (hmask ▸ hpass), hmask]
    rfl

/-- Settles O41: the masks and the work of the two commands agree, and neither looks at CMD. -/
theorem decOfbIsEncOfb : Obligations.DecOfbIsEncOfb := by
  refine ⟨rfl, exec_decOfb_eq_exec_encOfb, fun s => ?_, fun s hklen hivlen hlen hok => ?_⟩
  · obtain ⟨t, ht, -⟩ := exec_next .encOfb (accept (encode .encOfb) { s with port := { s.port with rst := false } })
    have hstep := fetchWordStepIsExec s 8
    refine ⟨t, { t with cmd := 0x22 }, (hstep 0x12 .encOfb rfl).trans ht, (hstep 0x22 .decOfb rfl).trans ?_, rfl⟩
    rw [exec_decOfb_eq_exec_encOfb]
    exact exec_encOfb_withCmd 0x22 ht
  · rw [exec_decOfb_eq_exec_encOfb]
    have hmask := errmask_cipher_eq_zero (i := .encOfb) (by decide) hklen (fun _ => hivlen) hlen
    exact (encOfbXorsTheKeystream.2 s 0 (hmask.symm.trans (errmask_chain (by decide) s))).2 rfl hok

/-! ## The empty message -/

/-- With no block to pad or to loop over, a cipher command expands the key and consumes the IV (45_modes.md R152). -/
theorem exec_cipher_of_empty {i : Instr} (hi : i ∈ cipherCommands) {s : State} (hlen : s.msglen = 0)
    (hpass : errmask (encode i) s = 0) : exec i s = .next { s with
      rk := expand s.key, ivlen := if i ∈ [.encEcb, .decEcb] then s.ivlen else 0
      done := true, seq := { pending := false, bi := none } } := by
  have hcount : blockCount s = 0 := by rw [blockCount, hlen]; rfl
  have hpad : padMessage s = s := padMessage_eq_self (by rw [hcount, hlen]; rfl)
  have horder : cipherOrder i 0 = [] := List.eq_nil_iff_forall_not_mem.mpr fun j hj =>
    Nat.not_lt_zero j (cipherOrder_lt i 0 j hj)
  rw [exec_pass hpass, work_cipher hi, work_ivlen_cipher hi, ecbFrame, hcount, hpad, horder, blockLoop, List.foldl_nil,
    expandKey]
  rfl

/-- Settles O44: the empty message passes the length check in any MB. -/
theorem emptyMessage : Obligations.EmptyMessage := by
  intro s hlen hklen
  have hin : s.msglen.toNat ≤ s.cfg.mbBytes := by rw [hlen]; exact Nat.zero_le _
  have hecb : [Instr.encEcb, .decEcb] ⊆ cipherCommands := by decide
  refine ⟨fun i hi => ?_, fun hivlen i hi => ?_⟩
  · rw [exec_cipher_of_empty (hecb hi) hlen (errmask_ecb_eq_zero hi hklen hin), if_pos hi]
  · have hsub := chainingCommands_subset hi
    have hpass := errmask_cipher_eq_zero hsub hklen (fun _ => hivlen) hin
    rw [exec_cipher_of_empty hsub hlen hpass, if_neg (not_ecb_of_chaining i hi)]

end Sys2Proof.Machine
end

section
/-! Properties of the modes (45_modes.md R153): the round trip, the diffusion of CBC, the OFB keystream. -/

namespace Sys2Proof.Machine

/-! ## Bytes and blocks of the message -/

theorem mbByte_eq_byteAt (s : State) (a : Nat) : mbByte s a = byteAt (mbBlock s (a / 16)) (a % 16) :=
  read_eq_loadBlock s.mb a

theorem byteAt_paddedBlock (s : State) (a : Nat) :
    byteAt (paddedBlock s (a / 16)) (a % 16) = if a < s.msglen.toNat then mbByte s a else 0x00 := by
  rw [paddedBlock, byteAt_ofFn _ (by omega)]
  dsimp only
  rw [Nat.div_add_mod]

/-- XOR with one block is injective. -/
theorem xorBlock_right_inj {x x' y : Block} : xorBlock x y = xorBlock x' y ↔ x = x' :=
  ⟨fun h => by rw [← xorBlock_cancel x y, h, xorBlock_cancel], fun h => h ▸ rfl⟩

theorem xorBlock_left_inj {x y y' : Block} : xorBlock x y = xorBlock x y' ↔ y = y' := by
  rw [xorBlock_comm x, xorBlock_comm x, xorBlock_right_inj]

theorem encryptBlock_inj {rk : RoundKeys} {x y : Block} : encryptBlock rk x = encryptBlock rk y ↔ x = y :=
  (Function.LeftInverse.injective (decryptBlock_encryptBlock rk)).eq_iff

/-! ## The round trip -/

/-- The commands of each mode. -/
def modePairs : List (Instr × Instr) := [(.encEcb, .decEcb), (.encCbc, .decCbc), (.encOfb, .decOfb), (.encCfb, .decCfb)]

section
variable {enc dec : Instr} (hmode : (enc, dec) ∈ modePairs)
include hmode

theorem modePairs_cases : (enc = .encEcb ∧ dec = .decEcb) ∨ (enc = .encCbc ∧ dec = .decCbc) ∨
    (enc = .encOfb ∧ dec = .decOfb) ∨ (enc = .encCfb ∧ dec = .decCfb) := by
  simpa [modePairs] using hmode

theorem cipherCommands_of_modePairs : enc ∈ cipherCommands ∧ dec ∈ cipherCommands := by
  rcases modePairs_cases hmode with ⟨rfl, rfl⟩ | ⟨rfl, rfl⟩ | ⟨rfl, rfl⟩ | ⟨rfl, rfl⟩ <;> decide

theorem ecb_iff_of_modePairs : (enc ∈ [Instr.encEcb, .decEcb] ↔ enc = .encEcb) ∧
    (dec ∈ [Instr.encEcb, .decEcb] ↔ enc = .encEcb) := by
  rcases modePairs_cases hmode with ⟨rfl, rfl⟩ | ⟨rfl, rfl⟩ | ⟨rfl, rfl⟩ | ⟨rfl, rfl⟩ <;> decide

/-- Decryption feeds back from the ciphertext what encryption feeds back from the plaintext. -/
theorem ivOut_blockOut (k : Nat) (rk : RoundKeys) (iv own prev : Block) :
    ivOut dec rk iv (blockOut enc k rk iv own prev) = ivOut enc rk iv own := by
  rcases modePairs_cases hmode with ⟨rfl, rfl⟩ | ⟨rfl, rfl⟩ | ⟨rfl, rfl⟩ | ⟨rfl, rfl⟩ <;> rfl

/-- With the same register and, in CBC, the same block before it, decryption undoes encryption on a block. -/
theorem blockOut_blockOut (k : Nat) (rk : RoundKeys) (iv own : Block) {prev prev' : Block}
    (hprev : enc = .encCbc → prev' = prev) :
    blockOut dec k rk iv (blockOut enc k rk iv own prev) prev' = own := by
  rcases modePairs_cases hmode with ⟨rfl, rfl⟩ | ⟨rfl, rfl⟩ | ⟨rfl, rfl⟩ | ⟨rfl, rfl⟩
  · exact decryptBlock_encryptBlock rk own
  · rw [hprev rfl, blockOut, blockOut, decryptBlock_encryptBlock, xorBlock_cancel]
  · exact xorBlock_cancel own _
  · exact xorBlock_cancel own _

end

/-- IV and IVLEN of `s` loaded again into `t`. -/
def reloadIv (s t : State) : State := { t with iv := s.iv, ivlen := s.ivlen }

section
variable {enc : Instr} {s t : State} (h : CipherOutcome enc s t)
include h

theorem CipherOutcome.key_eq : t.key = s.key := (congrArg State.key h.frame.1 :)

theorem CipherOutcome.klen_eq : t.klen = s.klen := (congrArg State.klen h.frame.1 :)

theorem CipherOutcome.cfg_eq : t.cfg = s.cfg := (congrArg State.cfg h.frame.1 :)

theorem CipherOutcome.msglen_eq : t.msglen.toNat = 16 * blockCount s := by
  obtain ⟨-, hlen, -⟩ := h.frame
  exact hlen

theorem CipherOutcome.mbByte_beyond {a : Nat} (ha : 16 * blockCount s ≤ a) : mbByte t a = mbByte s a := by
  obtain ⟨-, -, hbeyond⟩ := h.frame
  exact hbeyond a ha

/-- A rounded length has the blocks it was rounded to. -/
theorem CipherOutcome.blockCount_reloadIv : blockCount (reloadIv s t) = blockCount s := by
  have hlen : (reloadIv s t).msglen.toNat = 16 * blockCount s := h.msglen_eq
  rw [blockCount, hlen]
  omega

/-- A message of whole blocks needs no padding. -/
theorem CipherOutcome.paddedBlock_reloadIv {j : Nat} (hj : j < blockCount s) :
    paddedBlock (reloadIv s t) j = mbBlock t j := by
  refine block_ext fun k hk => ?_
  have hlen : (reloadIv s t).msglen.toNat = 16 * blockCount s := h.msglen_eq
  have hin : 16 * j + k < 16 * blockCount s := by omega
  rw [paddedBlock, mbBlock, byteAt_ofFn _ hk, byteAt_ofFn _ hk, hlen]
  exact if_pos hin

theorem CipherOutcome.memoryOk_reloadIv (hok : MemoryOk s) : MemoryOk (reloadIv s t) :=
  ⟨h.cfg_eq ▸ hok.cfgLegal, h.mbWf⟩

variable {dec : Instr} (hmode : (enc, dec) ∈ modePairs)
include hmode

/-- Both directions go through the same registers. -/
theorem CipherOutcome.feedback_reloadIv {k : Nat} (hk : k ≤ blockCount s) :
    feedback dec (reloadIv s t) k = feedback enc s k := by
  induction k with
  | zero => rfl
  | succ k ih =>
    have hkey : (reloadIv s t).key = s.key := h.key_eq
    rw [feedback, feedback, hkey, ih (by omega), h.paddedBlock_reloadIv hk, h.block k hk, ivOut_blockOut hmode]

/-- Decryption of what encryption left gives every padded block back. -/
theorem CipherOutcome.mbBlock_roundTrip {u : State} (h' : CipherOutcome dec (reloadIv s t) u) {j : Nat}
    (hj : j < blockCount s) : mbBlock u j = paddedBlock s j := by
  have hkey : (reloadIv s t).key = s.key := h.key_eq
  rw [h'.block j (h.blockCount_reloadIv ▸ hj), hkey, h.feedback_reloadIv hmode hj.le, h.paddedBlock_reloadIv hj,
    h.block j hj]
  refine blockOut_blockOut hmode j _ _ _ fun hcbc => ?_
  subst hcbc
  obtain rfl : dec = .decCbc := by simpa [modePairs] using hmode
  exact h.paddedBlock_reloadIv (j := j - 1) (by omega)

/-- Every byte of MB after the round trip: the message, zeroes up to a whole block, and all else as it was. -/
theorem CipherOutcome.mbByte_roundTrip {u : State} (h' : CipherOutcome dec (reloadIv s t) u) (a : Nat) :
    mbByte u a = if s.msglen.toNat ≤ a ∧ a < 16 * blockCount s then 0x00 else mbByte s a := by
  have hcount := @blockCount_le s
  by_cases ha : a < 16 * blockCount s
  · rw [mbByte_eq_byteAt, h.mbBlock_roundTrip hmode h' (by omega), byteAt_paddedBlock]
    by_cases hlt : a < s.msglen.toNat
    · rw [if_pos hlt, if_neg (by omega)]
    · rw [if_neg hlt, if_pos (by omega)]
  · have hbeyond : 16 * blockCount s ≤ a := Nat.le_of_not_lt ha
    rw [if_neg (by omega), h'.mbByte_beyond (h.blockCount_reloadIv.symm ▸ hbeyond), ← h.mbByte_beyond hbeyond]
    rfl

end

/-- Settles O45: encryption, the reload and decryption each complete, and decryption undoes encryption block by block. -/
theorem everyModeRoundTrips : Obligations.EveryModeRoundTrips := by
  intro enc dec hmode s hklen hivlen hlen hok
  obtain ⟨henc, hdec⟩ := cipherCommands_of_modePairs hmode
  obtain ⟨hencEcb, hdecEcb⟩ := ecb_iff_of_modePairs hmode
  obtain ⟨t, ht, h⟩ := exec_cipher_pass henc
    (errmask_cipher_eq_zero henc hklen (fun hne => hivlen (hencEcb.not.mp hne)) hlen) hok
  have hfits : (reloadIv s t).msglen.toNat ≤ (reloadIv s t).cfg.mbBytes := by
    have hmsglen : (reloadIv s t).msglen.toNat = 16 * blockCount s := h.msglen_eq
    have hcfg : (reloadIv s t).cfg = s.cfg := h.cfg_eq
    rw [hmsglen, hcfg]
    exact blocks_inside hok.cfgLegal hlen
  obtain ⟨u, hu, h'⟩ := exec_cipher_pass (s := reloadIv s t) hdec
    (errmask_cipher_eq_zero hdec (h.klen_eq.trans hklen) (fun hne => hivlen (hdecEcb.not.mp hne)) hfits)
    (h.memoryOk_reloadIv hok)
  have hmsglen : u.msglen.toNat = 16 * blockCount s := h'.msglen_eq.trans (congrArg _ h.blockCount_reloadIv)
  refine ⟨t, u, ht, hu, hmsglen, h.mbByte_roundTrip hmode h', fun hwhole => ?_⟩
  have hrounded : 16 * blockCount s = s.msglen.toNat := by unfold blockCount; omega
  refine ⟨Memory.ext_of_wf h'.mbWf hok.mbWf fun a => ?_, BitVec.eq_of_toNat_eq (hmsglen.trans hrounded)⟩
  exact (h.mbByte_roundTrip hmode h' a).trans (if_neg (by omega))

/-! ## CBC -/

section
variable {s t t' : State} {m : Memory} (h : CipherOutcome .encCbc s t) (h' : CipherOutcome .encCbc { s with mb := m } t')
include h h'

/-- E is injective: ciphertext blocks are equal exactly when what goes into E is. -/
theorem mbBlock_encCbc_eq_iff {j : Nat} (hj : j < blockCount s) : mbBlock t j = mbBlock t' j ↔
    xorBlock (paddedBlock s j) (if j = 0 then s.iv else mbBlock t (j - 1)) =
      xorBlock (paddedBlock { s with mb := m } j) (if j = 0 then s.iv else mbBlock t' (j - 1)) := by
  rw [h.mbBlock_encCbc hj, h'.mbBlock_encCbc hj]
  exact encryptBlock_inj

/-- Behind equal plaintext blocks, ciphertext blocks are equal exactly when the ones before them are. -/
theorem mbBlock_encCbc_succ_eq_iff {j : Nat} (hj : j + 1 < blockCount s)
    (hplain : paddedBlock s (j + 1) = paddedBlock { s with mb := m } (j + 1)) :
    mbBlock t (j + 1) = mbBlock t' (j + 1) ↔ mbBlock t j = mbBlock t' j := by
  rw [mbBlock_encCbc_eq_iff h h' hj, hplain]
  exact xorBlock_left_inj

/-- CBC agrees as far as the plaintexts do. -/
theorem mbBlock_encCbc_eq {i : Nat} (hi : i ≤ blockCount s)
    (hplain : ∀ j < i, paddedBlock s j = paddedBlock { s with mb := m } j) {j : Nat} (hj : j < i) :
    mbBlock t j = mbBlock t' j := by
  induction j with
  | zero => rw [mbBlock_encCbc_eq_iff h h' (by omega), hplain 0 hj, if_pos rfl, if_pos rfl]
  | succ j ih => exact (mbBlock_encCbc_succ_eq_iff h h' (by omega) (hplain (j + 1) hj)).mpr (ih (by omega))

/-- CBC differs at the first plaintext block that does. -/
theorem mbBlock_encCbc_ne {i : Nat} (hi : i < blockCount s)
    (hplain : ∀ j < i, paddedBlock s j = paddedBlock { s with mb := m } j)
    (hne : paddedBlock s i ≠ paddedBlock { s with mb := m } i) : mbBlock t i ≠ mbBlock t' i := by
  have hbefore : (if i = 0 then s.iv else mbBlock t (i - 1)) = if i = 0 then s.iv else mbBlock t' (i - 1) := by
    split
    · rfl
    · exact mbBlock_encCbc_eq h h' hi.le hplain (by omega)
  rw [Ne, mbBlock_encCbc_eq_iff h h' hi, hbefore, xorBlock_right_inj]
  exact hne

end

/-- Settles O46: the ciphertexts agree up to block `i`, differ there, and each later block carries the difference on. -/
theorem cbcDiffusesForwardOnly : Obligations.CbcDiffusesForwardOnly := by
  intro s s' t t' i hklen hivlen hlen hok hwf hs' hi hne hagree ht ht'
  obtain ⟨m, rfl⟩ : ∃ m, s' = { s with mb := m } := ⟨_, hs'⟩
  have hpass := errmask_cipher_eq_zero (i := .encCbc) (by decide) hklen (fun _ => hivlen) hlen
  have hpass' : errmask (encode .encCbc) { s with mb := m } = 0 :=
    errmask_cipher_eq_zero (by decide) hklen (fun _ => hivlen) hlen
  have h := cipherOutcome_of_exec (by decide) hpass hok ht
  have h' := cipherOutcome_of_exec (by decide) hpass' ⟨hok.cfgLegal, hwf⟩ ht'
  have hplain (j : Nat) (hj : j < i) : paddedBlock s j = paddedBlock { s with mb := m } j :=
    hagree j hj.ne (hj.trans hi)
  refine fun j hj => ⟨fun hji => mbBlock_encCbc_eq h h' hi.le hplain hji, fun hij => ?_⟩
  induction j, hij using Nat.le_induction with
  | base => exact mbBlock_encCbc_ne h h' hi hplain hne
  | succ j hij ih =>
    exact (mbBlock_encCbc_succ_eq_iff h h' hj (hagree (j + 1) (by omega) hj)).not.mpr (ih (by omega))

/-! ## OFB -/

/-- A byte of the message under ENC.OFB. -/
theorem CipherOutcome.mbByte_encOfb {s t : State} (h : CipherOutcome .encOfb s t) {a : Nat} (ha : a < s.msglen.toNat) :
    mbByte t a = mbByte s a ^^^ byteAt ((cipherE s)^[a / 16 + 1] s.iv) (a % 16) := by
  have hcount := @blockCount_le s
  have hblock : mbBlock t (a / 16) = xorBlock (paddedBlock s (a / 16)) (feedback .encOfb s (a / 16 + 1)) :=
    h.block (a / 16) (by omega)
  rw [mbByte_eq_byteAt, hblock, feedback_encOfb, byteAt_xorBlock _ _ (by omega), byteAt_paddedBlock, if_pos ha]

/-- Settles O47: the keystream is an iterate of E on IV, so it cancels. -/
theorem ofbKeystreamIgnoresTheMessage : Obligations.OfbKeystreamIgnoresTheMessage := by
  intro s s' hklen hivlen hlen hok hok' hklen' hivlen' hkey hiv hmsglen hcfg
  have hcount : blockCount s' = blockCount s := by rw [blockCount, hmsglen, blockCount]
  have hE : cipherE s' = cipherE s := by funext x; rw [cipherE, cipherE, hkey]
  have hlen' : s'.msglen.toNat ≤ s'.cfg.mbBytes := by rw [hmsglen, hcfg]; exact hlen
  obtain ⟨t, ht, h⟩ := exec_cipher_pass (i := .encOfb) (by decide)
    (errmask_cipher_eq_zero (by decide) hklen (fun _ => hivlen) hlen) hok
  obtain ⟨t', ht', h'⟩ := exec_cipher_pass (i := .encOfb) (by decide)
    (errmask_cipher_eq_zero (by decide) (hklen'.trans hklen) (fun _ => hivlen'.trans hivlen) hlen') hok'
  refine ⟨t, t', ht, ht', ?_, fun a ha => ?_⟩
  · rw [h.iv, h'.iv, feedback_encOfb, feedback_encOfb, hE, hcount, hiv]
  · rw [h.mbByte_encOfb ha, h'.mbByte_encOfb (hmsglen ▸ ha), hE, hiv, xor_cancel_common]

end Sys2Proof.Machine
end

section
/-! Errors and the interrupt line (60_exceptions.md): `irq`, what transactions leave of the flags, the bits of the mask,
and the failure path. -/

namespace Sys2Proof.Machine

/-! ## The interrupt line -/

/-- Settles O17: acceptance clears DONE, completion sets it, and the two clearing writes clear a factor of `irq`. -/
theorem interruptLineFollowsDone : Obligations.InterruptLineFollowsDone := by
  intro s
  have hstatus (v : Byte) : irq (busWrite 0x0001 v s) = (irq s && !v.getLsbD 1) := by
    change irq (writeStatus v s) = _
    rw [writeStatus_eq, irq, irq, Bool.and_assoc]
  refine ⟨?_, fun v => Bool.and_false s.ie, fun i t h => ?_, fun v hv => ?_, fun v hv => ?_, fun v hv => ?_⟩
  · rw [irq, Bool.and_eq_true]
  · obtain ⟨u, hu, -, hdone, hie, -⟩ := exec_next i s
    cases hu.symm.trans h
    rw [irq, hdone, Bool.and_true, hie]
  · rw [hstatus, hv, Bool.not_true, Bool.and_false]
  · rw [hstatus, hv, Bool.not_false, Bool.and_true]
  · change (v.getLsbD 0 && s.done) = false
    rw [hv, Bool.false_and]

/-! ## Transactions -/

/-- Outside CMD a write leaves ERR, CMD and BUSY; outside STATUS it leaves DONE too (10_state.md R20 to R22). -/
theorem writeLocation_flags {l : Location} (hcmd : l ≠ .cmd) (v : Byte) (s : State) :
    (writeLocation v s l).err = s.err ∧ (writeLocation v s l).cmd = s.cmd ∧ busy (writeLocation v s l) = busy s ∧
      (l ≠ .status → (writeLocation v s l).done = s.done) := by
  cases l
  case cmd => exact absurd rfl hcmd
  case status =>
    rw [writeLocation, writeStatus_eq]
    exact ⟨rfl, rfl, rfl, fun hstatus => absurd rfl hstatus⟩
  case bvdata =>
    rw [writeLocation, bvWrite_frame]
    exact ⟨rfl, rfl, rfl, fun _ => rfl⟩
  all_goals exact ⟨rfl, rfl, rfl, fun _ => rfl⟩

/-- Settles O18: the written address is not that of CMD (nor of STATUS), hence neither is the location. -/
theorem transactionsNeverRaiseAnError : Obligations.TransactionsNeverRaiseAnError := by
  intro s t
  cases t with
  | read a => exact ⟨fun _ => ⟨rfl, rfl, rfl⟩, fun _ => rfl, fun _ => rfl⟩
  | write a v =>
    have hlocate (hne : ∀ w, Transaction.write a v ≠ .write 0x0000 w) : locate s.cfg a ≠ .cmd :=
      fun hl => hne v (by rw [locate_eq_cmd hl])
    refine ⟨fun hne => ?_, fun hne => ?_, fun _ => rfl⟩
    · obtain ⟨herr, hcmd, hbusy, -⟩ := writeLocation_flags (hlocate hne) v s
      exact ⟨herr, hcmd, hbusy⟩
    · obtain ⟨-, -, -, hdone⟩ := writeLocation_flags (hlocate fun w => (hne w).1) v s
      exact hdone fun hl => (hne v).2 (by rw [locate_eq_status hl])

/-! ## The bits of the error mask -/

/-- A check sets the bits of its mask where its condition holds, and no other. -/
theorem getElem_maskIf (c : Bool) (m : BitVec 5) {k : Nat} (hk : k < 5) : (maskIf c m)[k] = (c && m[k]) := by
  cases c with
  | false => exact BitVec.getElem_zero hk
  | true => rfl

/-- The bits of the mask of ENC and DEC (60_exceptions.md R177). -/
theorem getLsbD_cipherMask (mode : Nat) (s : State) :
    ((cipherMask mode s).getLsbD 0 = true ↔ s.klen ≠ 16) ∧
    ((cipherMask mode s).getLsbD 1 = true ↔ mode < 4 ∧ mode ≠ 0 ∧ s.ivlen ≠ 16) ∧
    ((cipherMask mode s).getLsbD 2 = true ↔ 4 ≤ mode) ∧
    (cipherMask mode s).getLsbD 3 = false ∧
    ((cipherMask mode s).getLsbD 4 = true ↔ s.cfg.mbBytes < s.msglen.toNat) := by
  simp [cipherMask, getElem_maskIf, keyLengthBad_eq, ivLengthBad_eq, messageTooLong, invalidKeyLength, unsupportedMode,
    missingOrInvalidIV, bufferRange, and_assoc]

/-- The bits of the mask of KEXP to CLONE with MODE 0 (60_exceptions.md R177). -/
theorem getLsbD_unitMask (opc : Nat) (s : State) :
    ((unitMask opc s).getLsbD 0 = true ↔ (opc = 3 ∨ opc = 4 ∨ opc = 5) ∧ s.klen ≠ 16) ∧
    (unitMask opc s).getLsbD 1 = false ∧
    (unitMask opc s).getLsbD 2 = false ∧
    (unitMask opc s).getLsbD 3 = false ∧
    ((unitMask opc s).getLsbD 4 = true ↔
      (opc = 4 ∨ opc = 5 ∨ opc = 0xA) ∧ s.cfg.mbBytes < 16 * s.blk.toNat + 16) := by
  simp [unitMask, getElem_maskIf, keyLengthBad_eq, blockOutside, invalidKeyLength, bufferRange, or_assoc]

/-- Settles O49: the mask is that of a cipher command, of a unit command, or of an illegal byte. -/
theorem errorMaskBits : Obligations.ErrorMaskBits := by
  intro v s opc mode hv hmode
  have hopc : opcOf v = opc := by rw [opcOf]; omega
  have hmodeOf : modeOf v = mode := by rw [modeOf]; omega
  by_cases hcipher : opc = 1 ∨ opc = 2
  · have hmask : errmask v s = cipherMask mode s := by rw [errmask, hopc, hmodeOf, if_pos hcipher]
    obtain ⟨hkey, hiv, hunsupported, hillegal, hrange⟩ := getLsbD_cipherMask mode s
    rw [hmask, hkey, hiv, hunsupported, hillegal, hrange]
    refine ⟨(and_iff_left (by omega)).symm, ⟨?_, ?_⟩, (and_iff_right hcipher).symm,
      iff_of_false (by decide) (by omega), by omega⟩
    · exact fun ⟨_, _, hlen⟩ => ⟨hlen, hcipher, by omega⟩
    · exact fun ⟨hlen, _, _⟩ => ⟨by omega, by omega, hlen⟩
  by_cases hunit : (3 ≤ opc ∧ opc ≤ 0xA) ∧ mode = 0
  · obtain ⟨hrow, hzero⟩ := hunit
    have hmask : errmask v s = unitMask opc s := by
      rw [errmask, hopc, hmodeOf, if_neg hcipher, if_pos hrow, if_pos hzero]
    obtain ⟨hkey, hiv, hunsupported, hillegal, hrange⟩ := getLsbD_unitMask opc s
    rw [hmask, hkey, hiv, hunsupported, hillegal, hrange]
    exact ⟨and_comm.trans (and_congr_right fun _ => by omega),
      iff_of_false (by decide) fun ⟨_, hopc', _⟩ => hcipher hopc',
      iff_of_false (by decide) (by omega), iff_of_false (by decide) (by omega), by omega⟩
  · have hfields : opc = 0 ∨ 0xB ≤ opc ∨ (3 ≤ opc ∧ mode ≠ 0) := by omega
    have hmask : errmask v s = 0x08 :=
      errmask_of_decode_illegal (decode_eq_illegal_iff.mpr (by rwa [hopc, hmodeOf])) s
    rw [hmask]
    exact ⟨iff_of_false (by decide) fun ⟨_, hrow⟩ => by omega,
      iff_of_false (by decide) fun ⟨_, hopc', _⟩ => hcipher hopc',
      iff_of_false (by decide) (by omega), iff_of_true (by decide) (by omega), iff_of_false (by decide) (by omega)⟩

/-! ## The failure path -/

/-- Settles O50: a failed check leads to the failure path, from `exec` and from the byte in flight alike. -/
theorem failingCommandChangesNothingElse : Obligations.FailingCommandChangesNothingElse := by
  refine ⟨fun i s hfail => exec_fail hfail, fun s rest h hin hfail => ?_⟩
  have hsame : errmask s.cmd (withInputs rest s) = errmask s.cmd s := errmask_congr rfl rfl rfl rfl rfl s.cmd
  rw [step_busy_run h hin, runPending_fail (s := withInputs rest s) (by rwa [withInputs_cmd, hsame]), withInputs_cmd,
    hsame]
  rfl

end Sys2Proof.Machine
end

section
/-! Liveness (60_exceptions.md R178, 70_reset_and_hazards.md R204): each part of a step answers a next state, and a command
in flight is over once the inputs are used up. -/

namespace Sys2Proof.Machine

/-! ## Every step answers -/

theorem stepInReset_next (s : State) : ∃ t, stepInReset s = .next t := by
  unfold stepInReset
  split <;> exact ⟨_, rfl⟩

theorem stepBusy_next (s : State) : ∃ t, stepBusy s = .next t := by
  have hrun (u : State) : ∃ t, runPending u = .next t := (runPending_next u).imp fun _ h => h.1
  unfold stepBusy
  split
  case h_2 | h_5 => exact hrun _
  case h_1 | h_3 | h_4 => exact ⟨_, rfl⟩

theorem stepIdle_next (s : State) : ∃ t, stepIdle s = .next t := by
  unfold stepIdle
  split <;> exact ⟨_, rfl⟩

/-- Settles O9: each of the three parts of `nextStep` (reset asserted, busy, idle) answers a next state. -/
theorem everyStepAnswersANextState : Obligations.EveryStepAnswersANextState := by
  intro s
  unfold step nextStep
  split
  · exact stepInReset_next s
  · split
    · exact stepBusy_next s
    · exact stepIdle_next s

/-! ## A command in flight -/

/-- An asserted `rst` comes before all else, whatever the state (70_reset_and_hazards.md R191). -/
theorem step_reset {s : State} {init : Memory} {rest : List Input} (hin : s.port.inputs = .reset init :: rest) :
    step s = .next (assertReset init (withInputs rest s)) := by
  unfold step nextStep
  split
  · rw [stepInReset, hin]
  · split
    · rw [stepBusy, hin]
    · rw [stepIdle, hin]

/-- With `rst` not asserted and nothing held, a release does nothing. -/
theorem step_busy_release {s : State} {rest : List Input} (h : InFlight s) (hheld : s.port.held = none)
    (hin : s.port.inputs = .release :: rest) : step s = .next (withInputs rest s) := by
  rw [step_busy h, stepBusy, hheld, hin]

/-- A transaction presented to a busy core leaves the command in flight and the inputs as they were (20_memory.md R46). -/
theorem present_inFlight (tr : Transaction) {s : State} (h : InFlight s) :
    InFlight (present tr s) ∧ (present tr s).port.inputs = s.port.inputs := by
  obtain ⟨hrst, hbusy⟩ := h
  by_cases haddr : tr.addr = statusAddr
  · rw [present_status haddr]
    cases tr with
    | read a => exact ⟨⟨hrst, hbusy⟩, rfl⟩
    | write a v =>
      obtain ⟨hflags, -⟩ := transactionsNeverRaiseAnError s (.write a v)
      obtain ⟨-, -, hkeeps⟩ := hflags fun w hw => by cases hw; cases haddr
      exact ⟨⟨hrst, hkeeps.trans hbusy⟩, rfl⟩
  · rw [present_held haddr hbusy]
    exact ⟨⟨hrst, hbusy⟩, rfl⟩

/-- A step with a command in flight completes it, abandons it for a reset, or uses up one input. -/
theorem step_inFlight_cases {s : State} (h : InFlight s) :
    (∃ u, step s = runPending u) ∨ (∃ init rest, s.port.inputs = .reset init :: rest) ∨
      ∃ t, step s = .next t ∧ InFlight t ∧ t.port.inputs.length < s.port.inputs.length := by
  cases hin : s.port.inputs with
  | nil => exact .inl ⟨_, step_busy_no_input h hin⟩
  | cons x rest =>
    have hfewer : rest.length < (x :: rest).length := Nat.lt_succ_self _
    cases x with
    | reset init => exact .inr (.inl ⟨init, rest, rfl⟩)
    | run => exact .inl ⟨_, step_busy_run h hin⟩
    | bus tr =>
      cases hheld : s.port.held with
      | none =>
        obtain ⟨hflight, hinputs⟩ := present_inFlight tr (s := withInputs rest s) h
        exact .inr (.inr ⟨_, step_busy_bus h hheld hin, hflight, hinputs ▸ hfewer⟩)
      | some held => exact .inl ⟨_, step_busy_bus_held h hheld hin⟩
    | release =>
      cases hheld : s.port.held with
      | none => exact .inr (.inr ⟨_, step_busy_release h hheld hin, h, hfewer⟩)
      | some held => exact .inl ⟨_, step_busy_release_held h hheld hin⟩

/-- Settles O10: by strong induction on the number of inputs, which each step that does not end the command lowers. -/
theorem commandInFlightCompletes : Obligations.CommandInFlightCompletes := by
  intro s h
  induction hn : s.port.inputs.length using Nat.strong_induction_on generalizing s with
  | _ n ih =>
    subst hn
    obtain ⟨u, hu⟩ | ⟨init, rest, hin⟩ | ⟨t, ht, hflight, hfewer⟩ := step_inFlight_cases h
    · obtain ⟨t, ht, hbusy, -⟩ := runPending_next u
      exact ⟨1, t, Nat.le_add_left 1 _, core_run_succ Sys2Proof.core (hu.trans ht), hbusy⟩
    · exact ⟨1, _, Nat.le_add_left 1 _, core_run_succ Sys2Proof.core (step_reset hin), rfl⟩
    · obtain ⟨k, u, hk, hrun, hbusy⟩ := ih _ hfewer t hflight rfl
      exact ⟨k + 1, u, by omega, (core_run_succ Sys2Proof.core ht).trans hrun, hbusy⟩

end Sys2Proof.Machine
end

section
/-! Reset and the IV (70_reset_and_hazards.md R190, R191, R196). -/

namespace Sys2Proof.Machine

/-! ## The IV -/

/-- A chaining command fails the check of the IV exactly where IVLEN is not 16 (60_exceptions.md R172). -/
theorem getLsbD_one_errmask_chain {i : Instr} (hi : i ∈ chainingCommands) (s : State) :
    (errmask (encode i) s).getLsbD 1 = true ↔ s.ivlen ≠ 16 := by
  have hfields : ∀ i ∈ chainingCommands, (opcOf (encode i) = 1 ∨ opcOf (encode i) = 2) ∧
      (modeOf (encode i) = 1 ∨ modeOf (encode i) = 2 ∨ modeOf (encode i) = 3) := by decide
  obtain ⟨-, hiv, -⟩ := errorMaskBits (encode i) s _ _ (Nat.div_add_mod _ 16).symm (Nat.mod_lt _ (by decide))
  exact hiv.trans (and_iff_left (hfields i hi))

/-- Settles O53: the command leaves IVLEN = 0, which the check of the next chaining command rejects. -/
theorem chainingCommandConsumesTheIv : Obligations.ChainingCommandConsumesTheIv := by
  intro i j s t u hi hj hpass ht hkept
  have hsub : ∀ j ∈ [Instr.encCbc, .encOfb, .encCfb, .decCbc, .decOfb, .decCfb], j ∈ chainingCommands := by decide
  cases (exec_pass hpass).symm.trans ht
  have hivlen : u.ivlen = 0 := by rw [hkept, completeCommand_ivlen, work_ivlen_chain hi]
  have hbit : (errmask (encode j) u).getLsbD 1 = true :=
    (getLsbD_one_errmask_chain (hsub j hj) u).mpr (by rw [hivlen]; decide)
  exact ⟨_, hbit, exec_fail fun hzero => by rw [hzero] at hbit; cases hbit⟩

/-! ## Reset -/

theorem step_of_rst {s : State} (hrst : s.port.rst = true) : step s = stepInReset s := by
  rw [step, nextStep, if_pos hrst]

/-- STATUS reads 0x00 with no error, no completion and no command in flight (20_memory.md R41). -/
theorem statusByte_eq_zero {s : State} (herr : s.err = 0) (hdone : s.done = false) (hbusy : busy s = false) :
    statusByte s = 0x00 := by
  simp [statusByte, errorFlag, herr, hdone, hbusy]

/-- Settles O54: the step of a reset is `assertReset` from every state; under `rst` a transaction is dropped, and a release
lowers `rst`. -/
theorem resetGivesEveryElementItsValue : Obligations.ResetGivesEveryElementItsValue := by
  refine ⟨fun s init rest hin => ⟨_, step_reset hin, fun k => ?_, fun j => ?_, rfl, rfl, rfl, rfl, rfl, rfl, rfl, rfl, rfl,
    rfl, rfl, statusByte_eq_zero rfl rfl rfl, rfl, rfl, rfl, rfl, rfl, rfl⟩,
    fun s t rest hrst hin => ?_, fun s rest hrst hin => ?_⟩
  · have hzero : Block.zero[k.val] = 0x00 := Vector.getElem_replicate k.isLt
    exact ⟨hzero, hzero, hzero⟩
  · exact Vector.getElem_replicate j.isLt
  · rw [step_of_rst hrst, stepInReset, hin]
    rfl
  · rw [step_of_rst hrst, stepInReset, hin]

end Sys2Proof.Machine
end

section
/-! The known answer of the source (95_test_vectors.md section 1). -/

namespace Sys2Proof.Machine

/-- Settles O31: the key schedule and the ten rounds, evaluated in the kernel on the one key and block of V1. -/
theorem knownAnswerOfTheSource : Obligations.KnownAnswerOfTheSource := by
  unfold Obligations.KnownAnswerOfTheSource
  decide +kernel

end Sys2Proof.Machine
end
